-- ==== Sys2Proof/Word.lean ====
section
/-! DEFINITION. The word types of the nodemips core block (spec/00_scope.md R5, R7): registers and addresses are
32-bit words, memory is bytes, and each field of an instruction word has its own width. -/

namespace Sys2Proof

/-- A register value or an address: 32 bits, bit 31 the most significant (R5, R7). -/
abbrev Word := BitVec 32

/-- The smallest addressable unit of memory (R30). -/
abbrev Byte := BitVec 8

/-- A general register number, a 5-bit field, so always in 0..31 (R11, R51). -/
abbrev RegIdx := BitVec 5

/-- The `shamt` field of the R format (R51). -/
abbrev Shamt := BitVec 5

/-- The `imm` field of the I format: a raw 16-bit pattern (R52). -/
abbrev Imm16 := BitVec 16

/-- The `addr` field of the J format: a word index (R53). -/
abbrev Addr26 := BitVec 26

/-- An `opcode` or `funct` field (R51). -/
abbrev Op6 := BitVec 6

end Sys2Proof
end

