-- ==== Sys2Proof/Syntax.lean ====
section
/-! DEFINITION. The instructions (one constructor per row of spec/opcode_table.json, in the table's order) and the
codec's instruction records (spec/40_codec.md R71). Operands stand in the order of the assembler syntax
(spec/30_encoding.md R66). A field the instruction does not use (R55, R63) is no operand. -/

namespace Sys2Proof

/-- The 58 admitted instructions (spec/30_encoding.md R58). -/
inductive Instr where
  | add (rd rs rt : RegIdx)
  | addu (rd rs rt : RegIdx)
  | sub (rd rs rt : RegIdx)
  | subu (rd rs rt : RegIdx)
  | and (rd rs rt : RegIdx)
  | or (rd rs rt : RegIdx)
  | xor (rd rs rt : RegIdx)
  | nor (rd rs rt : RegIdx)
  | slt (rd rs rt : RegIdx)
  | sltu (rd rs rt : RegIdx)
  | sll (rd rt : RegIdx) (shamt : Shamt)
  | srl (rd rt : RegIdx) (shamt : Shamt)
  | sra (rd rt : RegIdx) (shamt : Shamt)
  | sllv (rd rt rs : RegIdx)
  | srlv (rd rt rs : RegIdx)
  | srav (rd rt rs : RegIdx)
  | jr (rs : RegIdx)
  | jalr (rd rs : RegIdx)
  | syscall
  | brk
  | mfhi (rd : RegIdx)
  | mthi (rs : RegIdx)
  | mflo (rd : RegIdx)
  | mtlo (rs : RegIdx)
  | mult (rs rt : RegIdx)
  | multu (rs rt : RegIdx)
  | div (rs rt : RegIdx)
  | divu (rs rt : RegIdx)
  | bltz (rs : RegIdx) (imm : Imm16)
  | bgez (rs : RegIdx) (imm : Imm16)
  | bltzal (rs : RegIdx) (imm : Imm16)
  | bgezal (rs : RegIdx) (imm : Imm16)
  | j (addr : Addr26)
  | jal (addr : Addr26)
  | beq (rs rt : RegIdx) (imm : Imm16)
  | bne (rs rt : RegIdx) (imm : Imm16)
  | blez (rs : RegIdx) (imm : Imm16)
  | bgtz (rs : RegIdx) (imm : Imm16)
  | addi (rt rs : RegIdx) (imm : Imm16)
  | addiu (rt rs : RegIdx) (imm : Imm16)
  | slti (rt rs : RegIdx) (imm : Imm16)
  | sltiu (rt rs : RegIdx) (imm : Imm16)
  | andi (rt rs : RegIdx) (imm : Imm16)
  | ori (rt rs : RegIdx) (imm : Imm16)
  | xori (rt rs : RegIdx) (imm : Imm16)
  | lui (rt : RegIdx) (imm : Imm16)
  | cop0
  | cop1
  | cop2
  | cop3
  | lb (rt rs : RegIdx) (imm : Imm16)
  | lh (rt rs : RegIdx) (imm : Imm16)
  | lw (rt rs : RegIdx) (imm : Imm16)
  | lbu (rt rs : RegIdx) (imm : Imm16)
  | lhu (rt rs : RegIdx) (imm : Imm16)
  | sb (rt rs : RegIdx) (imm : Imm16)
  | sh (rt rs : RegIdx) (imm : Imm16)
  | sw (rt rs : RegIdx) (imm : Imm16)
  deriving DecidableEq, Repr

/-- The three formats (spec/30_encoding.md R50). -/
inductive Format where
  | R | I | J
  deriving DecidableEq, Repr

/-- An instruction record as `UNPACK` produces it: every field fits its width (spec/40_codec.md R71). -/
inductive Record where
  | r (opcode : Op6) (rs rt rd : RegIdx) (shamt : Shamt) (funct : Op6)
  | i (opcode : Op6) (rs rt : RegIdx) (imm : Imm16)
  | j (opcode : Op6) (addr : Addr26)
  deriving DecidableEq, Repr

/-- An instruction record as the assembler's compiler hands it to `PACK`: a field may be absent, may exceed its width,
and an immediate may be a signed number (R71, R73, R75). -/
inductive RawRecord where
  | r (opcode rs rt rd shamt funct : Option Int)
  | i (opcode rs rt imm : Option Int)
  | j (opcode addr : Option Int)
  deriving DecidableEq, Repr

/-- The format tag of a record. -/
def RawRecord.format : RawRecord → Format
  | .r .. => .R
  | .i .. => .I
  | .j .. => .J

/-- Each field of a record with its width in bits, the opcode first (R71's table). -/
def RawRecord.fields : RawRecord → List (Option Int × Nat)
  | .r opcode rs rt rd shamt funct => [(opcode, 6), (rs, 5), (rt, 5), (rd, 5), (shamt, 5), (funct, 6)]
  | .i opcode rs rt imm => [(opcode, 6), (rs, 5), (rt, 5), (imm, 16)]
  | .j opcode addr => [(opcode, 6), (addr, 26)]

/-- A typed record, all of whose fields are present and fit, as a raw one. -/
def Record.toRaw : Record → RawRecord
  | .r opcode rs rt rd shamt funct =>
    .r (some opcode.toNat) (some rs.toNat) (some rt.toNat) (some rd.toNat) (some shamt.toNat) (some funct.toNat)
  | .i opcode rs rt imm => .i (some opcode.toNat) (some rs.toNat) (some rt.toNat) (some imm.toNat)
  | .j opcode addr => .j (some opcode.toNat) (some addr.toNat)

end Sys2Proof
end

