-- ==== Sys2Proof/WellFormed.lean ====
section
/-! DEFINITION. When an instruction record is well formed (spec/40_codec.md R71, R74, R75): every field of its shape
present, every field within its width, and the shape the one its opcode selects. An `Instr` holds its operands at their
widths, so every `Instr` is well formed; the checks are about the records the codec packs. -/

namespace Sys2Proof

/-- `ISVALID` (R75): every required field of the format is present. It checks neither widths nor the opcode. -/
def RawRecord.isValid (r : RawRecord) : Bool :=
  r.fields.all fun f => f.1.isSome

/-- R71: "every field fits its bit width", each field read as an unsigned number. An absent field is the business of
`isValid`. -/
def RawRecord.fieldsFit (r : RawRecord) : Bool :=
  r.fields.all fun f =>
    match f.1 with
    | some v => decide (0 ≤ v) && decide (v < 2 ^ f.2)
    | none => true

/-- The format an opcode selects: 0 is R, 2 and 3 are J, everything else is I (spec/30_encoding.md R54). -/
def formatOfOpcode (opcode : Int) : Format :=
  if opcode = 0 then .R else if opcode = 2 ∨ opcode = 3 then .J else .I

/-- R74: the record's shape is the one its opcode selects. An opcode wider than 6 bits is judged by the 6 bits `PACK`
reduces it to (R73), so that an R record with opcode 64, which the spec packs with "opcode taken as 0"
(spec/95_test_vectors.md V2), agrees. The model's choice, since U2 does not say which opcode it means: note 8. -/
def RawRecord.shapeAgrees (r : RawRecord) : Bool :=
  match r.fields.head? with
  | some (some opcode, _) => decide (r.format = formatOfOpcode (opcode % 2 ^ 6))
  | _ => false

/-- A record the round trip of rule R74 is claimed for. -/
def RawRecord.wellFormed (r : RawRecord) : Bool :=
  r.isValid && r.fieldsFit && r.shapeAgrees

/-- The shape check on a typed record (its fields are present and fit by construction). -/
def Record.wellFormed (r : Record) : Bool :=
  r.toRaw.wellFormed

end Sys2Proof
end

