-- ==== Sys2Proof/Decode.lean ====
section
/-! DEFINITION. The instruction codec (spec/40_codec.md), the dispatch of an unpacked record to an instruction
(spec/30_encoding.md R56, R59, R60), and the encoder. Decoding is total: a word that is no instruction is rejected by
name. -/

namespace Sys2Proof

/-- Why bytes are no instruction. The engine answers the last three with the INSTRUCTION_BUS exception
(spec/46_system.md R158, R159); the first is a host-software error only (spec/40_codec.md R76). -/
inductive DecodeError where
  /-- Fewer than 4 bytes: NM's `ShortBufferError` (R76). -/
  | shortBuffer
  /-- The opcode has no row in R56 (R158). -/
  | unknownOpcode
  /-- SPECIAL word whose `funct` or side condition matches no row of R59 (R159). -/
  | reservedFunct
  /-- REGIMM word whose `rt` field is not 0x00, 0x01, 0x10 or 0x11 (R60, R159). -/
  | reservedRegimm
  deriving DecidableEq, Repr

/-! ### The codec -/

/-- `UNPACK` (R72). -/
def unpack (w : Word) : Record :=
  let opcode := w.extractLsb' 26 6
  if opcode = 0x00#6 then
    .r opcode (w.extractLsb' 21 5) (w.extractLsb' 16 5) (w.extractLsb' 11 5) (w.extractLsb' 6 5) (w.extractLsb' 0 6)
  else if opcode = 0x02#6 ∨ opcode = 0x03#6 then
    .j opcode (w.extractLsb' 0 26)
  else
    .i opcode (w.extractLsb' 21 5) (w.extractLsb' 16 5) (w.extractLsb' 0 16)

/-- `PACK` of a record whose fields fit (R73): the fields side by side, the first in the highest bits. -/
def pack : Record → Word
  | .r opcode rs rt rd shamt funct => opcode ++ rs ++ rt ++ rd ++ shamt ++ funct
  | .i opcode rs rt imm => opcode ++ rs ++ rt ++ imm
  | .j opcode addr => opcode ++ addr

/-- Every field reduced to its width ("encode must mask/truncate", R73); `none` when a field is absent. -/
def RawRecord.truncate : RawRecord → Option Record
  | .r (some opcode) (some rs) (some rt) (some rd) (some shamt) (some funct) =>
    some (.r (BitVec.ofInt 6 opcode) (BitVec.ofInt 5 rs) (BitVec.ofInt 5 rt) (BitVec.ofInt 5 rd)
      (BitVec.ofInt 5 shamt) (BitVec.ofInt 6 funct))
  | .i (some opcode) (some rs) (some rt) (some imm) =>
    some (.i (BitVec.ofInt 6 opcode) (BitVec.ofInt 5 rs) (BitVec.ofInt 5 rt) (BitVec.ofInt 16 imm))
  | .j (some opcode) (some addr) => some (.j (BitVec.ofInt 6 opcode) (BitVec.ofInt 26 addr))
  | _ => none

/-- `PACK` (R73). A record with an absent field has no result (`none`: R75, U2). `PACK` itself "does not check that the
record's shape agrees with its opcode" (R73). Note 8. -/
def packRaw (r : RawRecord) : Option Word :=
  r.truncate.map pack

/-- `PACK` behind its caller, who rejects an invalid record and does not repair it (R75): the records U2 lists are
refused, those with a missing field and those whose shape does not match the opcode, judged by the 6 bits it packs to.
The model's choice: note 8. -/
def packChecked (r : RawRecord) : Option Word :=
  if r.isValid && r.shapeAgrees then packRaw r else none

/-- Four bytes, lowest address first, as a word (R76; spec/20_memory.md R35). -/
def wordOfBytes (b0 b1 b2 b3 : Byte) : Word :=
  b0 ++ b1 ++ b2 ++ b3

/-- A word as four bytes, lowest address first (R77). -/
def bytesOfWord (w : Word) : List Byte :=
  [w.extractLsb' 24 8, w.extractLsb' 16 8, w.extractLsb' 8 8, w.extractLsb' 0 8]

/-- NM's `decode` on a byte buffer (R76): the first four bytes; a shorter buffer fails. -/
def unpackBytes : List Byte → Except DecodeError Record
  | b0 :: b1 :: b2 :: b3 :: _ => .ok (unpack (wordOfBytes b0 b1 b2 b3))
  | _ => .error .shortBuffer

/-! ### Dispatch -/

/-- The `funct[5] = 1` half of the SPECIAL dispatch: NM's test T1 as written, aliases included (R59). -/
def selectAlu (rs rt rd : RegIdx) (f : Op6) : Instr :=
  if f.getLsbD 3 then
    if f.getLsbD 0 then .sltu rd rs rt else .slt rd rs rt
  else if f.getLsbD 2 then
    match f.extractLsb' 0 2 with
    | 0#2 => .and rd rs rt
    | 1#2 => .or rd rs rt
    | 2#2 => .xor rd rs rt
    | _ => .nor rd rs rt
  else
    match f.extractLsb' 0 2 with
    | 0#2 => .add rd rs rt
    | 1#2 => .addu rd rs rt
    | 2#2 => .sub rd rs rt
    | _ => .subu rd rs rt

/-- The SPECIAL dispatch (R59): the ALU half by bit tests, the other half by exact `funct` values and NM's two usable
side conditions (`shamt` = 0 for the variable shifts, `rs` = `rt` = 0 for MFHI and MFLO). -/
def selectSpecial (rs rt rd : RegIdx) (sa : Shamt) (f : Op6) : Except DecodeError Instr :=
  if f.getLsbD 5 then .ok (selectAlu rs rt rd f)
  else
    match f with
    | 0x00#6 => .ok (.sll rd rt sa)
    | 0x02#6 => .ok (.srl rd rt sa)
    | 0x03#6 => .ok (.sra rd rt sa)
    | 0x04#6 => if sa = 0#5 then .ok (.sllv rd rt rs) else .error .reservedFunct
    | 0x06#6 => if sa = 0#5 then .ok (.srlv rd rt rs) else .error .reservedFunct
    | 0x07#6 => if sa = 0#5 then .ok (.srav rd rt rs) else .error .reservedFunct
    | 0x08#6 => .ok (.jr rs)
    | 0x09#6 => .ok (.jalr rd rs)
    | 0x0C#6 => .ok .syscall
    | 0x0D#6 => .ok .brk
    | 0x10#6 => if rs = 0#5 ∧ rt = 0#5 then .ok (.mfhi rd) else .error .reservedFunct
    | 0x11#6 => .ok (.mthi rs)
    | 0x12#6 => if rs = 0#5 ∧ rt = 0#5 then .ok (.mflo rd) else .error .reservedFunct
    | 0x13#6 => .ok (.mtlo rs)
    | 0x18#6 => .ok (.mult rs rt)
    | 0x19#6 => .ok (.multu rs rt)
    | 0x1A#6 => .ok (.div rs rt)
    | 0x1B#6 => .ok (.divu rs rt)
    | _ => .error .reservedFunct

/-- The REGIMM dispatch (R60): the `rt` field is the sub-opcode. -/
def selectRegimm (rs rt : RegIdx) (imm : Imm16) : Except DecodeError Instr :=
  match rt with
  | 0x00#5 => .ok (.bltz rs imm)
  | 0x01#5 => .ok (.bgez rs imm)
  | 0x10#5 => .ok (.bltzal rs imm)
  | 0x11#5 => .ok (.bgezal rs imm)
  | _ => .error .reservedRegimm

/-- The dispatch of an unpacked record by opcode, `funct` and `rt` (spec/70_reset_and_hazards.md R194;
spec/30_encoding.md R56, R59, R60). -/
def select : Record → Except DecodeError Instr
  | .r opcode rs rt rd shamt funct =>
    if opcode = 0x00#6 then selectSpecial rs rt rd shamt funct else .error .unknownOpcode
  | .j opcode addr =>
    match opcode with
    | 0x02#6 => .ok (.j addr)
    | 0x03#6 => .ok (.jal addr)
    | _ => .error .unknownOpcode
  | .i opcode rs rt imm =>
    match opcode with
    | 0x01#6 => selectRegimm rs rt imm
    | 0x04#6 => .ok (.beq rs rt imm)
    | 0x05#6 => .ok (.bne rs rt imm)
    | 0x06#6 => .ok (.blez rs imm)
    | 0x07#6 => .ok (.bgtz rs imm)
    | 0x08#6 => .ok (.addi rt rs imm)
    | 0x09#6 => .ok (.addiu rt rs imm)
    | 0x0A#6 => .ok (.slti rt rs imm)
    | 0x0B#6 => .ok (.sltiu rt rs imm)
    | 0x0C#6 => .ok (.andi rt rs imm)
    | 0x0D#6 => .ok (.ori rt rs imm)
    | 0x0E#6 => .ok (.xori rt rs imm)
    | 0x0F#6 => .ok (.lui rt imm)
    | 0x10#6 => .ok .cop0
    | 0x11#6 => .ok .cop1
    | 0x12#6 => .ok .cop2
    | 0x13#6 => .ok .cop3
    | 0x20#6 => .ok (.lb rt rs imm)
    | 0x21#6 => .ok (.lh rt rs imm)
    | 0x23#6 => .ok (.lw rt rs imm)
    | 0x24#6 => .ok (.lbu rt rs imm)
    | 0x25#6 => .ok (.lhu rt rs imm)
    | 0x28#6 => .ok (.sb rt rs imm)
    | 0x29#6 => .ok (.sh rt rs imm)
    | 0x2B#6 => .ok (.sw rt rs imm)
    | _ => .error .unknownOpcode

/-- The instruction a word stands for. -/
def decodeWord (w : Word) : Except DecodeError Instr :=
  select (unpack w)

/-- The decoder on bytes in the order memory holds them: the first instruction and the bytes after it. Every
instruction is four bytes long (R50). -/
def decode : List Byte → Except DecodeError (Instr × List Byte)
  | b0 :: b1 :: b2 :: b3 :: rest =>
    match decodeWord (wordOfBytes b0 b1 b2 b3) with
    | .ok i => .ok (i, rest)
    | .error e => .error e
  | _ => .error .shortBuffer

/-- The decoder on an opcode-table word: bit 0 of `w` is the instruction's least significant bit, the bits from `nbits`
up are 0. -/
def decodeTableWord (nbits w : Nat) : Option Instr :=
  match decode (bytesOfWord (BitVec.ofNat 32 (w % 2 ^ nbits))) with
  | .ok (i, _) => some i
  | .error _ => none

/-! ### The encoder -/

/-- The record of an instruction's canonical encoding (R9 "canonical encoding", R56, R59, R60): unused fields are 0,
and a `funct` with aliases takes its canonical value. -/
def Instr.record : Instr → Record
  | .add rd rs rt => .r 0x00#6 rs rt rd 0#5 0x20#6
  | .addu rd rs rt => .r 0x00#6 rs rt rd 0#5 0x21#6
  | .sub rd rs rt => .r 0x00#6 rs rt rd 0#5 0x22#6
  | .subu rd rs rt => .r 0x00#6 rs rt rd 0#5 0x23#6
  | .and rd rs rt => .r 0x00#6 rs rt rd 0#5 0x24#6
  | .or rd rs rt => .r 0x00#6 rs rt rd 0#5 0x25#6
  | .xor rd rs rt => .r 0x00#6 rs rt rd 0#5 0x26#6
  | .nor rd rs rt => .r 0x00#6 rs rt rd 0#5 0x27#6
  | .slt rd rs rt => .r 0x00#6 rs rt rd 0#5 0x2A#6
  | .sltu rd rs rt => .r 0x00#6 rs rt rd 0#5 0x2B#6
  | .sll rd rt shamt => .r 0x00#6 0#5 rt rd shamt 0x00#6
  | .srl rd rt shamt => .r 0x00#6 0#5 rt rd shamt 0x02#6
  | .sra rd rt shamt => .r 0x00#6 0#5 rt rd shamt 0x03#6
  | .sllv rd rt rs => .r 0x00#6 rs rt rd 0#5 0x04#6
  | .srlv rd rt rs => .r 0x00#6 rs rt rd 0#5 0x06#6
  | .srav rd rt rs => .r 0x00#6 rs rt rd 0#5 0x07#6
  | .jr rs => .r 0x00#6 rs 0#5 0#5 0#5 0x08#6
  | .jalr rd rs => .r 0x00#6 rs 0#5 rd 0#5 0x09#6
  | .syscall => .r 0x00#6 0#5 0#5 0#5 0#5 0x0C#6
  | .brk => .r 0x00#6 0#5 0#5 0#5 0#5 0x0D#6
  | .mfhi rd => .r 0x00#6 0#5 0#5 rd 0#5 0x10#6
  | .mthi rs => .r 0x00#6 rs 0#5 0#5 0#5 0x11#6
  | .mflo rd => .r 0x00#6 0#5 0#5 rd 0#5 0x12#6
  | .mtlo rs => .r 0x00#6 rs 0#5 0#5 0#5 0x13#6
  | .mult rs rt => .r 0x00#6 rs rt 0#5 0#5 0x18#6
  | .multu rs rt => .r 0x00#6 rs rt 0#5 0#5 0x19#6
  | .div rs rt => .r 0x00#6 rs rt 0#5 0#5 0x1A#6
  | .divu rs rt => .r 0x00#6 rs rt 0#5 0#5 0x1B#6
  | .bltz rs imm => .i 0x01#6 rs 0x00#5 imm
  | .bgez rs imm => .i 0x01#6 rs 0x01#5 imm
  | .bltzal rs imm => .i 0x01#6 rs 0x10#5 imm
  | .bgezal rs imm => .i 0x01#6 rs 0x11#5 imm
  | .j addr => .j 0x02#6 addr
  | .jal addr => .j 0x03#6 addr
  | .beq rs rt imm => .i 0x04#6 rs rt imm
  | .bne rs rt imm => .i 0x05#6 rs rt imm
  | .blez rs imm => .i 0x06#6 rs 0#5 imm
  | .bgtz rs imm => .i 0x07#6 rs 0#5 imm
  | .addi rt rs imm => .i 0x08#6 rs rt imm
  | .addiu rt rs imm => .i 0x09#6 rs rt imm
  | .slti rt rs imm => .i 0x0A#6 rs rt imm
  | .sltiu rt rs imm => .i 0x0B#6 rs rt imm
  | .andi rt rs imm => .i 0x0C#6 rs rt imm
  | .ori rt rs imm => .i 0x0D#6 rs rt imm
  | .xori rt rs imm => .i 0x0E#6 rs rt imm
  | .lui rt imm => .i 0x0F#6 0#5 rt imm
  | .cop0 => .i 0x10#6 0#5 0#5 0#16
  | .cop1 => .i 0x11#6 0#5 0#5 0#16
  | .cop2 => .i 0x12#6 0#5 0#5 0#16
  | .cop3 => .i 0x13#6 0#5 0#5 0#16
  | .lb rt rs imm => .i 0x20#6 rs rt imm
  | .lh rt rs imm => .i 0x21#6 rs rt imm
  | .lw rt rs imm => .i 0x23#6 rs rt imm
  | .lbu rt rs imm => .i 0x24#6 rs rt imm
  | .lhu rt rs imm => .i 0x25#6 rs rt imm
  | .sb rt rs imm => .i 0x28#6 rs rt imm
  | .sh rt rs imm => .i 0x29#6 rs rt imm
  | .sw rt rs imm => .i 0x2B#6 rs rt imm

/-- The instruction's word. -/
def encode (i : Instr) : Word :=
  pack i.record

/-- The instruction's bytes, lowest address first (R77). -/
def encodeBytes (i : Instr) : List Byte :=
  bytesOfWord (encode i)

/-! ### The opcode table -/

/-- A row of the opcode table: a word `w` belongs to it when `w &&& mask = pattern`. -/
structure TableRow where
  pattern : Word
  mask : Word
  deriving DecidableEq, Repr

/-- The instruction's row, its `match` and `mask` as spec/opcode_table.json has them. -/
def Instr.row : Instr → TableRow
  | .add .. => ⟨0x00000020#32, 0xFC00002F#32⟩
  | .addu .. => ⟨0x00000021#32, 0xFC00002F#32⟩
  | .sub .. => ⟨0x00000022#32, 0xFC00002F#32⟩
  | .subu .. => ⟨0x00000023#32, 0xFC00002F#32⟩
  | .and .. => ⟨0x00000024#32, 0xFC00002F#32⟩
  | .or .. => ⟨0x00000025#32, 0xFC00002F#32⟩
  | .xor .. => ⟨0x00000026#32, 0xFC00002F#32⟩
  | .nor .. => ⟨0x00000027#32, 0xFC00002F#32⟩
  | .slt .. => ⟨0x00000028#32, 0xFC000029#32⟩
  | .sltu .. => ⟨0x00000029#32, 0xFC000029#32⟩
  | .sll .. => ⟨0x00000000#32, 0xFC00003F#32⟩
  | .srl .. => ⟨0x00000002#32, 0xFC00003F#32⟩
  | .sra .. => ⟨0x00000003#32, 0xFC00003F#32⟩
  | .sllv .. => ⟨0x00000004#32, 0xFC0007FF#32⟩
  | .srlv .. => ⟨0x00000006#32, 0xFC0007FF#32⟩
  | .srav .. => ⟨0x00000007#32, 0xFC0007FF#32⟩
  | .jr .. => ⟨0x00000008#32, 0xFC00003F#32⟩
  | .jalr .. => ⟨0x00000009#32, 0xFC00003F#32⟩
  | .syscall => ⟨0x0000000C#32, 0xFC00003F#32⟩
  | .brk => ⟨0x0000000D#32, 0xFC00003F#32⟩
  | .mfhi .. => ⟨0x00000010#32, 0xFFFF003F#32⟩
  | .mthi .. => ⟨0x00000011#32, 0xFC00003F#32⟩
  | .mflo .. => ⟨0x00000012#32, 0xFFFF003F#32⟩
  | .mtlo .. => ⟨0x00000013#32, 0xFC00003F#32⟩
  | .mult .. => ⟨0x00000018#32, 0xFC00003F#32⟩
  | .multu .. => ⟨0x00000019#32, 0xFC00003F#32⟩
  | .div .. => ⟨0x0000001A#32, 0xFC00003F#32⟩
  | .divu .. => ⟨0x0000001B#32, 0xFC00003F#32⟩
  | .bltz .. => ⟨0x04000000#32, 0xFC1F0000#32⟩
  | .bgez .. => ⟨0x04010000#32, 0xFC1F0000#32⟩
  | .bltzal .. => ⟨0x04100000#32, 0xFC1F0000#32⟩
  | .bgezal .. => ⟨0x04110000#32, 0xFC1F0000#32⟩
  | .j .. => ⟨0x08000000#32, 0xFC000000#32⟩
  | .jal .. => ⟨0x0C000000#32, 0xFC000000#32⟩
  | .beq .. => ⟨0x10000000#32, 0xFC000000#32⟩
  | .bne .. => ⟨0x14000000#32, 0xFC000000#32⟩
  | .blez .. => ⟨0x18000000#32, 0xFC000000#32⟩
  | .bgtz .. => ⟨0x1C000000#32, 0xFC000000#32⟩
  | .addi .. => ⟨0x20000000#32, 0xFC000000#32⟩
  | .addiu .. => ⟨0x24000000#32, 0xFC000000#32⟩
  | .slti .. => ⟨0x28000000#32, 0xFC000000#32⟩
  | .sltiu .. => ⟨0x2C000000#32, 0xFC000000#32⟩
  | .andi .. => ⟨0x30000000#32, 0xFC000000#32⟩
  | .ori .. => ⟨0x34000000#32, 0xFC000000#32⟩
  | .xori .. => ⟨0x38000000#32, 0xFC000000#32⟩
  | .lui .. => ⟨0x3C000000#32, 0xFC000000#32⟩
  | .cop0 => ⟨0x40000000#32, 0xFC000000#32⟩
  | .cop1 => ⟨0x44000000#32, 0xFC000000#32⟩
  | .cop2 => ⟨0x48000000#32, 0xFC000000#32⟩
  | .cop3 => ⟨0x4C000000#32, 0xFC000000#32⟩
  | .lb .. => ⟨0x80000000#32, 0xFC000000#32⟩
  | .lh .. => ⟨0x84000000#32, 0xFC000000#32⟩
  | .lw .. => ⟨0x8C000000#32, 0xFC000000#32⟩
  | .lbu .. => ⟨0x90000000#32, 0xFC000000#32⟩
  | .lhu .. => ⟨0x94000000#32, 0xFC000000#32⟩
  | .sb .. => ⟨0xA0000000#32, 0xFC000000#32⟩
  | .sh .. => ⟨0xA4000000#32, 0xFC000000#32⟩
  | .sw .. => ⟨0xAC000000#32, 0xFC000000#32⟩

/-- The bits of the word that hold the instruction's operands (R51 to R53, R55). -/
def Instr.operandMask : Instr → Word
  | .add .. => 0x03FFF800#32
  | .addu .. => 0x03FFF800#32
  | .sub .. => 0x03FFF800#32
  | .subu .. => 0x03FFF800#32
  | .and .. => 0x03FFF800#32
  | .or .. => 0x03FFF800#32
  | .xor .. => 0x03FFF800#32
  | .nor .. => 0x03FFF800#32
  | .slt .. => 0x03FFF800#32
  | .sltu .. => 0x03FFF800#32
  | .sll .. => 0x001FFFC0#32
  | .srl .. => 0x001FFFC0#32
  | .sra .. => 0x001FFFC0#32
  | .sllv .. => 0x03FFF800#32
  | .srlv .. => 0x03FFF800#32
  | .srav .. => 0x03FFF800#32
  | .jr .. => 0x03E00000#32
  | .jalr .. => 0x03E0F800#32
  | .syscall => 0x00000000#32
  | .brk => 0x00000000#32
  | .mfhi .. => 0x0000F800#32
  | .mthi .. => 0x03E00000#32
  | .mflo .. => 0x0000F800#32
  | .mtlo .. => 0x03E00000#32
  | .mult .. => 0x03FF0000#32
  | .multu .. => 0x03FF0000#32
  | .div .. => 0x03FF0000#32
  | .divu .. => 0x03FF0000#32
  | .bltz .. => 0x03E0FFFF#32
  | .bgez .. => 0x03E0FFFF#32
  | .bltzal .. => 0x03E0FFFF#32
  | .bgezal .. => 0x03E0FFFF#32
  | .j .. => 0x03FFFFFF#32
  | .jal .. => 0x03FFFFFF#32
  | .beq .. => 0x03FFFFFF#32
  | .bne .. => 0x03FFFFFF#32
  | .blez .. => 0x03E0FFFF#32
  | .bgtz .. => 0x03E0FFFF#32
  | .addi .. => 0x03FFFFFF#32
  | .addiu .. => 0x03FFFFFF#32
  | .slti .. => 0x03FFFFFF#32
  | .sltiu .. => 0x03FFFFFF#32
  | .andi .. => 0x03FFFFFF#32
  | .ori .. => 0x03FFFFFF#32
  | .xori .. => 0x03FFFFFF#32
  | .lui .. => 0x001FFFFF#32
  | .cop0 => 0x00000000#32
  | .cop1 => 0x00000000#32
  | .cop2 => 0x00000000#32
  | .cop3 => 0x00000000#32
  | .lb .. => 0x03FFFFFF#32
  | .lh .. => 0x03FFFFFF#32
  | .lw .. => 0x03FFFFFF#32
  | .lbu .. => 0x03FFFFFF#32
  | .lhu .. => 0x03FFFFFF#32
  | .sb .. => 0x03FFFFFF#32
  | .sh .. => 0x03FFFFFF#32
  | .sw .. => 0x03FFFFFF#32

end Sys2Proof
end

