-- ==== Sys2Proof/Machine/Operands.lean ====
section
/-! DEFINITION. The readings of a value and the operand forms of the instructions: signed reading, narrowing,
extensions, effective address, branch and jump targets, shifts (spec/00_scope.md R7, spec/30_encoding.md R55). Each
computes in exact integers and narrows at the end. -/

namespace Sys2Proof.Machine

/-- `s32(v)`: the signed reading of a word (R7). -/
def s32 (v : Word) : Int := v.toInt

/-- `u32(n)`: `n mod 2^32` (R7). -/
def u32 (n : Int) : Word := BitVec.ofInt 32 n

/-- `sext_32` of a 16-bit value (R7). -/
def sext16 (v : BitVec 16) : Word := v.signExtend 32

/-- `zext_32` of a 16-bit value (R7). -/
def zext16 (v : BitVec 16) : Word := v.zeroExtend 32

/-- `sext_32` of a byte (R7). -/
def sext8 (v : Byte) : Word := v.signExtend 32

/-- `zext_32` of a byte (R7). -/
def zext8 (v : Byte) : Word := v.zeroExtend 32

/-- LUI's operand `{imm, 0x0000}` (R55, R98). -/
def upperImm (imm : Imm16) : Word := imm ++ 0#16

/-- `EA = u32(x[rs] + sext_32(imm))` (spec/45_load_store.md R140). -/
def effectiveAddress (base : Word) (imm : Imm16) : Word := base + sext16 imm

/-- `u32(A + 4)`: the default advance and the link value (spec/70_reset_and_hazards.md R196, spec/44_control.md R120). -/
def nextAddr (a : Word) : Word := a + 4#32

/-- `T = u32(A + 4 + 4 * s32(sext_32(imm)))` (spec/44_control.md R120). -/
def branchTarget (a : Word) (imm : Imm16) : Word := u32 (a.toNat + 4 + 4 * s32 (sext16 imm))

/-- `{A[31:28], addr, 0b00}` (spec/44_control.md R131). -/
def jumpTarget (a : Word) (addr : Addr26) : Word := a.extractLsb' 28 4 ++ addr ++ 0#2

/-- `shl(v, n) = u32(v * 2^n)` (spec/43_shift.md R110). -/
def shl (v : Word) (n : BitVec 5) : Word := u32 (v.toNat * 2 ^ n.toNat)

/-- `shrl(v, n) = floor(v / 2^n)` (R110). -/
def shrl (v : Word) (n : BitVec 5) : Word := u32 (v.toNat / 2 ^ n.toNat)

/-- `shra(v, n) = u32(floor(s32(v) / 2^n))` (R110). -/
def shra (v : Word) (n : BitVec 5) : Word := u32 (Int.fdiv (s32 v) (2 ^ n.toNat))

/-- The variable shift amount `x[rs][4:0]` (R110, R114). -/
def shiftAmount (v : Word) : BitVec 5 := v.extractLsb' 0 5

/-- The result of a comparison, 1 or 0 (spec/41_arith_logic.md R89). -/
def boolWord (b : Bool) : Word := if b then 1#32 else 0#32

end Sys2Proof.Machine
end

