-- ==== Sys2Proof/Machine/Flags.lean ====
section
/-! DEFINITION. The conditions the instructions compute. The block has no condition codes (spec/10_state.md R24): what
stands here is the signed overflow test that raises OVERFLOW, and the comparisons of the branches and the set
instructions. `DIVERR`, the only flag an instruction sets, is written in Machine/MulDiv.lean. -/

namespace Sys2Proof.Machine

/-- An exact signed result is outside `-2^31 .. 2^31-1` (spec/41_arith_logic.md R80, R81; spec/90_conflicts.md C1). -/
def overflows (r : Int) : Bool := decide (r < -2147483648 ∨ r > 2147483647)

/-- Signed `a < b` (R89). -/
def ltSigned (a b : Word) : Bool := decide (s32 a < s32 b)

/-- Unsigned `a < b` (R90). -/
def ltUnsigned (a b : Word) : Bool := decide (a.toNat < b.toNat)

/-- `s32(v) <= 0` (spec/44_control.md R125). -/
def leZero (v : Word) : Bool := decide (s32 v ≤ 0)

/-- `s32(v) > 0` (R126). -/
def gtZero (v : Word) : Bool := decide (s32 v > 0)

/-- `s32(v) < 0` (R127). -/
def ltZero (v : Word) : Bool := decide (s32 v < 0)

/-- `s32(v) >= 0` (R128). -/
def geZero (v : Word) : Bool := decide (s32 v ≥ 0)

end Sys2Proof.Machine
end

