-- ==== Sys2Proof/Config.lean ====
section
/-! DEFINITION. What the spec leaves to the platform (spec/00_scope.md R6, spec/92_eei_decisions.md "Parameters left
OPEN"): the named parameters as ONE record of plain data, their constraints, and the free values of the platform's and
the host's answers. A machine state carries its record (State.cfg), no step changes it, and a claim about every state is
therefore a claim for every value of every parameter. Notes 1 and 2 of the assumption log. -/

namespace Sys2Proof

/-- The targets of the address router (spec/20_memory.md R31, R32): the I/O stub word, five byte buffers, and the
fallback below the lowest mapped base. -/
inductive Region where
  | io | video | erom | stack | ram | text | zero
  deriving DecidableEq, Repr

/-- Which of the two memory primitives an access belongs to (R36, R37). -/
inductive AccessKind where
  | read | write
  deriving DecidableEq, Repr

/-- The address map: the bases and sizes NM gives no number for (R31, decision D28). -/
structure AddressMap where
  textBase : Word
  textSize : Nat
  ramBase : Word
  ramSize : Nat
  stackBase : Word
  stackSize : Nat
  eromBase : Word
  eromSize : Nat
  videoBase : Word
  videoSize : Nat
  ioAddr : Word
  deriving DecidableEq, Repr

/-- Addresses `first` to `last` at which the platform answers `BusError` to a read, to a write, or to both
(spec/20_memory.md R46, decision D17). A list of these gives any set of addresses for each direction. -/
structure BusErrorRange where
  first : Word
  last : Word
  onRead : Bool
  onWrite : Bool
  deriving DecidableEq, Repr

/-- What SYSCALL hands to the host: the service code `x[2]` and the arguments `x[4]` to `x[7]`
(spec/60_exceptions.md R184). -/
structure SyscallRequest where
  code : Word
  a0 : Word
  a1 : Word
  a2 : Word
  a3 : Word
  deriving DecidableEq, Repr

/-- What the host may do during the call-out, and nothing else (R184, decision D29): a new `x[2]`, bytes of memory,
and a request to suspend. -/
structure SyscallReply where
  result : Option Word
  writes : List Host.Cell
  suspend : Bool
  deriving DecidableEq, Repr, Inhabited

/-- The `*_RESET` parameters (R6, R26): what a register that NM gives no reset value holds after reset. -/
structure ResetValues where
  /-- `GPR_RESET[i]` for `i` = 1..31, at position `i - 1`. -/
  gpr : Vector Word 31
  hi : Word
  lo : Word
  epc : Word
  cause : Word
  status : Word
  bvr : Word
  deriving DecidableEq, Repr

/-- The parameters of rule R6, each under its name there. -/
structure Config where
  /-- `PC_RESET` -/
  pcReset : Word
  /-- `EXC_VECTOR` -/
  excVector : Word
  /-- `BREAK_VECTOR` -/
  breakVector : Word
  /-- `CAUSE_CODE_SHIFT`, 0..31 -/
  causeCodeShift : Fin 32
  /-- `CAUSE_INT_MASK` -/
  causeIntMask : Word
  /-- `CODE_INT` -/
  codeInt : Word
  /-- `CODE_IBUS` -/
  codeIbus : Word
  /-- `CODE_DBUS` -/
  codeDbus : Word
  /-- `CODE_OVF` -/
  codeOvf : Word
  /-- `CODE_SYS`, written to `cause` by no rule (R171) -/
  codeSys : Word
  /-- `CODE_BRK`, written to `cause` by no rule (R171) -/
  codeBrk : Word
  /-- the address map (R31) -/
  map : AddressMap
  /-- the platform's `BusError` predicate (R46) -/
  busErrors : List BusErrorRange
  /-- whether a store to the text window changes its buffer (R37, U12) -/
  textWritable : Bool
  /-- whether a store to the error-handler ROM changes its buffer (R37, U12) -/
  eromWritable : Bool
  /-- whether a store to the video window changes its buffer (R37, U12) -/
  videoWritable : Bool
  /-- the `*_RESET` values (R26) -/
  resetValues : ResetValues
  deriving DecidableEq, Repr

/-- The windows are in the order of rule R32 and disjoint (R31: "disjoint address ranges"). -/
abbrev AddressMap.wf (m : AddressMap) : Prop :=
  m.textBase.toNat < m.ramBase.toNat ∧ m.ramBase.toNat < m.stackBase.toNat ∧
  m.stackBase.toNat < m.eromBase.toNat ∧ m.eromBase.toNat < m.videoBase.toNat ∧
  m.videoBase.toNat < m.ioAddr.toNat ∧
  m.textBase.toNat + m.textSize ≤ m.ramBase.toNat ∧ m.ramBase.toNat + m.ramSize ≤ m.stackBase.toNat ∧
  m.stackBase.toNat + m.stackSize ≤ m.eromBase.toNat ∧ m.eromBase.toNat + m.eromSize ≤ m.videoBase.toNat ∧
  m.videoBase.toNat + m.videoSize ≤ m.ioAddr.toNat

/-- The cause codes, in the order of rule R6. -/
def Config.codes (c : Config) : List Word :=
  [c.codeInt, c.codeIbus, c.codeDbus, c.codeOvf, c.codeSys, c.codeBrk]

/-- The value of the first bit past the code field of `cause`: the lowest bit of `CAUSE_INT_MASK` (spec/10_state.md R18),
and the end of the 32-bit register where the mask is zero (DEDUCED, note 22). -/
def Config.codeFieldEnd (c : Config) : Nat :=
  if c.causeIntMask = 0#32 then 2 ^ 32 else (c.causeIntMask &&& -c.causeIntMask).toNat

/-- A cause code that fits the code field: shifted left by `CAUSE_CODE_SHIFT`, none of its bits lost, it stands below
every bit of `CAUSE_INT_MASK` (R6 "does not reach `CAUSE_INT_MASK`", R18). -/
abbrev Config.codeFits (c : Config) (code : Word) : Prop :=
  code.toNat * 2 ^ c.causeCodeShift.val < c.codeFieldEnd

/-- The constraints rule R6 puts on the parameters: vectors that are multiples of 4, cause codes pairwise distinct that
fit the code field, and an ordered address map. R171's form, no bit of a shifted code in common with the mask, follows
(`shiftedCode_disjoint_intMask`). -/
abbrev Config.wf (c : Config) : Prop :=
  c.pcReset.toNat % 4 = 0 ∧ c.excVector.toNat % 4 = 0 ∧ c.breakVector.toNat % 4 = 0 ∧
  c.codes.Nodup ∧ (c.codes.all fun code => decide (c.codeFits code)) = true ∧ c.map.wf

/-- The address map of the model's own reference platform. Text and RAM are those of platform P0 (R47); the spec gives
P0 no number for the windows above them, and these are the model's: each buffer fills the space up to the next base, so
that every address has a meaning there. DESIGN CHOICE, unsafe: note 3. -/
def AddressMap.reference : AddressMap where
  textBase := 0x00000000#32
  textSize := 0x10000
  ramBase := 0x00010000#32
  ramSize := 0x10000
  stackBase := 0x00020000#32
  stackSize := 0x20000
  eromBase := 0x00040000#32
  eromSize := 0x10000
  videoBase := 0x00050000#32
  videoSize := 0xFFFAFFFC
  ioAddr := 0xFFFFFFFC#32

/-- Every register the spec gives no reset value resets to zero in `State.reset`. DESIGN CHOICE, unsafe: note 4. -/
def ResetValues.zero : ResetValues where
  gpr := Vector.replicate 31 0#32
  hi := 0#32
  lo := 0#32
  epc := 0#32
  cause := 0#32
  status := 0#32
  bvr := 0#32

/-- The parameter values of `State.reset`: those rule R6 suggests and platform P0 uses (R47) where there are some, the
model's own elsewhere. DESIGN CHOICE, unsafe: note 3. -/
def Config.reference : Config where
  pcReset := 0x00000000#32
  excVector := 0x00040000#32
  breakVector := 0x00008000#32
  causeCodeShift := 2
  causeIntMask := 0x0000FF00#32
  codeInt := 0#32
  codeIbus := 6#32
  codeDbus := 7#32
  codeOvf := 12#32
  codeSys := 8#32
  codeBrk := 9#32
  map := AddressMap.reference
  busErrors := []
  textWritable := true
  eromWritable := true
  videoWritable := true
  resetValues := ResetValues.zero

/-- FREE VALUE. `INTSTATE` at the `n`-th exception entry that finds no scripted sample (spec/60_exceptions.md R176,
U7 "any value"). Note 5. -/
opaque Config.freeIntState : Nat → Word

/-- FREE VALUE. The word the I/O stub presents to the `n`-th read that finds no scripted word (spec/20_memory.md R36,
U9 "possibly different at every read"). Note 6. -/
opaque Config.freeIoWord : Nat → Word

/-- FREE VALUE. What the host does in the `n`-th SYSCALL that finds no scripted reply: an unconstrained function of the
request and memory (R184, U11). Note 7. -/
opaque Config.freeSyscallReply : Nat → SyscallRequest → List Host.Cell → SyscallReply

end Sys2Proof
end

