-- ==== Sys2Proof/Machine/State.lean ====
section
/-! DEFINITION. The machine's state: the block's aggregate (spec/10_state.md R10), the platform's memory
(spec/20_memory.md R31), the platform's parameters (spec/00_scope.md R6) and the answers of the platform and the host
that a step can take; the ways a step can stop; the state after reset. Plain data throughout. -/

namespace Sys2Proof.Machine

/-- The bytes of the five buffers (R31), each under its address: the windows are disjoint (R31), so an address names one
byte of one buffer. Strictly rising addresses, no entry equal to `Memory.blank`. -/
abbrev Memory := List Host.Cell

/-- What a byte of a buffer reads as when nothing has written it. DESIGN CHOICE, unsafe: note 9. -/
def Memory.blank : Byte := 0#8

/-- The canonical form, so that equal memories are equal lists. -/
abbrev Memory.wf (m : Memory) : Prop :=
  m.Pairwise (fun c d => c.1 < d.1) ∧ ∀ c ∈ m, c.2 ≠ Memory.blank

/-- What the platform and the host answer to the block, and what the block has told them. The lists of inputs hold the
answers still to come, the next one first; when one is empty, the answer is a free value of Config numbered by how many
were taken. The block itself reads back none of the outputs. Model's own fields: notes 5, 6 and 7. -/
structure Env where
  /-- `INTSTATE` samples to come, one per exception entry (spec/60_exceptions.md R176). -/
  intStates : List Word
  /-- How many `INTSTATE` samples exception entries have taken. -/
  intStatesTaken : Nat
  /-- Words the I/O stub will present, one per read that touches it (spec/20_memory.md R36, U9). -/
  ioWords : List Word
  /-- How many such words have been taken. -/
  ioWordsTaken : Nat
  /-- Bytes stored to the I/O stub word, the newest first. -/
  ioWrites : List Host.Cell
  /-- The host's answers to SYSCALLs to come (R184). -/
  syscallReplies : List SyscallReply
  /-- What the host has received by `SyscallNotify`, the newest first (R184). -/
  syscallCalls : List SyscallRequest
  /-- The host suspended the machine inside a SYSCALL's call-out and has not resumed it, so that it may still deliver
  its result (R184, R189). Note 14. -/
  deliveryOpen : Bool
  deriving DecidableEq, Repr

/-- No scripted answers and nothing told yet. -/
def Env.fresh : Env where
  intStates := []
  intStatesTaken := 0
  ioWords := []
  ioWordsTaken := 0
  ioWrites := []
  syscallReplies := []
  syscallCalls := []
  deliveryOpen := false

/-- The state of the machine. The first eleven fields are the aggregate of rule R10; `x[0]` needs no storage (R11). -/
structure State where
  /-- `x[1..31]`: register `i` at position `i - 1` (R11). -/
  regs : Vector Word 31
  /-- The next-fetch address between steps, the instruction's own address during one (R14). -/
  pc : Word
  /-- R16 -/
  hi : Word
  /-- R16 -/
  lo : Word
  /-- R17 -/
  epc : Word
  /-- R18 -/
  cause : Word
  /-- R19 -/
  status : Word
  /-- R20 -/
  bvr : Word
  /-- `DIVERR` (R21) -/
  diverr : Bool
  /-- `ERRMODE` (R22) -/
  errmode : Bool
  /-- `SUSPENDED` (R23) -/
  suspended : Bool
  /-- The byte buffers (R31). -/
  mem : Memory
  /-- The platform's parameters (R6); no step changes them. -/
  cfg : Config
  /-- The platform's and the host's side of the interface. -/
  env : Env
  deriving DecidableEq, Repr

/-- The machine never stops with a fault: "the clock loop never throws for architecturally-defined fault conditions"
(spec/60_exceptions.md R170), every exception is a next state (R174), and what the spec gives no meaning is refused. So
this type is empty. -/
inductive Fault where
  deriving DecidableEq, Repr

/-- The reasons a step, an instruction or a host operation has no meaning. All are safe: the model stops where the
spec gives no outcome. -/
inductive Refusal where
  /-- Raised by `exec` for an instruction that has no meaning in the model yet (none is left). Safe. -/
  | notModelled (mnemonic : String)
  /-- Raised by the fetch when `pc[1:0] ≠ 0` (spec/10_state.md R15, spec/44_control.md R133, U4). Safe. -/
  | misalignedPc
  /-- Raised by the fetch when `pc` does not route to the active code region, which the platform is obliged to rule out
  (spec/20_memory.md R38, N35). Safe. Note 10. -/
  | fetchOutsideActiveRegion
  /-- Raised by the fetch when the word lies at or beyond the size of its region's buffer (R32, U8). Safe. -/
  | fetchBeyondBuffer
  /-- Raised by the fetch when the platform answers `BusError`; no fetch fault is defined (R38). Safe. Note 10. -/
  | fetchBusError
  /-- Raised by a load or store with a byte at or beyond the size of its region's buffer, where the platform does not
  answer `BusError` (R32, U8: "a model must refuse such an access rather than give it a value"). Safe. -/
  | accessBeyondBuffer
  /-- Raised by a host operation asked for when it is not legal (spec/60_exceptions.md R189). Safe. -/
  | hostOperationNotLegal
  /-- Raised by `Load` of a program with a word outside the text buffer or a data byte outside the RAM buffer: the
  operation writes text and RAM bytes only (R189, spec/70_reset_and_hazards.md R193), and an offset at or beyond a
  buffer's size has no meaning (U8). Safe. -/
  | programDoesNotFit
  /-- Raised by `Restore` of a record that is no snapshot of a machine with these bases: a byte at or beyond its region's
  recorded size, or recorded sizes whose windows are not disjoint (spec/20_memory.md R31). Safe. -/
  | snapshotDoesNotFit
  deriving DecidableEq, Repr

/-- The outcome of a step or an instruction. -/
abbrev Result := Host.Outcome State Fault Refusal

/-- `Reset(pc0?)` (spec/70_reset_and_hazards.md R190, spec/10_state.md R26) on a platform `cfg` whose buffers hold `mem`
and whose inputs are `env`; no result of an earlier SYSCALL is awaited any more. -/
def State.construct (cfg : Config) (pc0 : Option Word) (mem : Memory) (env : Env) : State where
  regs := cfg.resetValues.gpr
  pc := pc0.getD cfg.pcReset
  hi := cfg.resetValues.hi
  lo := cfg.resetValues.lo
  epc := cfg.resetValues.epc
  cause := cfg.resetValues.cause
  status := cfg.resetValues.status
  bvr := cfg.resetValues.bvr
  diverr := false
  errmode := false
  suspended := false
  mem := mem
  cfg := cfg
  env := { env with deliveryOpen := false }

/-- The machine right after reset: `pc = 0` and the three flags 0 as R26 says, every unspecified register at the value
of note 4, the platform of note 3, memory with nothing listed. -/
def State.reset : State :=
  State.construct Config.reference none [] Env.fresh

end Sys2Proof.Machine
end

