-- ==== Sys2Proof/Machine/Ops.lean ====
section
/-! DEFINITION. The operations every meaning is made of: registers, the address router, the access primitives
`MemRead` and `MemWrite`, `Fetch`, retiring an instruction, and taking an exception. The block has no instruction that
returns from an exception (spec/60_exceptions.md R182); the host operations that restore a state stand in
Machine/HostOps.lean. -/

namespace Sys2Proof.Machine

/-! ### General registers -/

/-- `x[i]`: register 0 reads as 0, whatever was written (spec/10_state.md R11). -/
def readReg (s : State) (i : RegIdx) : Word :=
  if h : i = 0#5 then 0#32
  else s.regs[i.toNat - 1]'(by have := i.isLt; omega)

/-- `x[i] <- v`: nothing happens for register 0 (R12). -/
def writeReg (s : State) (i : RegIdx) (v : Word) : State :=
  if h : i = 0#5 then s
  else { s with regs := s.regs.set (i.toNat - 1) v (by have := i.isLt; omega) }

/-! ### Retiring -/

/-- `pc <- u32(A + 4)` (spec/70_reset_and_hazards.md R196). -/
def retire (s : State) : State := { s with pc := nextAddr s.pc }

/-- `pc <- t` (spec/10_state.md R15). -/
def jumpTo (s : State) (t : Word) : State := { s with pc := t }

/-- Write a general register and retire. -/
def writeBack (s : State) (d : RegIdx) (v : Word) : State := retire (writeReg s d v)

/-- Write the HI/LO pair and retire (spec/42_muldiv_hilo.md R100). -/
def writeHiLo (s : State) (hi lo : Word) : State := retire { s with hi := hi, lo := lo }

/-- A branch: `pc <- T` when taken, `pc <- u32(A + 4)` otherwise (spec/44_control.md R120). -/
def branch (s : State) (taken : Bool) (imm : Imm16) : State :=
  if taken then jumpTo s (branchTarget s.pc imm) else retire s

/-! ### Exceptions -/

/-- The exceptions that perform entry (spec/60_exceptions.md R170). -/
inductive Exc where
  | interrupt | instructionBus | dataBus | overflow
  deriving DecidableEq, Repr

/-- The cause code of an exception (R171). -/
def Exc.code (c : Config) : Exc → Word
  | .interrupt => c.codeInt
  | .instructionBus => c.codeIbus
  | .dataBus => c.codeDbus
  | .overflow => c.codeOvf

/-- The `INTSTATE` sample an entry at `s` takes (R176): the next scripted one, else a free value (note 5). -/
def intState (e : Env) : Word := e.intStates.head?.getD (Config.freeIntState e.intStatesTaken)

/-- The environment once an entry has taken its sample. -/
def Env.takeIntState (e : Env) : Env :=
  { e with intStates := e.intStates.tail, intStatesTaken := e.intStatesTaken + 1 }

/-- `(CODE_E << CAUSE_CODE_SHIFT) | (INTSTATE & CAUSE_INT_MASK)` (R174, R176). -/
def causeValue (c : Config) (code intstate : Word) : Word :=
  (code <<< c.causeCodeShift.val) ||| (intstate &&& c.causeIntMask)

/-- Exception entry (R174): `raise E`, with `A` the `pc` of the state. -/
def raise (e : Exc) (s : State) : State :=
  { s with
    cause := causeValue s.cfg (e.code s.cfg) (intState s.env)
    status := s.status <<< 4
    epc := s.pc
    pc := s.cfg.excVector
    errmode := true
    env := s.env.takeIntState }

/-- Write an exact signed result to a register, or raise OVERFLOW and write nothing (spec/41_arith_logic.md R80). -/
def writeBackSigned (s : State) (d : RegIdx) (r : Int) : State :=
  if overflows r then raise .overflow s else writeBack s d (u32 r)

/-! ### Byte memory -/

/-- The byte at an address of a buffer. -/
def Memory.read : Memory → Nat → Byte
  | [], _ => Memory.blank
  | (k, b) :: m, a => if k = a then b else Memory.read m a

/-- Store a byte, keeping the canonical form. -/
def Memory.write : Memory → Nat → Byte → Memory
  | [], a, b => if b = Memory.blank then [] else [(a, b)]
  | (k, c) :: m, a, b =>
    if a < k then (if b = Memory.blank then (k, c) :: m else (a, b) :: (k, c) :: m)
    else if a = k then (if b = Memory.blank then m else (a, b) :: m)
    else (k, c) :: Memory.write m a b

/-! ### The address router -/

/-- `Route(a)`: the region and the offset in it (spec/20_memory.md R32). The I/O stub is one word, four bytes from
`IO_ADDR`, of which only those up to 0xFFFFFFFF exist: R6 puts neither a bound nor an alignment on `IO_ADDR`, and where
it lies above 0xFFFFFFFC the stub has fewer than four bytes and does not go on at address 0. The model's choice:
note 11. -/
def route (m : AddressMap) (a : Word) : Region × Nat :=
  if m.ioAddr.toNat ≤ a.toNat ∧ a.toNat < m.ioAddr.toNat + 4 then (.io, 0)
  else if m.videoBase.toNat ≤ a.toNat then (.video, a.toNat - m.videoBase.toNat)
  else if m.eromBase.toNat ≤ a.toNat then (.erom, a.toNat - m.eromBase.toNat)
  else if m.stackBase.toNat ≤ a.toNat then (.stack, a.toNat - m.stackBase.toNat)
  else if m.ramBase.toNat ≤ a.toNat then (.ram, a.toNat - m.ramBase.toNat)
  else if m.textBase.toNat ≤ a.toNat then (.text, a.toNat - m.textBase.toNat)
  else (.zero, 0)

/-- The size of a region's buffer; the I/O stub and the fallback have none (R31). -/
def bufferSize (m : AddressMap) : Region → Nat
  | .video => m.videoSize
  | .erom => m.eromSize
  | .stack => m.stackSize
  | .ram => m.ramSize
  | .text => m.textSize
  | .io => 0
  | .zero => 0

/-- Whether a store to the region changes its buffer (R37, R41, U12): RAM and stack always, the others as the platform
says. -/
def storesTo (c : Config) : Region → Bool
  | .video => c.videoWritable
  | .erom => c.eromWritable
  | .text => c.textWritable
  | .stack => true
  | .ram => true
  | .io => false
  | .zero => false

/-- The platform answers `BusError` to an access of this kind at `a` (R46). -/
def busErrorAt (c : Config) (k : AccessKind) (a : Word) : Bool :=
  c.busErrors.any fun r =>
    decide (r.first.toNat ≤ a.toNat) && decide (a.toNat ≤ r.last.toNat) &&
      (match k with
        | .read => r.onRead
        | .write => r.onWrite)

/-- What an access meets at one byte. -/
inductive ByteTarget where
  /-- a byte inside a region's buffer -/
  | buffer (r : Region)
  /-- byte `lane` of the I/O stub word, 0 the most significant -/
  | ioStub (lane : Nat)
  /-- below the lowest mapped base: reads 0, writes discarded, no `BusError` (R34) -/
  | fallback
  /-- the platform answers `BusError` -/
  | busError
  /-- an offset at or beyond the buffer's size: no meaning (R32, U8) -/
  | beyondBuffer
  deriving DecidableEq, Repr

/-- Route a byte and see what stands there (R32, R34, R46). -/
def byteTarget (c : Config) (k : AccessKind) (a : Word) : ByteTarget :=
  match route c.map a with
  | (.zero, _) => .fallback
  | (.io, _) => if busErrorAt c k a then .busError else .ioStub (a.toNat - c.map.ioAddr.toNat)
  | (r, offset) =>
    if busErrorAt c k a then .busError
    else if offset < bufferSize c.map r then .buffer r
    else .beyondBuffer

/-! ### The access primitives -/

/-- The `n` of `MemRead(a, n)` and `MemWrite(a, n, v)`: 1, 2 or 4 bytes (R36). -/
inductive AccessWidth where
  | byte | half | word
  deriving DecidableEq, Repr

/-- The addresses `u32(a + k)` of an access, the lowest `k` first (R36). -/
def accessAddrs (a : Word) : AccessWidth → List Word
  | .byte => [a]
  | .half => [a, a + 1#32]
  | .word => [a, a + 1#32, a + 2#32, a + 3#32]

/-- `MemRead(a, n)` or `MemWrite(a, n, v)` with `a` below the lowest mapped base: the fallback answers the whole access
(R34). For a write, and for the bytes of a wide access that lie above the base, the model's reading: note 12. -/
def fallsBack (c : Config) (a : Word) : Bool := decide ((route c.map a).1 = .zero)

/-- The addresses an access routes (R36, R37): all of its bytes, or none where the fallback answers it (R34). -/
def routedAddrs (c : Config) (a : Word) (n : AccessWidth) : List Word :=
  if fallsBack c a then [] else accessAddrs a n

/-- Whether an access as a whole can be made. -/
inductive AccessStatus where
  | ok | busError | beyondBuffer
  deriving DecidableEq, Repr

/-- `BusError` if the platform reports one for any of the bytes (R36, R37); otherwise no meaning if any byte lies beyond
its buffer (R32). -/
def accessStatus (c : Config) (k : AccessKind) (addrs : List Word) : AccessStatus :=
  if addrs.any fun a => decide (byteTarget c k a = .busError) then .busError
  else if addrs.any fun a => decide (byteTarget c k a = .beyondBuffer) then .beyondBuffer
  else .ok

/-- The word the I/O stub presents to the next read that touches it: scripted, else a free value (note 6). -/
def ioWord (e : Env) : Word := e.ioWords.head?.getD (Config.freeIoWord e.ioWordsTaken)

/-- The environment once a read has taken the stub's word. -/
def Env.takeIoWord (e : Env) : Env :=
  { e with ioWords := e.ioWords.tail, ioWordsTaken := e.ioWordsTaken + 1 }

/-- Byte `lane` of a word, 0 the most significant (big-endian, R35). -/
def laneByte (w : Word) (lane : Nat) : Byte := w.extractLsb' (8 * (3 - lane)) 8

/-- The byte the platform holds at `a` after routing (R36). Only asked where `accessStatus` is `ok`. -/
def heldByte (s : State) (a : Word) : Byte :=
  match byteTarget s.cfg .read a with
  | .buffer _ => s.mem.read a.toNat
  | .ioStub lane => laneByte (ioWord s.env) lane
  | .fallback => 0#8
  | .busError => 0#8
  | .beyondBuffer => 0#8

/-- The `8n`-bit number `{b_0, ..., b_(n-1)}` of the bytes held from `a`, in the low bits of a word (R36, big-endian
R35). -/
def heldValue (s : State) (a : Word) : AccessWidth → Word
  | .byte => (heldByte s a).zeroExtend 32
  | .half => (heldByte s a ++ heldByte s (a + 1#32)).zeroExtend 32
  | .word => heldByte s a ++ heldByte s (a + 1#32) ++ heldByte s (a + 2#32) ++ heldByte s (a + 3#32)

/-- The value of `MemRead(a, n)` where it is no `BusError`: the bytes held (R36), or 0 where the fallback answers (R34). -/
def readValue (s : State) (a : Word) (n : AccessWidth) : Word :=
  if fallsBack s.cfg a then 0#32 else heldValue s a n

/-- Some byte of the access is a byte of the I/O stub word. -/
def touchesIo (c : Config) (addrs : List Word) : Bool :=
  addrs.any fun a => decide ((route c.map a).1 = .io)

/-- What a read leaves behind: nothing, but that the I/O stub has presented its word (R36, R41). -/
def afterRead (s : State) (a : Word) (n : AccessWidth) : State :=
  if touchesIo s.cfg (routedAddrs s.cfg a n) then { s with env := s.env.takeIoWord } else s

/-- The bytes of the low `8n` bits of `v`, most significant first (R37). -/
def splitBytes (v : Word) : AccessWidth → List Byte
  | .byte => [v.extractLsb' 0 8]
  | .half => [v.extractLsb' 8 8, v.extractLsb' 0 8]
  | .word => [v.extractLsb' 24 8, v.extractLsb' 16 8, v.extractLsb' 8 8, v.extractLsb' 0 8]

/-- Store one byte after routing (R37): a buffer changes if the region takes stores; the I/O stub, a target without a
buffer (spec/90_conflicts.md C8), receives it; below the lowest base it is discarded (R34). -/
def storeByte (s : State) (a : Word) (b : Byte) : State :=
  match byteTarget s.cfg .write a with
  | .buffer r => if storesTo s.cfg r then { s with mem := s.mem.write a.toNat b } else s
  | .ioStub _ => { s with env := { s.env with ioWrites := (a.toNat, b) :: s.env.ioWrites } }
  | .fallback => s
  | .busError => s
  | .beyondBuffer => s

/-- Store bytes one after another. -/
def storeBytes (s : State) : List (Word × Byte) → State
  | [] => s
  | (a, b) :: rest => storeBytes (storeByte s a b) rest

/-- `MemWrite(a, n, v)` where it answers ok (R37); nothing is stored where the fallback answers (R34). -/
def afterWrite (s : State) (a : Word) (n : AccessWidth) (v : Word) : State :=
  storeBytes s ((routedAddrs s.cfg a n).zip (splitBytes v n))

/-- Data bus error (spec/45_load_store.md R149): `bvr <- EA`, then exception entry. -/
def raiseDataBus (ea : Word) (s : State) : State := raise .dataBus { s with bvr := ea }

/-- A load: `x[rt] <- widen(MemRead(EA, n)); pc <- u32(A + 4)`, or the data bus error (R140, R149). -/
def load (s : State) (rt : RegIdx) (ea : Word) (n : AccessWidth) (widen : Word → Word) : Result :=
  match accessStatus s.cfg .read (routedAddrs s.cfg ea n) with
  | .ok => .next (writeBack (afterRead s ea n) rt (widen (readValue s ea n)))
  | .busError => .next (raiseDataBus ea s)
  | .beyondBuffer => .refused .accessBeyondBuffer

/-- A store: `MemWrite(EA, n, v); pc <- u32(A + 4)`, or the data bus error (R140, R149). -/
def store (s : State) (ea : Word) (n : AccessWidth) (v : Word) : Result :=
  match accessStatus s.cfg .write (routedAddrs s.cfg ea n) with
  | .ok => .next (retire (afterWrite s ea n v))
  | .busError => .next (raiseDataBus ea s)
  | .beyondBuffer => .refused .accessBeyondBuffer

/-! ### Fetch -/

/-- The active code region: text, or the error-handler ROM in error mode (spec/10_state.md R22, R38). -/
def activeRegion (errmode : Bool) : Region := if errmode then .erom else .text

/-- `Fetch(ERRMODE, pc)` (R38): the word at `pc` through the router, where `pc` is a multiple of 4 (R15) and the word
lies in the active region, as the platform is obliged to arrange. -/
def fetch (s : State) : Except Refusal Word :=
  if s.pc.extractLsb' 0 2 ≠ 0#2 then .error .misalignedPc
  else if (accessAddrs s.pc .word).all fun a => decide ((route s.cfg.map a).1 = activeRegion s.errmode) then
    match accessStatus s.cfg .read (accessAddrs s.pc .word) with
    | .ok => .ok (heldValue s s.pc .word)
    | .busError => .error .fetchBusError
    | .beyondBuffer => .error .fetchBeyondBuffer
  else .error .fetchOutsideActiveRegion

/-! ### The host's side of a SYSCALL -/

/-- An address names a byte of one of the five buffers. -/
def inBuffer (m : AddressMap) (a : Nat) : Bool :=
  decide (a < 2 ^ 32) &&
    decide ((route m (BitVec.ofNat 32 a)).2 < bufferSize m (route m (BitVec.ofNat 32 a)).1)

/-- The host writes bytes of memory, into the buffers directly; an address that names no byte of a buffer changes
nothing (R184; note 7). -/
def hostWrites (map : AddressMap) : Memory → List Host.Cell → Memory
  | m, [] => m
  | m, (a, b) :: rest => hostWrites map (if inBuffer map a then m.write a b else m) rest

/-- What SYSCALL hands to the host (spec/46_system.md R155). -/
def syscallRequest (s : State) : SyscallRequest where
  code := readReg s 2#5
  a0 := readReg s 4#5
  a1 := readReg s 5#5
  a2 := readReg s 6#5
  a3 := readReg s 7#5

/-- What the host answers: the next scripted reply, else a free one (R184, U11; note 7). -/
def syscallReply (s : State) : SyscallReply :=
  s.env.syscallReplies.head?.getD (Config.freeSyscallReply s.env.syscallCalls.length (syscallRequest s) s.mem)

/-- The environment once the host has received the request `q` and answered `r`. A host that suspends may deliver its
result later (R184). -/
def Env.takeSyscall (e : Env) (q : SyscallRequest) (r : SyscallReply) : Env :=
  { e with
    syscallReplies := e.syscallReplies.tail
    syscallCalls := q :: e.syscallCalls
    deliveryOpen := r.suspend }

/-- The three things the host may do: write `x[2]`, write memory, set `SUSPENDED` (R184, decision D29). -/
def applyReply (s : State) (r : SyscallReply) : State :=
  let s := { s with mem := hostWrites s.cfg.map s.mem r.writes, suspended := s.suspended || r.suspend }
  match r.result with
  | some v => writeReg s 2#5 v
  | none => s

/-- `SyscallNotify(x[2], x[4], x[5], x[6], x[7])` (R184): it completes inside the step. -/
def syscallNotify (s : State) : State :=
  applyReply { s with env := s.env.takeSyscall (syscallRequest s) (syscallReply s) } (syscallReply s)

end Sys2Proof.Machine
end

