-- ==== Sys2Proof/Machine/Arith.lean ====
section
/-! DEFINITION. Arithmetic, logical and comparison instructions (spec/41_arith_logic.md R80 to R98). -/

namespace Sys2Proof.Machine

/-- ADD (R81) -/
def execAdd (rd rs rt : RegIdx) (s : State) : Result :=
  .next (writeBackSigned s rd (s32 (readReg s rs) + s32 (readReg s rt)))

/-- ADDU (R82) -/
def execAddu (rd rs rt : RegIdx) (s : State) : Result :=
  .next (writeBack s rd (readReg s rs + readReg s rt))

/-- SUB (R83) -/
def execSub (rd rs rt : RegIdx) (s : State) : Result :=
  .next (writeBackSigned s rd (s32 (readReg s rs) - s32 (readReg s rt)))

/-- SUBU (R84) -/
def execSubu (rd rs rt : RegIdx) (s : State) : Result :=
  .next (writeBack s rd (readReg s rs - readReg s rt))

/-- AND (R85) -/
def execAnd (rd rs rt : RegIdx) (s : State) : Result :=
  .next (writeBack s rd (readReg s rs &&& readReg s rt))

/-- OR (R86) -/
def execOr (rd rs rt : RegIdx) (s : State) : Result :=
  .next (writeBack s rd (readReg s rs ||| readReg s rt))

/-- XOR (R87) -/
def execXor (rd rs rt : RegIdx) (s : State) : Result :=
  .next (writeBack s rd (readReg s rs ^^^ readReg s rt))

/-- NOR (R88) -/
def execNor (rd rs rt : RegIdx) (s : State) : Result :=
  .next (writeBack s rd (~~~(readReg s rs ||| readReg s rt)))

/-- SLT (R89) -/
def execSlt (rd rs rt : RegIdx) (s : State) : Result :=
  .next (writeBack s rd (boolWord (ltSigned (readReg s rs) (readReg s rt))))

/-- SLTU (R90) -/
def execSltu (rd rs rt : RegIdx) (s : State) : Result :=
  .next (writeBack s rd (boolWord (ltUnsigned (readReg s rs) (readReg s rt))))

/-- ADDI (R91) -/
def execAddi (rt rs : RegIdx) (imm : Imm16) (s : State) : Result :=
  .next (writeBackSigned s rt (s32 (readReg s rs) + s32 (sext16 imm)))

/-- ADDIU (R92): sign-extended immediate, no overflow check -/
def execAddiu (rt rs : RegIdx) (imm : Imm16) (s : State) : Result :=
  .next (writeBack s rt (readReg s rs + sext16 imm))

/-- SLTI (R93) -/
def execSlti (rt rs : RegIdx) (imm : Imm16) (s : State) : Result :=
  .next (writeBack s rt (boolWord (ltSigned (readReg s rs) (sext16 imm))))

/-- SLTIU (R94): sign-extended immediate, unsigned comparison -/
def execSltiu (rt rs : RegIdx) (imm : Imm16) (s : State) : Result :=
  .next (writeBack s rt (boolWord (ltUnsigned (readReg s rs) (sext16 imm))))

/-- ANDI (R95) -/
def execAndi (rt rs : RegIdx) (imm : Imm16) (s : State) : Result :=
  .next (writeBack s rt (readReg s rs &&& zext16 imm))

/-- ORI (R96) -/
def execOri (rt rs : RegIdx) (imm : Imm16) (s : State) : Result :=
  .next (writeBack s rt (readReg s rs ||| zext16 imm))

/-- XORI (R97) -/
def execXori (rt rs : RegIdx) (imm : Imm16) (s : State) : Result :=
  .next (writeBack s rt (readReg s rs ^^^ zext16 imm))

/-- LUI (R98) -/
def execLui (rt : RegIdx) (imm : Imm16) (s : State) : Result :=
  .next (writeBack s rt (upperImm imm))

end Sys2Proof.Machine
end

