-- ==== Sys2Proof/Machine/Control.lean ====
section
/-! DEFINITION. Jumps and branches (spec/44_control.md R120 to R132). There is no delay slot (R120). A link is written
before the jump, from operands read first. -/

namespace Sys2Proof.Machine

/-- `x[d] <- u32(A + 4)` (R120). -/
def link (s : State) (d : RegIdx) : State := writeReg s d (nextAddr s.pc)

/-- The link register of JAL, BLTZAL and BGEZAL (spec/10_state.md R13). -/
def ra : RegIdx := 31#5

/-- JR (R121) -/
def execJr (rs : RegIdx) (s : State) : Result := .next (jumpTo s (readReg s rs))

/-- JALR (R122): the target is read before the link is written -/
def execJalr (rd rs : RegIdx) (s : State) : Result := .next (jumpTo (link s rd) (readReg s rs))

/-- BEQ (R123) -/
def execBeq (rs rt : RegIdx) (imm : Imm16) (s : State) : Result :=
  .next (branch s (decide (readReg s rs = readReg s rt)) imm)

/-- BNE (R124) -/
def execBne (rs rt : RegIdx) (imm : Imm16) (s : State) : Result :=
  .next (branch s (decide (readReg s rs ≠ readReg s rt)) imm)

/-- BLEZ (R125) -/
def execBlez (rs : RegIdx) (imm : Imm16) (s : State) : Result := .next (branch s (leZero (readReg s rs)) imm)

/-- BGTZ (R126) -/
def execBgtz (rs : RegIdx) (imm : Imm16) (s : State) : Result := .next (branch s (gtZero (readReg s rs)) imm)

/-- BLTZ (R127) -/
def execBltz (rs : RegIdx) (imm : Imm16) (s : State) : Result := .next (branch s (ltZero (readReg s rs)) imm)

/-- BGEZ (R128) -/
def execBgez (rs : RegIdx) (imm : Imm16) (s : State) : Result := .next (branch s (geZero (readReg s rs)) imm)

/-- BLTZAL (R129): the link is written whether or not the branch is taken -/
def execBltzal (rs : RegIdx) (imm : Imm16) (s : State) : Result :=
  .next (branch (link s ra) (ltZero (readReg s rs)) imm)

/-- BGEZAL (R130) -/
def execBgezal (rs : RegIdx) (imm : Imm16) (s : State) : Result :=
  .next (branch (link s ra) (geZero (readReg s rs)) imm)

/-- J (R131) -/
def execJ (addr : Addr26) (s : State) : Result := .next (jumpTo s (jumpTarget s.pc addr))

/-- JAL (R132) -/
def execJal (addr : Addr26) (s : State) : Result := .next (jumpTo (link s ra) (jumpTarget s.pc addr))

end Sys2Proof.Machine
end

