-- ==== Sys2Proof/Machine/LoadStore.lean ====
section
/-! DEFINITION. Loads and stores (spec/45_load_store.md R140 to R150). Any address may be accessed at any width, byte by
byte (spec/20_memory.md R39). -/

namespace Sys2Proof.Machine

/-- LB (R141) -/
def execLb (rt rs : RegIdx) (imm : Imm16) (s : State) : Result :=
  load s rt (effectiveAddress (readReg s rs) imm) .byte fun v => sext8 (v.extractLsb' 0 8)

/-- LBU (R142) -/
def execLbu (rt rs : RegIdx) (imm : Imm16) (s : State) : Result :=
  load s rt (effectiveAddress (readReg s rs) imm) .byte fun v => zext8 (v.extractLsb' 0 8)

/-- LH (R143) -/
def execLh (rt rs : RegIdx) (imm : Imm16) (s : State) : Result :=
  load s rt (effectiveAddress (readReg s rs) imm) .half fun v => sext16 (v.extractLsb' 0 16)

/-- LHU (R144) -/
def execLhu (rt rs : RegIdx) (imm : Imm16) (s : State) : Result :=
  load s rt (effectiveAddress (readReg s rs) imm) .half fun v => zext16 (v.extractLsb' 0 16)

/-- LW (R145) -/
def execLw (rt rs : RegIdx) (imm : Imm16) (s : State) : Result :=
  load s rt (effectiveAddress (readReg s rs) imm) .word fun v => v

/-- SB (R146) -/
def execSb (rt rs : RegIdx) (imm : Imm16) (s : State) : Result :=
  store s (effectiveAddress (readReg s rs) imm) .byte (readReg s rt)

/-- SH (R147) -/
def execSh (rt rs : RegIdx) (imm : Imm16) (s : State) : Result :=
  store s (effectiveAddress (readReg s rs) imm) .half (readReg s rt)

/-- SW (R148) -/
def execSw (rt rs : RegIdx) (imm : Imm16) (s : State) : Result :=
  store s (effectiveAddress (readReg s rs) imm) .word (readReg s rt)

end Sys2Proof.Machine
end

