-- ==== Sys2Proof/Machine/MulDiv.lean ====
section
/-! DEFINITION. Multiply, divide and the HI/LO moves (spec/42_muldiv_hilo.md R100 to R108). -/

namespace Sys2Proof.Machine

/-- `hi <- P[63:32]; lo <- P[31:0]` for the 64-bit pattern `P` of an exact product (R101, R102). -/
def writeProduct (s : State) (p : Int) : State :=
  writeHiLo s ((BitVec.ofInt 64 p).extractLsb' 32 32) ((BitVec.ofInt 64 p).extractLsb' 0 32)

/-- A zero divisor: `DIVERR <- 1`, `hi` and `lo` keep their values, no exception (R103, decision D7). -/
def divideByZero (s : State) : State := retire { s with diverr := true }

/-- MULT (R101) -/
def execMult (rs rt : RegIdx) (s : State) : Result :=
  .next (writeProduct s (s32 (readReg s rs) * s32 (readReg s rt)))

/-- MULTU (R102) -/
def execMultu (rs rt : RegIdx) (s : State) : Result :=
  .next (writeProduct s ((readReg s rs).toNat * (readReg s rt).toNat))

/-- DIV (R103): the quotient rounded toward zero to `lo`, the remainder to `hi` -/
def execDiv (rs rt : RegIdx) (s : State) : Result :=
  let a := s32 (readReg s rs)
  let b := s32 (readReg s rt)
  if b = 0 then .next (divideByZero s)
  else .next (writeHiLo s (u32 (a - a.tdiv b * b)) (u32 (a.tdiv b)))

/-- DIVU (R104) -/
def execDivu (rs rt : RegIdx) (s : State) : Result :=
  let a := (readReg s rs).toNat
  let b := (readReg s rt).toNat
  if b = 0 then .next (divideByZero s)
  else .next (writeHiLo s (u32 (a % b : Nat)) (u32 (a / b : Nat)))

/-- MFHI (R105) -/
def execMfhi (rd : RegIdx) (s : State) : Result := .next (writeBack s rd s.hi)

/-- MFLO (R106) -/
def execMflo (rd : RegIdx) (s : State) : Result := .next (writeBack s rd s.lo)

/-- MTHI (R107) -/
def execMthi (rs : RegIdx) (s : State) : Result := .next (writeHiLo s (readReg s rs) s.lo)

/-- MTLO (R108) -/
def execMtlo (rs : RegIdx) (s : State) : Result := .next (writeHiLo s s.hi (readReg s rs))

end Sys2Proof.Machine
end

