-- ==== Sys2Proof/Machine/Shift.lean ====
section
/-! DEFINITION. Shift instructions (spec/43_shift.md R110 to R117). -/

namespace Sys2Proof.Machine

/-- SLL (R111); the all-zero word is this instruction and the NOP (R117) -/
def execSll (rd rt : RegIdx) (shamt : Shamt) (s : State) : Result :=
  .next (writeBack s rd (shl (readReg s rt) shamt))

/-- SRL (R112) -/
def execSrl (rd rt : RegIdx) (shamt : Shamt) (s : State) : Result :=
  .next (writeBack s rd (shrl (readReg s rt) shamt))

/-- SRA (R113) -/
def execSra (rd rt : RegIdx) (shamt : Shamt) (s : State) : Result :=
  .next (writeBack s rd (shra (readReg s rt) shamt))

/-- SLLV (R114) -/
def execSllv (rd rt rs : RegIdx) (s : State) : Result :=
  .next (writeBack s rd (shl (readReg s rt) (shiftAmount (readReg s rs))))

/-- SRLV (R115) -/
def execSrlv (rd rt rs : RegIdx) (s : State) : Result :=
  .next (writeBack s rd (shrl (readReg s rt) (shiftAmount (readReg s rs))))

/-- SRAV (R116) -/
def execSrav (rd rt rs : RegIdx) (s : State) : Result :=
  .next (writeBack s rd (shra (readReg s rt) (shiftAmount (readReg s rs))))

end Sys2Proof.Machine
end

