-- ==== Sys2Proof/Machine/System.lean ====
section
/-! DEFINITION. SYSCALL, BREAK and the coprocessor no-ops (spec/46_system.md R155 to R157). -/

namespace Sys2Proof.Machine

/-- SYSCALL (R155): a call-out to the host inside the step, no exception register written; then `pc <- u32(A + 4)`,
whether or not the host suspends -/
def execSyscall (s : State) : Result := .next (retire (syscallNotify s))

/-- BREAK (R156): `epc <- A; pc <- BREAK_VECTOR` and nothing else -/
def execBreak (s : State) : Result := .next { s with epc := s.pc, pc := s.cfg.breakVector }

/-- COP0 (R157): a no-op -/
def execCop0 (s : State) : Result := .next (retire s)

/-- COP1 (R157): a no-op -/
def execCop1 (s : State) : Result := .next (retire s)

/-- COP2 (R157): a no-op -/
def execCop2 (s : State) : Result := .next (retire s)

/-- COP3 (R157): a no-op -/
def execCop3 (s : State) : Result := .next (retire s)

end Sys2Proof.Machine
end

