-- ==== Sys2Proof/Machine/Clock.lean ====
section
/-! DEFINITION. `Step()` (spec/70_reset_and_hazards.md R194), and the placing of a word where the next step fetches. -/

namespace Sys2Proof.Machine

/-- Execute a fetched word: the instruction it stands for, or the INSTRUCTION_BUS exception where it stands for none
(spec/46_system.md R158, R159). -/
def execWord (w : Word) (s : State) : Result :=
  match decodeWord w with
  | .ok i => exec i s
  | .error _ => .next (raise .instructionBus s)

/-- One clock: nothing while suspended; otherwise fetch, decode and execute one instruction (R194). -/
def clock (s : State) : Result :=
  if s.suspended then .next s
  else
    match fetch s with
    | .ok w => execWord w s
    | .error r => .refused r

/-- The lowest multiple of 4 that is not below the base of the active code region. -/
def activeBase (s : State) : Word :=
  let base := if s.errmode then s.cfg.map.eromBase else s.cfg.map.textBase
  BitVec.ofNat 32 ((base.toNat + 3) / 4 * 4)

/-- Put a word's four bytes into memory at an address, the most significant lowest (spec/40_codec.md R77). -/
def placeWord (m : Memory) (a w : Word) : Memory :=
  (((m.write a.toNat (laneByte w 0)).write (a + 1#32).toNat (laneByte w 1)).write (a + 2#32).toNat
    (laneByte w 2)).write (a + 3#32).toNat (laneByte w 3)

/-- A state that can fetch: resumed, and `pc` kept where it is if a word can be fetched there, else moved to the
start of the active code region on a platform that answers no `BusError`. -/
def makeFetchable (s : State) : State :=
  let s := { s with suspended := false, env := { s.env with deliveryOpen := false } }
  match fetch s with
  | .ok _ => s
  | .error _ => { s with pc := activeBase s, cfg := { s.cfg with busErrors := [] } }

/-- Place a word where the next clock fetches it. -/
def placeFetchWord (s : State) (w : Word) : State :=
  let s := makeFetchable s
  { s with mem := placeWord s.mem s.pc w }

end Sys2Proof.Machine
end

