-- ==== Sys2Proof/Machine/Step.lean ====
section
/-! DEFINITION. The machine's step and the host's way to place one instruction; both only call Machine/Clock.lean. -/

namespace Sys2Proof.Machine

/-- `Step()` (spec/70_reset_and_hazards.md R194). -/
def step (s : State) : Host.Outcome State Fault Refusal := clock s

/-- `s` with the instruction of bits `w` (bit 0 the least significant, the bits from `nbits` up 0) where `step` fetches
its next instruction. -/
def State.withFetchWord (s : State) (nbits w : Nat) : State :=
  placeFetchWord s (BitVec.ofNat 32 (w % 2 ^ nbits))

end Sys2Proof.Machine
end

