-- ==== Sys2Proof/Machine/HostOps.lean ====
section
/-! DEFINITION. The host's operations on the machine: the complete list of rule R189 of spec/60_exceptions.md, the
snapshot record (spec/10_state.md R28), and a run to completion (spec/70_reset_and_hazards.md R197). They act between
steps; what the host does inside a SYSCALL is `syscallNotify` in Machine/Ops.lean. -/

namespace Sys2Proof.Machine

/-! ### Addresses of a region -/

/-- The base address of a region's window; the fallback has none (R31). -/
def regionBase (m : AddressMap) : Region → Word
  | .io => m.ioAddr
  | .video => m.videoBase
  | .erom => m.eromBase
  | .stack => m.stackBase
  | .ram => m.ramBase
  | .text => m.textBase
  | .zero => 0#32

/-- The address of an offset of a region, the inverse of `Route` (R32). -/
def regionAddr (m : AddressMap) (r : Region) (offset : Nat) : Nat := (regionBase m r).toNat + offset

/-- An address names a byte of the buffer of `r`. -/
def inRegion (m : AddressMap) (r : Region) (a : Nat) : Bool :=
  inBuffer m a && decide ((route m (BitVec.ofNat 32 a)).1 = r)

/-! ### Snapshot and restore -/

/-- The content of one region: its size, and its bytes by offset, those that read as blank left out. -/
structure RegionImage where
  size : Nat
  bytes : List Host.Cell
  deriving DecidableEq, Repr

/-- The five buffers of a memory (R31): "each memory region as opaque encoded byte content" and the "memory size"
(R28). -/
structure MemoryImage where
  text : RegionImage
  ram : RegionImage
  stack : RegionImage
  erom : RegionImage
  video : RegionImage
  deriving DecidableEq, Repr

/-- The snapshot record (R28): every component of rule R10, the memory with its sizes, and whether the host still owes
the result of a SYSCALL that suspended the machine (R184; note 14). -/
structure Snapshot where
  regs : Vector Word 31
  pc : Word
  hi : Word
  lo : Word
  epc : Word
  cause : Word
  status : Word
  bvr : Word
  diverr : Bool
  errmode : Bool
  suspended : Bool
  memory : MemoryImage
  deliveryOpen : Bool
  deriving DecidableEq, Repr

/-- What a snapshot records of one region. -/
def regionImage (map : AddressMap) (m : Memory) (r : Region) : RegionImage where
  size := bufferSize map r
  bytes := (m.filter fun c => inRegion map r c.1).map fun c => ((route map (BitVec.ofNat 32 c.1)).2, c.2)

/-- What a snapshot records of memory. -/
def memoryImage (map : AddressMap) (m : Memory) : MemoryImage where
  text := regionImage map m .text
  ram := regionImage map m .ram
  stack := regionImage map m .stack
  erom := regionImage map m .erom
  video := regionImage map m .video

/-- An address map with the sizes a snapshot records; the bases, which are in no snapshot, stay. -/
def MemoryImage.resize (p : MemoryImage) (map : AddressMap) : AddressMap :=
  { map with
    textSize := p.text.size
    ramSize := p.ram.size
    stackSize := p.stack.size
    eromSize := p.erom.size
    videoSize := p.video.size }

/-- The recorded bytes of one region under their addresses. -/
def RegionImage.cells (p : RegionImage) (map : AddressMap) (r : Region) : List Host.Cell :=
  p.bytes.map fun c => (regionAddr map r c.1, c.2)

/-- The recorded bytes of all regions under their addresses. -/
def MemoryImage.cells (p : MemoryImage) (map : AddressMap) : List Host.Cell :=
  p.text.cells map .text ++ p.ram.cells map .ram ++ p.stack.cells map .stack ++ p.erom.cells map .erom ++
    p.video.cells map .video

/-- Every recorded byte lies below its region's recorded size. -/
def RegionImage.fits (p : RegionImage) : Bool := p.bytes.all fun c => decide (c.1 < p.size)

/-- The recorded memory can stand on these bases: every byte in its region, and the windows disjoint (R31). -/
def MemoryImage.fits (p : MemoryImage) (map : AddressMap) : Bool :=
  p.text.fits && p.ram.fits && p.stack.fits && p.erom.fits && p.video.fits && decide (p.resize map).wf

/-- `Snapshot()`: reads everything, changes nothing (R189). -/
def snapshot (s : State) : Snapshot where
  regs := s.regs
  pc := s.pc
  hi := s.hi
  lo := s.lo
  epc := s.epc
  cause := s.cause
  status := s.status
  bvr := s.bvr
  diverr := s.diverr
  errmode := s.errmode
  suspended := s.suspended
  memory := memoryImage s.cfg.map s.mem
  deliveryOpen := s.env.deliveryOpen

/-- `Restore(snapshot)`: the whole aggregate and memory, its sizes among them, become the recorded ones (R189). The
other parameters and the platform's answers are in no snapshot and stay. -/
def restore (p : Snapshot) (s : State) : Result :=
  if p.memory.fits s.cfg.map then
    .next { s with
      regs := p.regs
      pc := p.pc
      hi := p.hi
      lo := p.lo
      epc := p.epc
      cause := p.cause
      status := p.status
      bvr := p.bvr
      diverr := p.diverr
      errmode := p.errmode
      suspended := p.suspended
      mem := hostWrites (p.memory.resize s.cfg.map) [] (p.memory.cells s.cfg.map)
      cfg := { s.cfg with map := p.memory.resize s.cfg.map }
      env := { s.env with deliveryOpen := p.suspended && p.deliveryOpen } }
  else .refused .snapshotDoesNotFit

/-! ### Reset and program load -/

/-- `Reset(pc0?)` (spec/70_reset_and_hazards.md R190): the platform creates the buffers with the given contents. Their
sizes are those the machine has, so those a Restore brought where there was one, since the rule says only "with their
fixed sizes". The model's choice: note 14. -/
def resetMachine (pc0 : Option Word) (contents : List Host.Cell) (s : State) : State :=
  State.construct s.cfg pc0 (hostWrites s.cfg.map [] contents) s.env

/-- The initial content of a named data block, and its assigned offset in RAM (R193). -/
structure DataBlock where
  offset : Nat
  content : List Byte
  deriving DecidableEq, Repr

/-- What `Load` takes (R193): the instruction words, the address in the text region of the first one, the data blocks,
and whether the host sets `pc` to the first instruction or leaves it. The position is any address: the page size is not
in the source (N13; note 21). -/
structure Program where
  position : Word
  words : List Word
  data : List DataBlock
  setPc : Bool
  deriving DecidableEq, Repr

/-- Bytes at consecutive addresses from `a`. -/
def cellsFrom (a : Nat) : List Byte → List Host.Cell
  | [] => []
  | b :: rest => (a, b) :: cellsFrom (a + 1) rest

/-- The instruction stream: each word as four bytes, big-endian, at consecutive word addresses from the position
(R193; spec/40_codec.md R77). -/
def Program.textCells (p : Program) : List Host.Cell := cellsFrom p.position.toNat (p.words.flatMap bytesOfWord)

/-- The data blocks at their offsets in RAM, in the order given (R193). -/
def Program.dataCells (p : Program) (map : AddressMap) : List Host.Cell :=
  p.data.flatMap fun d => cellsFrom (regionAddr map .ram d.offset) d.content

/-- Every word lies in the text buffer and every data byte in the RAM buffer. -/
def Program.fits (p : Program) (map : AddressMap) : Bool :=
  (p.textCells.all fun c => inRegion map .text c.1) && (p.dataCells map).all fun c => inRegion map .ram c.1

/-- `Load(program)` (R189, R193): text and RAM bytes, and `pc` set or left. -/
def loadProgram (p : Program) (s : State) : Result :=
  if p.fits s.cfg.map then
    .next { s with
      mem := hostWrites s.cfg.map s.mem (p.textCells ++ p.dataCells s.cfg.map)
      pc := if p.setPc then p.position else s.pc }
  else .refused .programDoesNotFit

/-! ### Pause, resume, interrupt, delivery -/

/-- `Pause()` (spec/60_exceptions.md R186). -/
def pause (s : State) : State := { s with suspended := true }

/-- `Resume()` (R186): after it no result of an earlier SYSCALL can be delivered (R184). -/
def resume (s : State) : State := { s with suspended := false, env := { s.env with deliveryOpen := false } }

/-- `Interrupt()` (R180): legal only while `SUSPENDED = 0`; no gating. -/
def interrupt (s : State) : Result :=
  if s.suspended then .refused .hostOperationNotLegal else .next (raise .interrupt s)

/-- Syscall result delivery (R184, R189): `x[2]` and memory, legal while the machine is suspended by the host of a
SYSCALL that has not resumed it. Note 14. -/
def deliver (result : Option Word) (writes : List Host.Cell) (s : State) : Result :=
  if s.suspended && s.env.deliveryOpen then
    .next (applyReply s { result := result, writes := writes, suspend := false })
  else .refused .hostOperationNotLegal

/-- The operations that can change the state between steps (R189). -/
inductive HostOp where
  | reset (pc0 : Option Word) (contents : List Host.Cell)
  | load (program : Program)
  | step
  | pause
  | resume
  | interrupt
  | deliver (result : Option Word) (writes : List Host.Cell)
  | restore (p : Snapshot)
  deriving DecidableEq, Repr

/-- What an operation does (R189). -/
def perform (o : HostOp) (s : State) : Result :=
  match o with
  | .reset pc0 contents => .next (resetMachine pc0 contents s)
  | .load program => loadProgram program s
  | .step => step s
  | .pause => .next (pause s)
  | .resume => .next (resume s)
  | .interrupt => interrupt s
  | .deliver result writes => deliver result writes s
  | .restore p => restore p s

/-! ### A run to completion -/

/-- How a run of the host's loop ends (R197). -/
inductive RunEnd where
  /-- The host was asked for the terminate service: "the machine reports stopped". -/
  | stopped (s : State)
  /-- The steps allowed were used up. -/
  | outOfSteps (s : State)
  /-- A step has no meaning. -/
  | refused (r : Refusal)
  deriving DecidableEq, Repr

/-- The step from `s` to `t` was a SYSCALL that asked for the terminate service, code 10 (R184, R197): it put that
request, and no other step puts any, in front of what the host had received before. -/
def reportsTerminate (s t : State) : Bool :=
  match t.env.syscallCalls with
  | q :: earlier => decide (earlier = s.env.syscallCalls) && decide (q.code = 10#32)
  | [] => false

/-- Run to completion, at most `n` steps: iterate `Step` until `SyscallNotify` reports terminate in this run (R197). A
run begun after a terminate goes on with the word after the SYSCALL. -/
def runProgram : Nat → State → RunEnd
  | 0, s => .outOfSteps s
  | n + 1, s =>
    match step s with
    | .next t => if reportsTerminate s t then .stopped t else runProgram n t
    | .fault f => nomatch f
    | .refused r => .refused r

end Sys2Proof.Machine
end

