-- ==== Sys2Proof/Safety.lean ====
section
/-! DEFINITION. The terms the claims use: what an instruction leaves unchanged, what retiring and entering an exception
look like from outside (through the reads of a register and of a byte of memory), the invariant of a state, and the
states a machine can reach. -/

namespace Sys2Proof.Machine

/-! ### What stays the same -/

/-- Every general register. -/
def SameRegs (s t : State) : Prop := ∀ i, readReg t i = readReg s i

/-- Every general register but `d`. -/
def SameRegsBut (s t : State) (d : RegIdx) : Prop := ∀ i, i ≠ d → readReg t i = readReg s i

/-- `hi` and `lo`. -/
def SameHiLo (s t : State) : Prop := t.hi = s.hi ∧ t.lo = s.lo

/-- The exception registers. -/
def SameExcRegs (s t : State) : Prop :=
  t.epc = s.epc ∧ t.cause = s.cause ∧ t.status = s.status ∧ t.bvr = s.bvr

/-- The three one-bit flags. -/
def SameFlags (s t : State) : Prop :=
  t.diverr = s.diverr ∧ t.errmode = s.errmode ∧ t.suspended = s.suspended

/-- Every byte of every buffer. -/
def SameMem (s t : State) : Prop := ∀ a, t.mem.read a = s.mem.read a

/-- The platform's parameters, and its and the host's side of the interface. -/
def SamePlatform (s t : State) : Prop := t.cfg = s.cfg ∧ t.env = s.env

/-- A store to `a` changes the byte at `a`: it is a byte of a buffer that takes stores (R37). -/
def takesStore (c : Config) (a : Word) : Bool :=
  match byteTarget c .write a with
  | .buffer r => storesTo c r
  | .ioStub _ => false
  | .fallback => false
  | .busError => false
  | .beyondBuffer => false

/-- What stored bytes hand to the I/O stub: those whose address routes to it, the newest first (notes 6 and 11). -/
def stubWrites (c : Config) (cells : List (Word × Byte)) : List Host.Cell :=
  ((cells.filter fun p => decide ((route c.map p.1).1 = .io)).map fun p => (p.1.toNat, p.2)).reverse

/-! ### The shapes of a next state -/

/-- `t` is `s` with `v` in register `d` (nothing written for register 0, which reads 0) and `pc` at the next
instruction; all else unchanged. -/
structure RetiresWriting (s t : State) (d : RegIdx) (v : Word) : Prop where
  result : readReg t d = if d = 0#5 then 0#32 else v
  others : SameRegsBut s t d
  pc : t.pc = s.pc + 4#32
  hilo : SameHiLo s t
  exc : SameExcRegs s t
  flags : SameFlags s t
  mem : SameMem s t
  platform : SamePlatform s t

/-- `t` is `s` with the HI/LO pair replaced and `pc` at the next instruction; all else unchanged. -/
structure RetiresHiLo (s t : State) (hi lo : Word) : Prop where
  hi : t.hi = hi
  lo : t.lo = lo
  regs : SameRegs s t
  pc : t.pc = s.pc + 4#32
  exc : SameExcRegs s t
  flags : SameFlags s t
  mem : SameMem s t
  platform : SamePlatform s t

/-- `t` is `s` with `pc` at `target`; all else unchanged. -/
structure GoesTo (s t : State) (target : Word) : Prop where
  pc : t.pc = target
  regs : SameRegs s t
  hilo : SameHiLo s t
  exc : SameExcRegs s t
  flags : SameFlags s t
  mem : SameMem s t
  platform : SamePlatform s t

/-- `t` is `s` with the return address `s.pc + 4` in register `d` (nothing written for register 0) and `pc` at
`target`; all else unchanged. -/
structure LinksAndGoesTo (s t : State) (d : RegIdx) (target : Word) : Prop where
  link : readReg t d = if d = 0#5 then 0#32 else s.pc + 4#32
  others : SameRegsBut s t d
  pc : t.pc = target
  hilo : SameHiLo s t
  exc : SameExcRegs s t
  flags : SameFlags s t
  mem : SameMem s t
  platform : SamePlatform s t

/-- `t` is `s` with `v` loaded into register `d` (nothing written for register 0) and `pc` at the next instruction; all
else unchanged, but that an access which touches the I/O stub has taken one of its words. -/
structure RetiresLoading (s t : State) (ea : Word) (n : AccessWidth) (d : RegIdx) (v : Word) : Prop where
  result : readReg t d = if d = 0#5 then 0#32 else v
  others : SameRegsBut s t d
  pc : t.pc = s.pc + 4#32
  hilo : SameHiLo s t
  exc : SameExcRegs s t
  flags : SameFlags s t
  mem : SameMem s t
  cfg : t.cfg = s.cfg
  env : t.env = if touchesIo s.cfg (routedAddrs s.cfg ea n) then s.env.takeIoWord else s.env

/-- `t` is `s` with bytes stored at the addresses listed, where a store changes the byte (`takesStore`), and `pc` at the
next instruction; every other byte and all else unchanged, but that the I/O stub has received the bytes stored to it
(`stubWrites`). -/
structure RetiresStoring (s t : State) (cells : List (Word × Byte)) : Prop where
  stored : ∀ a b, (a, b) ∈ cells →
    t.mem.read a.toNat = if takesStore s.cfg a then b else s.mem.read a.toNat
  outside : ∀ x : Nat, (∀ a b, (a, b) ∈ cells → x ≠ a.toNat) → t.mem.read x = s.mem.read x
  pc : t.pc = s.pc + 4#32
  regs : SameRegs s t
  hilo : SameHiLo s t
  exc : SameExcRegs s t
  flags : SameFlags s t
  cfg : t.cfg = s.cfg
  env : t.env = { s.env with ioWrites := stubWrites s.cfg cells ++ s.env.ioWrites }

/-- Exception entry from `s` with a cause code, `bvr` apart (spec/60_exceptions.md R174): the five writes, and nothing
else but that one sample of `INTSTATE` has been taken. -/
structure EntersException (s t : State) (code : Word) : Prop where
  cause : t.cause = (code <<< s.cfg.causeCodeShift.val) ||| (intState s.env &&& s.cfg.causeIntMask)
  status : t.status.toNat = s.status.toNat * 16 % 2 ^ 32
  epc : t.epc = s.pc
  pc : t.pc = s.cfg.excVector
  errmode : t.errmode = true
  regs : SameRegs s t
  hilo : SameHiLo s t
  diverr : t.diverr = s.diverr
  suspended : t.suspended = s.suspended
  mem : SameMem s t
  cfg : t.cfg = s.cfg
  env : t.env = s.env.takeIntState

/-! ### Where instructions run -/

/-- The word at `pc` can be fetched (spec/20_memory.md R38): `pc` is a multiple of 4 and its four bytes are bytes of the
active region's buffer at which the platform answers no `BusError`. -/
def Fetchable (s : State) : Prop :=
  s.pc.toNat % 4 = 0 ∧
  ∀ k, k < 4 → byteTarget s.cfg .read (s.pc + BitVec.ofNat 32 k) = .buffer (activeRegion s.errmode)

/-- The four bytes at `pc`, the lowest address in the highest bits (R35). -/
def wordAtPc (s : State) : Word :=
  wordOfBytes (s.mem.read s.pc.toNat) (s.mem.read (s.pc + 1#32).toNat) (s.mem.read (s.pc + 2#32).toNat)
    (s.mem.read (s.pc + 3#32).toNat)

/-- Every byte an access routes can be accessed: none answers `BusError`, none lies beyond its buffer. -/
def Accessible (c : Config) (k : AccessKind) (ea : Word) (n : AccessWidth) : Prop :=
  ∀ a ∈ routedAddrs c ea n, byteTarget c k a ≠ .busError ∧ byteTarget c k a ≠ .beyondBuffer

/-- The access a load or store makes at a state: its kind, effective address and width (spec/45_load_store.md R140). -/
def memoryAccess (i : Instr) (s : State) : Option (AccessKind × Word × AccessWidth) :=
  match i with
  | .lb _ rs imm => some (.read, readReg s rs + imm.signExtend 32, .byte)
  | .lbu _ rs imm => some (.read, readReg s rs + imm.signExtend 32, .byte)
  | .lh _ rs imm => some (.read, readReg s rs + imm.signExtend 32, .half)
  | .lhu _ rs imm => some (.read, readReg s rs + imm.signExtend 32, .half)
  | .lw _ rs imm => some (.read, readReg s rs + imm.signExtend 32, .word)
  | .sb _ rs imm => some (.write, readReg s rs + imm.signExtend 32, .byte)
  | .sh _ rs imm => some (.write, readReg s rs + imm.signExtend 32, .half)
  | .sw _ rs imm => some (.write, readReg s rs + imm.signExtend 32, .word)
  | _ => none

/-! ### The invariant and the reachable states -/

/-- What every state of the machine satisfies: memory in canonical form, every listed byte a byte of a buffer,
parameters that meet rule R6 (under a mask of zero, as note 22 reads it), and a result of a SYSCALL awaited only while
suspended (R184). -/
structure State.Inv (s : State) : Prop where
  memWf : s.mem.wf
  memBacked : ∀ c ∈ s.mem, inBuffer s.cfg.map c.1 = true
  cfgWf : s.cfg.wf
  delivery : s.env.deliveryOpen = true → s.suspended = true

/-- The states of a machine constructed on any platform that meets rule R6, under any host operations (R189). -/
inductive Reachable : State → Prop where
  | construct (cfg : Config) (pc0 : Option Word) (contents : List Host.Cell) (env : Env) (h : cfg.wf) :
      Reachable (State.construct cfg pc0 (hostWrites cfg.map [] contents) env)
  | perform (o : HostOp) (s t : State) (hs : Reachable s) (h : perform o s = .next t) : Reachable t

end Sys2Proof.Machine
end

