-- ==== Sys2Proof/Certificates/Slice0/Obligations.lean ====
section
/-! DEFINITION. The statements for the provers, in the order of OBLIGATIONS.json. -/

open Sys2Proof Sys2Proof.Machine

/-! ### The codec, decoding and the step -/

/-- R194, R38: a step at a state that is not suspended and fetchable (`pc` a multiple of 4, its four bytes bytes of the
active region's buffer at which the platform answers no `BusError`) and whose word decodes runs exactly that
instruction. -/
def Obligations.StepRunsDecodedInstruction : Prop :=
  ∀ (s : State) (i : Instr), s.suspended = false → Fetchable s → decodeWord (wordAtPc s) = .ok i →
    step s = exec i s

/-- R158, R159: a fetched word that is no instruction takes the INSTRUCTION_BUS exception, `bvr` unchanged. -/
def Obligations.UndecodedWordTakesInstructionBus : Prop :=
  ∀ (s : State) (e : DecodeError), s.suspended = false → Fetchable s → decodeWord (wordAtPc s) = .error e →
    ∃ t, step s = .next t ∧ EntersException s t s.cfg.codeIbus ∧ t.bvr = s.bvr

/-- Decoding an instruction's word gives the instruction back, whatever its operands. -/
def Obligations.DecodeInvertsEncode : Prop :=
  ∀ i : Instr, decodeWord (encode i) = .ok i

/-- A word decodes to an instruction of a row of the opcode table exactly where the row's mask and pattern select it. -/
def Obligations.WordDecodesToItsTableRow : Prop :=
  ∀ (w : Word) (j : Instr),
    (∃ i, decodeWord w = .ok i ∧ i.row = j.row) ↔ w &&& j.row.mask = j.row.pattern

/-- R55, R63: every operand bit of the instruction a word decodes to is the word's own bit. -/
def Obligations.OperandsAreTheWordsFields : Prop :=
  ∀ (w : Word) (i : Instr), decodeWord w = .ok i → encode i &&& i.operandMask = w &&& i.operandMask

/-- R61: the words that are no instruction are exactly the listed ones. -/
def Obligations.ReservedWordsAreExactlyTheListed : Prop :=
  ∀ w : Word,
    (∃ e, decodeWord w = .error e) ↔
      (let opcode := (w >>> 26).toNat
       let rs := (w >>> 21).toNat % 32
       let rt := (w >>> 16).toNat % 32
       let sa := (w >>> 6).toNat % 32
       let f := w.toNat % 64
       (opcode ∈ [0x14, 0x15, 0x16, 0x17, 0x18, 0x19, 0x1A, 0x1B, 0x1C, 0x1D, 0x1E, 0x1F, 0x22, 0x26, 0x27, 0x2A] ∨
          0x2C ≤ opcode) ∨
       (opcode = 0 ∧ f < 32 ∧
         (f ∈ [0x01, 0x05, 0x0A, 0x0B, 0x0E, 0x0F, 0x14, 0x15, 0x16, 0x17, 0x1C, 0x1D, 0x1E, 0x1F] ∨
          (f ∈ [0x04, 0x06, 0x07] ∧ sa ≠ 0) ∨
          (f ∈ [0x10, 0x12] ∧ (rs ≠ 0 ∨ rt ≠ 0)))) ∨
       (opcode = 1 ∧ rt ∉ [0x00, 0x01, 0x10, 0x11]))

/-- R74: `UNPACK(PACK(r)) = r` for every record whose shape its opcode selects, and `PACK(UNPACK(w)) = w` for every
word. -/
def Obligations.UnpackAndPackAreInverse : Prop :=
  (∀ r : Record, r.wellFormed = true → unpack (pack r) = r) ∧ ∀ w : Word, pack (unpack w) = w

/-- R73: `PACK` reduces each field to its own width and leaves the neighbouring fields alone, whatever integers are
given. -/
def Obligations.PackTruncatesEachFieldAlone : Prop :=
  (∀ opcode rs rt rd shamt funct : Int,
    ∃ w, packRaw (.r (some opcode) (some rs) (some rt) (some rd) (some shamt) (some funct)) = some w ∧
      ((w.toNat / 2 ^ 26 : Nat) : Int) = opcode % 64 ∧ ((w.toNat / 2 ^ 21 % 32 : Nat) : Int) = rs % 32 ∧
      ((w.toNat / 2 ^ 16 % 32 : Nat) : Int) = rt % 32 ∧ ((w.toNat / 2 ^ 11 % 32 : Nat) : Int) = rd % 32 ∧
      ((w.toNat / 2 ^ 6 % 32 : Nat) : Int) = shamt % 32 ∧ ((w.toNat % 64 : Nat) : Int) = funct % 64) ∧
  (∀ opcode rs rt imm : Int,
    ∃ w, packRaw (.i (some opcode) (some rs) (some rt) (some imm)) = some w ∧
      ((w.toNat / 2 ^ 26 : Nat) : Int) = opcode % 64 ∧ ((w.toNat / 2 ^ 21 % 32 : Nat) : Int) = rs % 32 ∧
      ((w.toNat / 2 ^ 16 % 32 : Nat) : Int) = rt % 32 ∧ ((w.toNat % 2 ^ 16 : Nat) : Int) = imm % 2 ^ 16) ∧
  (∀ opcode addr : Int,
    ∃ w, packRaw (.j (some opcode) (some addr)) = some w ∧
      ((w.toNat / 2 ^ 26 : Nat) : Int) = opcode % 64 ∧ ((w.toNat % 2 ^ 26 : Nat) : Int) = addr % 2 ^ 26)

/-- R75, R73: `PACK` has a result exactly for the valid records, and `UNPACK` produces valid records. That `PACK` itself
refuses no valid record, whatever its shape, is the model's reading of R73 beside the entry U2, which lists a shape
mismatch among the refused records, and so is that the mismatch is judged by the 6 bits the opcode packs to (note 8). The
checked call refuses exactly the records U2 lists, and what it packs `UNPACK` gives back in the same shape, field for
field where the fields fit. -/
def Obligations.PackIsDefinedExactlyOnValidRecords : Prop :=
  (∀ r : RawRecord, packRaw r = none ↔ r.isValid = false) ∧ (∀ w : Word, (unpack w).toRaw.isValid = true) ∧
  (∀ r : RawRecord, packChecked r = none ↔ r.isValid = false ∨ r.shapeAgrees = false) ∧
  ∀ (r : RawRecord) (w : Word), packChecked r = some w →
    (unpack w).toRaw.format = r.format ∧ (r.fieldsFit = true → (unpack w).toRaw = r)

/-- R76, R77: four bytes in big-endian order make the word, bytes beyond are ignored, a shorter buffer is an error, and
a word's bytes read back as the word. -/
def Obligations.CodecReadsFourBigEndianBytes : Prop :=
  (∀ (b0 b1 b2 b3 : Byte) (rest : List Byte),
    ∃ w : Word, unpackBytes (b0 :: b1 :: b2 :: b3 :: rest) = .ok (unpack w) ∧
      w.toNat = ((b0.toNat * 256 + b1.toNat) * 256 + b2.toNat) * 256 + b3.toNat) ∧
  (∀ l : List Byte, l.length < 4 → unpackBytes l = .error .shortBuffer) ∧
  (∀ (w : Word) (rest : List Byte), unpackBytes (bytesOfWord w ++ rest) = .ok (unpack w))

/-- Words written out from the spec's encodings decode to the instructions they stand for. -/
def Obligations.SampleWordsDecode : Prop :=
  decodeWord 0x01095020#32 = .ok (.add 10#5 8#5 9#5) ∧ decodeWord 0x00095103#32 = .ok (.sra 10#5 9#5 4#5) ∧
  decodeWord 0x0109001A#32 = .ok (.div 8#5 9#5) ∧ decodeWord 0x0100F809#32 = .ok (.jalr 31#5 8#5) ∧
  decodeWord 0x05110002#32 = .ok (.bgezal 8#5 2#16) ∧ decodeWord 0x0C000010#32 = .ok (.jal 0x10#26) ∧
  decodeWord 0xAD09FFFC#32 = .ok (.sw 9#5 8#5 0xFFFC#16) ∧ decodeWord 0x03FFFFCC#32 = .ok .syscall ∧
  decodeWord 0x42000010#32 = .ok .cop0

/-- R117: the all-zero word is R with every field 0, dispatches to SLL, and is the machine's NOP. -/
def Obligations.ZeroWordOnlyAdvancesPc : Prop :=
  unpack 0#32 = .r 0#6 0#5 0#5 0#5 0#5 0#6 ∧ decodeWord 0#32 = .ok (.sll 0#5 0#5 0#5) ∧
  ∀ s : State, s.suspended = false → Fetchable s → wordAtPc s = 0#32 →
    ∃ t, step s = .next t ∧ GoesTo s t (s.pc + 4#32)

/-- R186, R194: a step requested while suspended changes nothing. -/
def Obligations.SuspendedStepChangesNothing : Prop :=
  ∀ s : State, s.suspended = true → step s = .next s

/-- R133, U4: a step that starts with `pc[1:0] ≠ 0` is refused. -/
def Obligations.MisalignedPcIsRefused : Prop :=
  ∀ s : State, s.suspended = false → s.pc.toNat % 4 ≠ 0 → step s = .refused .misalignedPc

/-- R204, R170: a fetchable state always has a next state, but for a load or store with a byte beyond its buffer. -/
def Obligations.StepCompletesUnlessAccessBeyondBuffer : Prop :=
  ∀ s : State, Fetchable s →
    (∀ i k ea n, decodeWord (wordAtPc s) = .ok i → memoryAccess i s = some (k, ea, n) →
      ∀ a ∈ routedAddrs s.cfg ea n, byteTarget s.cfg k a ≠ .beyondBuffer) →
    ∃ t, step s = .next t

/-! ### General registers -/

/-- R12, R11: a register reads as last written; register 0 reads 0 and ignores writes. -/
def Obligations.RegisterReadsLastWriteAndZeroStaysZero : Prop :=
  ∀ (s : State) (d i : RegIdx) (v : Word),
    readReg (writeReg s d v) i = (if i = 0#5 then 0#32 else if i = d then v else readReg s i) ∧
    (d = 0#5 → writeReg s d v = s)

/-! ### Arithmetic, logic, comparison -/

/-- R81, R83, R91 (with R80, R173, R174): ADD, SUB and ADDI write the exact signed result where it fits 32 bits; where it
does not, they take OVERFLOW and write no register, whatever the destination (register 0 included). -/
def Obligations.SignedAddSubWriteOrRaise : Prop :=
  ∀ (s : State) (rd rs rt : RegIdx) (imm : Imm16),
    let fits := fun r : Int => -2147483648 ≤ r ∧ r ≤ 2147483647
    let raises := fun t : State => EntersException s t s.cfg.codeOvf ∧ t.bvr = s.bvr
    let x := readReg s rs
    let y := readReg s rt
    (∃ t, exec (.add rd rs rt) s = .next t ∧
      (fits (x.toInt + y.toInt) → RetiresWriting s t rd (x + y)) ∧ (¬fits (x.toInt + y.toInt) → raises t)) ∧
    (∃ t, exec (.sub rd rs rt) s = .next t ∧
      (fits (x.toInt - y.toInt) → RetiresWriting s t rd (x - y)) ∧ (¬fits (x.toInt - y.toInt) → raises t)) ∧
    (∃ t, exec (.addi rt rs imm) s = .next t ∧
      (fits (x.toInt + imm.toInt) → RetiresWriting s t rt (x + imm.signExtend 32)) ∧
      (¬fits (x.toInt + imm.toInt) → raises t))

/-- R82, R84, R92: ADDU, SUBU and ADDIU write the result modulo 2^32 and never raise. -/
def Obligations.UnsignedAddSubWrap : Prop :=
  ∀ (s : State) (rd rs rt : RegIdx) (imm : Imm16),
    (∃ t v, exec (.addu rd rs rt) s = .next t ∧ RetiresWriting s t rd v ∧
      v.toNat = ((readReg s rs).toNat + (readReg s rt).toNat) % 2 ^ 32) ∧
    (∃ t v, exec (.subu rd rs rt) s = .next t ∧ RetiresWriting s t rd v ∧
      (v.toNat : Int) = (((readReg s rs).toNat : Int) - (readReg s rt).toNat) % 2 ^ 32) ∧
    (∃ t v, exec (.addiu rt rs imm) s = .next t ∧ RetiresWriting s t rt v ∧
      (v.toNat : Int) = (((readReg s rs).toNat : Int) + imm.toInt) % 2 ^ 32)

/-- R85 to R88, R95 to R98: the logical instructions bit by bit; ANDI, ORI and XORI extend the immediate with zeros, LUI
puts it above sixteen zeros. -/
def Obligations.LogicalResultsBitByBit : Prop :=
  ∀ (s : State) (rd rs rt : RegIdx) (imm : Imm16),
    (∃ t v, exec (.and rd rs rt) s = .next t ∧ RetiresWriting s t rd v ∧
      ∀ k, k < 32 → v.getLsbD k = ((readReg s rs).getLsbD k && (readReg s rt).getLsbD k)) ∧
    (∃ t v, exec (.or rd rs rt) s = .next t ∧ RetiresWriting s t rd v ∧
      ∀ k, k < 32 → v.getLsbD k = ((readReg s rs).getLsbD k || (readReg s rt).getLsbD k)) ∧
    (∃ t v, exec (.xor rd rs rt) s = .next t ∧ RetiresWriting s t rd v ∧
      ∀ k, k < 32 → v.getLsbD k = ((readReg s rs).getLsbD k ^^ (readReg s rt).getLsbD k)) ∧
    (∃ t v, exec (.nor rd rs rt) s = .next t ∧ RetiresWriting s t rd v ∧
      ∀ k, k < 32 → v.getLsbD k = !((readReg s rs).getLsbD k || (readReg s rt).getLsbD k)) ∧
    (∃ t v, exec (.andi rt rs imm) s = .next t ∧ RetiresWriting s t rt v ∧
      ∀ k, k < 32 → v.getLsbD k = (decide (k < 16) && (readReg s rs).getLsbD k && imm.getLsbD k)) ∧
    (∃ t v, exec (.ori rt rs imm) s = .next t ∧ RetiresWriting s t rt v ∧
      ∀ k, k < 32 → v.getLsbD k = ((readReg s rs).getLsbD k || (decide (k < 16) && imm.getLsbD k))) ∧
    (∃ t v, exec (.xori rt rs imm) s = .next t ∧ RetiresWriting s t rt v ∧
      ∀ k, k < 32 → v.getLsbD k = ((readReg s rs).getLsbD k ^^ (decide (k < 16) && imm.getLsbD k))) ∧
    (∃ t v, exec (.lui rt imm) s = .next t ∧ RetiresWriting s t rt v ∧
      ∀ k, k < 32 → v.getLsbD k = (decide (16 ≤ k) && imm.getLsbD (k - 16)))

/-- R89, R90, R93, R94: the set instructions write 1 where the comparison holds and 0 otherwise; SLTIU sign-extends its
immediate and compares unsigned. -/
def Obligations.SetInstructionsWriteComparison : Prop :=
  ∀ (s : State) (rd rs rt : RegIdx) (imm : Imm16),
    (∃ t, exec (.slt rd rs rt) s = .next t ∧
      RetiresWriting s t rd (if (readReg s rs).toInt < (readReg s rt).toInt then 1#32 else 0#32)) ∧
    (∃ t, exec (.sltu rd rs rt) s = .next t ∧
      RetiresWriting s t rd (if (readReg s rs).toNat < (readReg s rt).toNat then 1#32 else 0#32)) ∧
    (∃ t, exec (.slti rt rs imm) s = .next t ∧
      RetiresWriting s t rt (if (readReg s rs).toInt < imm.toInt then 1#32 else 0#32)) ∧
    (∃ t, exec (.sltiu rt rs imm) s = .next t ∧
      RetiresWriting s t rt
        (if (readReg s rs).toNat < (if imm.msb then imm.toNat + 0xFFFF0000 else imm.toNat) then 1#32 else 0#32))

/-! ### Shifts -/

/-- R111, R112, R113: the immediate shifts bit by bit, for every amount 0 to 31. -/
def Obligations.ImmediateShiftsMoveBits : Prop :=
  ∀ (s : State) (rd rt : RegIdx) (n : Shamt),
    (∃ t v, exec (.sll rd rt n) s = .next t ∧ RetiresWriting s t rd v ∧
      ∀ k, k < 32 → v.getLsbD k = (decide (n.toNat ≤ k) && (readReg s rt).getLsbD (k - n.toNat))) ∧
    (∃ t v, exec (.srl rd rt n) s = .next t ∧ RetiresWriting s t rd v ∧
      ∀ k, k < 32 → v.getLsbD k = (readReg s rt).getLsbD (k + n.toNat)) ∧
    (∃ t v, exec (.sra rd rt n) s = .next t ∧ RetiresWriting s t rd v ∧
      ∀ k, k < 32 → v.getLsbD k = (readReg s rt).getLsbD (min (k + n.toNat) 31))

/-- R114, R115, R116: the variable shifts use the low five bits of `x[rs]` and no others. -/
def Obligations.VariableShiftsUseLowFiveBits : Prop :=
  ∀ (s : State) (rd rt rs : RegIdx),
    (∃ t v, exec (.sllv rd rt rs) s = .next t ∧ RetiresWriting s t rd v ∧
      ∀ k, k < 32 → v.getLsbD k =
        (decide ((readReg s rs).toNat % 32 ≤ k) && (readReg s rt).getLsbD (k - (readReg s rs).toNat % 32))) ∧
    (∃ t v, exec (.srlv rd rt rs) s = .next t ∧ RetiresWriting s t rd v ∧
      ∀ k, k < 32 → v.getLsbD k = (readReg s rt).getLsbD (k + (readReg s rs).toNat % 32)) ∧
    (∃ t v, exec (.srav rd rt rs) s = .next t ∧ RetiresWriting s t rd v ∧
      ∀ k, k < 32 → v.getLsbD k = (readReg s rt).getLsbD (min (k + (readReg s rs).toNat % 32) 31))

/-! ### Multiply, divide, HI/LO -/

/-- R101, R102: the HI/LO pair holds the exact 64-bit product, signed for MULT, unsigned for MULTU. -/
def Obligations.MultiplyWritesExactProduct : Prop :=
  ∀ (s : State) (rs rt : RegIdx),
    (∃ t hi lo, exec (.mult rs rt) s = .next t ∧ RetiresHiLo s t hi lo ∧
      (hi ++ lo : BitVec 64).toInt = (readReg s rs).toInt * (readReg s rt).toInt) ∧
    (∃ t hi lo, exec (.multu rs rt) s = .next t ∧ RetiresHiLo s t hi lo ∧
      (hi ++ lo : BitVec 64).toNat = (readReg s rs).toNat * (readReg s rt).toNat)

/-- R103, R104: a non-zero divisor puts the quotient in `lo` and the remainder in `hi`: for DIV the one that is smaller
than the divisor and has the dividend's sign or is zero, so that the quotient is rounded toward zero and -2^31 / -1
wraps. A zero divisor sets `DIVERR` and changes nothing else but `pc`. No exception. -/
def Obligations.DivideWritesQuotientAndRemainder : Prop :=
  ∀ (s : State) (rs rt : RegIdx),
    let x := readReg s rs
    let y := readReg s rt
    (y ≠ 0#32 →
      (∃ t hi lo, exec (.div rs rt) s = .next t ∧ RetiresHiLo s t hi lo ∧
        ∀ q r : Int, x.toInt = q * y.toInt + r → r.natAbs < y.toInt.natAbs →
          (0 ≤ x.toInt → 0 ≤ r) → (x.toInt ≤ 0 → r ≤ 0) → lo = BitVec.ofInt 32 q ∧ hi = BitVec.ofInt 32 r) ∧
      (∃ t hi lo, exec (.divu rs rt) s = .next t ∧ RetiresHiLo s t hi lo ∧
        ∀ q r : Nat, x.toNat = q * y.toNat + r → r < y.toNat → lo.toNat = q ∧ hi.toNat = r)) ∧
    (y = 0#32 → ∀ i ∈ [Instr.div rs rt, Instr.divu rs rt],
      ∃ t, exec i s = .next t ∧ t.diverr = true ∧ t.pc = s.pc + 4#32 ∧ SameRegs s t ∧ SameHiLo s t ∧
        SameExcRegs s t ∧ t.errmode = s.errmode ∧ t.suspended = s.suspended ∧ SameMem s t ∧ SamePlatform s t)

/-- R105 to R108: the moves from and to HI and LO. -/
def Obligations.HiLoMoves : Prop :=
  ∀ (s : State) (r : RegIdx),
    (∃ t, exec (.mfhi r) s = .next t ∧ RetiresWriting s t r s.hi) ∧
    (∃ t, exec (.mflo r) s = .next t ∧ RetiresWriting s t r s.lo) ∧
    (∃ t, exec (.mthi r) s = .next t ∧ RetiresHiLo s t (readReg s r) s.lo) ∧
    (∃ t, exec (.mtlo r) s = .next t ∧ RetiresHiLo s t s.hi (readReg s r))

/-- R16: only the multiplies, the divides, MTHI and MTLO change `hi` or `lo`. -/
def Obligations.HiLoWrittenOnlyByTheirInstructions : Prop :=
  ∀ (i : Instr) (s t : State),
    (∀ rs rt, i ≠ .mult rs rt ∧ i ≠ .multu rs rt ∧ i ≠ .div rs rt ∧ i ≠ .divu rs rt ∧ i ≠ .mthi rs ∧ i ≠ .mtlo rs) →
    exec i s = .next t → SameHiLo s t

/-! ### Jumps and branches -/

/-- R121, R122: JR goes to `x[rs]`; JALR too, with the link in `rd` and the target the old `x[rs]` even where `rd` is
`rs`. -/
def Obligations.RegisterJumps : Prop :=
  ∀ (s : State) (rd rs : RegIdx),
    (∃ t, exec (.jr rs) s = .next t ∧ GoesTo s t (readReg s rs)) ∧
    (∃ t, exec (.jalr rd rs) s = .next t ∧ LinksAndGoesTo s t rd (readReg s rs))

/-- R120, R123 to R128: the six plain branches go to `A + 4 + 4 * sext(imm)` where their condition holds and to `A + 4`
otherwise. -/
def Obligations.BranchesGoToTargetOrNext : Prop :=
  ∀ (s : State) (rs rt : RegIdx) (imm : Imm16),
    let x := readReg s rs
    let taken := s.pc + 4#32 + 4#32 * imm.signExtend 32
    let next := s.pc + 4#32
    (∃ t, exec (.beq rs rt imm) s = .next t ∧ GoesTo s t (if x = readReg s rt then taken else next)) ∧
    (∃ t, exec (.bne rs rt imm) s = .next t ∧ GoesTo s t (if x = readReg s rt then next else taken)) ∧
    (∃ t, exec (.blez rs imm) s = .next t ∧ GoesTo s t (if x.msb = true ∨ x = 0#32 then taken else next)) ∧
    (∃ t, exec (.bgtz rs imm) s = .next t ∧ GoesTo s t (if x.msb = true ∨ x = 0#32 then next else taken)) ∧
    (∃ t, exec (.bltz rs imm) s = .next t ∧ GoesTo s t (if x.msb = true then taken else next)) ∧
    (∃ t, exec (.bgez rs imm) s = .next t ∧ GoesTo s t (if x.msb = true then next else taken))

/-- R129, R130: BLTZAL and BGEZAL link in register 31 whether or not they branch, on the old `x[rs]`. -/
def Obligations.LinkingBranchesAlwaysLink : Prop :=
  ∀ (s : State) (rs : RegIdx) (imm : Imm16),
    let taken := s.pc + 4#32 + 4#32 * imm.signExtend 32
    let next := s.pc + 4#32
    (∃ t, exec (.bltzal rs imm) s = .next t ∧
      LinksAndGoesTo s t 31#5 (if (readReg s rs).msb = true then taken else next)) ∧
    (∃ t, exec (.bgezal rs imm) s = .next t ∧
      LinksAndGoesTo s t 31#5 (if (readReg s rs).msb = true then next else taken))

/-- R131, R132: J and JAL go to the word `addr` of the 256 MiB region the jump stands in; JAL links in register 31. -/
def Obligations.AbsoluteJumpsStayInRegion : Prop :=
  ∀ (s : State) (addr : Addr26),
    ∃ target : Word, target.toNat = s.pc.toNat / 2 ^ 28 * 2 ^ 28 + addr.toNat * 4 ∧
      (∃ t, exec (.j addr) s = .next t ∧ GoesTo s t target) ∧
      (∃ t, exec (.jal addr) s = .next t ∧ LinksAndGoesTo s t 31#5 target)

/-- R133, R15: from a `pc` that is a multiple of 4 every instruction but JR and JALR leaves one, on a platform whose
vectors are multiples of 4 (R6). -/
def Obligations.OnlyRegisterJumpsMisalignPc : Prop :=
  ∀ (i : Instr) (s t : State), s.cfg.wf → s.pc.toNat % 4 = 0 → (∀ rd rs, i ≠ .jr rs ∧ i ≠ .jalr rd rs) →
    exec i s = .next t → t.pc.toNat % 4 = 0

/-! ### The router, loads and stores -/

/-- R32: the router's windows, from the bases alone, in an ordered map. The model's choices in this: the I/O stub is the
four bytes from `IO_ADDR`, the video window goes on above them, and a stub with `IO_ADDR` above 0xFFFFFFFC has fewer bytes
and does not wrap to address 0 (note 11). -/
def Obligations.RouterPicksWindowByBase : Prop :=
  ∀ (m : AddressMap) (a : Word), m.wf →
    (a.toNat < m.textBase.toNat → route m a = (.zero, 0)) ∧
    (m.textBase.toNat ≤ a.toNat → a.toNat < m.ramBase.toNat → route m a = (.text, a.toNat - m.textBase.toNat)) ∧
    (m.ramBase.toNat ≤ a.toNat → a.toNat < m.stackBase.toNat → route m a = (.ram, a.toNat - m.ramBase.toNat)) ∧
    (m.stackBase.toNat ≤ a.toNat → a.toNat < m.eromBase.toNat → route m a = (.stack, a.toNat - m.stackBase.toNat)) ∧
    (m.eromBase.toNat ≤ a.toNat → a.toNat < m.videoBase.toNat → route m a = (.erom, a.toNat - m.eromBase.toNat)) ∧
    (m.videoBase.toNat ≤ a.toNat → (a.toNat < m.ioAddr.toNat ∨ m.ioAddr.toNat + 4 ≤ a.toNat) →
      route m a = (.video, a.toNat - m.videoBase.toNat)) ∧
    (m.ioAddr.toNat ≤ a.toNat → a.toNat < m.ioAddr.toNat + 4 → route m a = (.io, 0))

/-- R141 to R145: the loads, at every effective address whose bytes can be read. A byte held in a buffer is the byte of
memory there, a byte of the I/O stub is one of the word the stub presents, and below the lowest base 0 is held; where
`EA` itself lies below it the whole access reads 0 (R34). The model's choices in this: one word of the stub for each
load that touches it (note 6), and that R34 rather than R36 settles an access that straddles the lowest base
(note 12). -/
def Obligations.LoadsWidenHeldBytes : Prop :=
  ∀ (s : State) (rt rs : RegIdx) (imm : Imm16),
    let ea := readReg s rs + imm.signExtend 32
    let b := fun k : Nat =>
      if (route s.cfg.map ea).1 = .zero then 0#8 else heldByte s (ea + BitVec.ofNat 32 k)
    (∀ (a : Word) (r : Region), byteTarget s.cfg .read a = .buffer r → heldByte s a = s.mem.read a.toNat) ∧
    (∀ (a : Word) (k : Nat), k < 4 → byteTarget s.cfg .read a = .ioStub k →
      heldByte s a = (ioWord s.env >>> (24 - 8 * k)).setWidth 8) ∧
    (∀ a : Word, byteTarget s.cfg .read a = .fallback → heldByte s a = 0#8) ∧
    (Accessible s.cfg .read ea .byte →
      (∃ t, exec (.lb rt rs imm) s = .next t ∧ RetiresLoading s t ea .byte rt ((b 0).signExtend 32)) ∧
      (∃ t, exec (.lbu rt rs imm) s = .next t ∧ RetiresLoading s t ea .byte rt ((b 0).zeroExtend 32))) ∧
    (Accessible s.cfg .read ea .half →
      (∃ t, exec (.lh rt rs imm) s = .next t ∧ RetiresLoading s t ea .half rt ((b 0 ++ b 1).signExtend 32)) ∧
      (∃ t, exec (.lhu rt rs imm) s = .next t ∧ RetiresLoading s t ea .half rt ((b 0 ++ b 1).zeroExtend 32))) ∧
    (Accessible s.cfg .read ea .word →
      ∃ t, exec (.lw rt rs imm) s = .next t ∧ RetiresLoading s t ea .word rt (b 0 ++ b 1 ++ b 2 ++ b 3))

/-- R146 to R148: the stores, at every effective address whose bytes can be written: the bytes of `x[rt]`, most
significant first, at `EA` and up, and every byte outside them unchanged; nothing is stored where `EA` lies below the
lowest base (R34). The model's choices in this: which windows take stores is one flag per window (note 13), a byte stored
to the I/O stub changes no memory and is put in front of the stub's log (notes 6 and 11), and a store that straddles the lowest base is discarded whole (note 12). -/
def Obligations.StoresWriteBigEndianBytes : Prop :=
  ∀ (s : State) (rt rs : RegIdx) (imm : Imm16), s.mem.wf →
    let ea := readReg s rs + imm.signExtend 32
    let v := readReg s rt
    let cells := fun l : List (Word × Byte) => if (route s.cfg.map ea).1 = .zero then [] else l
    (Accessible s.cfg .write ea .byte →
      ∃ t, exec (.sb rt rs imm) s = .next t ∧ RetiresStoring s t (cells [(ea, v.setWidth 8)])) ∧
    (Accessible s.cfg .write ea .half →
      ∃ t, exec (.sh rt rs imm) s = .next t ∧
        RetiresStoring s t (cells [(ea, (v >>> 8).setWidth 8), (ea + 1#32, v.setWidth 8)])) ∧
    (Accessible s.cfg .write ea .word →
      ∃ t, exec (.sw rt rs imm) s = .next t ∧
        RetiresStoring s t (cells [(ea, (v >>> 24).setWidth 8), (ea + 1#32, (v >>> 16).setWidth 8),
          (ea + 2#32, (v >>> 8).setWidth 8), (ea + 3#32, v.setWidth 8)]))

/-- R149 with R36, R37 and R46: where the platform answers `BusError` to any byte the access routes, a load or store
captures `EA` in `bvr`, takes the DATA_BUS exception, and does nothing else; on a platform that never answers `BusError`
no access meets one. The model's choices in this: the bus error prevails where another byte lies beyond its buffer
(note 18), and `BusError` is a fixed answer to an address and a direction (note 2). -/
def Obligations.BusErrorCapturesAddressAndRaises : Prop :=
  (∀ (i : Instr) (s : State) (k : AccessKind) (ea : Word) (n : AccessWidth),
    memoryAccess i s = some (k, ea, n) → (∃ a ∈ routedAddrs s.cfg ea n, byteTarget s.cfg k a = .busError) →
    ∃ t, exec i s = .next t ∧ EntersException s t s.cfg.codeDbus ∧ t.bvr = ea) ∧
  (∀ (c : Config) (k : AccessKind) (a : Word), c.busErrors = [] → byteTarget c k a ≠ .busError)

/-- R32, U8: an access with a byte beyond its buffer, and no `BusError`, is refused by name. -/
def Obligations.AccessBeyondBufferIsRefused : Prop :=
  ∀ (i : Instr) (s : State) (k : AccessKind) (ea : Word) (n : AccessWidth),
    memoryAccess i s = some (k, ea, n) → (∀ a ∈ routedAddrs s.cfg ea n, byteTarget s.cfg k a ≠ .busError) →
    (∃ a ∈ routedAddrs s.cfg ea n, byteTarget s.cfg k a = .beyondBuffer) → exec i s = .refused .accessBeyondBuffer

/-- R34: where the address of the access lies below the lowest mapped base, a load of any width reads 0 and a store of
any width is discarded, without a fault. That this holds of a store which straddles the base is the model's reading
(note 12). -/
def Obligations.BelowLowestBaseReadsZeroAndDropsStores : Prop :=
  ∀ (s : State) (rt rs : RegIdx) (imm : Imm16), s.cfg.wf →
    (readReg s rs + imm.signExtend 32).toNat < s.cfg.map.textBase.toNat →
    (∀ i ∈ [Instr.lb rt rs imm, .lbu rt rs imm, .lh rt rs imm, .lhu rt rs imm, .lw rt rs imm],
      ∃ t, exec i s = .next t ∧ RetiresWriting s t rt 0#32) ∧
    ∀ i ∈ [Instr.sb rt rs imm, .sh rt rs imm, .sw rt rs imm], ∃ t, exec i s = .next t ∧ GoesTo s t (s.pc + 4#32)

/-- R35, R37: a word stored to a buffer reads back byte by byte from its most significant byte, and a word load at the
same address returns it. -/
def Obligations.StoredWordReadsBack : Prop :=
  ∀ (s : State) (rt rs d : RegIdx) (imm : Imm16), s.mem.wf →
    let ea := readReg s rs + imm.signExtend 32
    (∀ k, k < 4 → takesStore s.cfg (ea + BitVec.ofNat 32 k) = true ∧
      busErrorAt s.cfg .read (ea + BitVec.ofNat 32 k) = false) →
    ∃ t u, exec (.sw rt rs imm) s = .next t ∧
      (∀ k, k < 4 →
        heldByte t (ea + BitVec.ofNat 32 k) = ((readReg s rt) >>> (24 - 8 * k)).setWidth 8) ∧
      exec (.lw d rs imm) t = .next u ∧ RetiresWriting t u d (readReg s rt)

/-- A word load of the I/O stub gives the word the stub presents (a scripted or a free value); a word store to it changes
no byte of memory and hands its four bytes to the stub, nothing else of the environment changing. The model's reading of R36, U9 and C8: notes 6 and 11. -/
def Obligations.IoStubWordAccess : Prop :=
  ∀ (s : State) (rt rs : RegIdx) (imm : Imm16), s.cfg.busErrors = [] →
    let a := s.cfg.map.ioAddr
    let v := readReg s rt
    a.toNat + 3 < 2 ^ 32 → readReg s rs + imm.signExtend 32 = a →
    (∃ t, exec (.lw rt rs imm) s = .next t ∧
      RetiresLoading s t a .word rt (ioWord s.env) ∧ t.env = s.env.takeIoWord) ∧
    (∃ t, exec (.sw rt rs imm) s = .next t ∧ t.pc = s.pc + 4#32 ∧ SameMem s t ∧ SameRegs s t ∧ SameHiLo s t ∧
      SameExcRegs s t ∧ SameFlags s t ∧ t.cfg = s.cfg ∧
      t.env = { s.env with
        ioWrites := (a.toNat + 3, v.setWidth 8) :: (a.toNat + 2, (v >>> 8).setWidth 8) ::
          (a.toNat + 1, (v >>> 16).setWidth 8) :: (a.toNat, (v >>> 24).setWidth 8) :: s.env.ioWrites })

/-- R42, R25: only the three stores and SYSCALL change memory. -/
def Obligations.MemoryChangedOnlyByStoresAndSyscall : Prop :=
  ∀ (i : Instr) (s t : State),
    (∀ rt rs imm, i ≠ .sb rt rs imm ∧ i ≠ .sh rt rs imm ∧ i ≠ .sw rt rs imm) → i ≠ .syscall →
    exec i s = .next t → t.mem = s.mem

/-- Two canonical memories that read alike are the same memory. -/
def Obligations.CanonicalMemoriesReadAlikeAreEqual : Prop :=
  ∀ m n : Memory, m.wf → n.wf → (∀ a, m.read a = n.read a) → m = n

/-! ### SYSCALL, BREAK, coprocessor no-ops -/

/-- R155, R184: every word of SYSCALL's encoding is SYSCALL, and SYSCALL hands the host `x[2]` and `x[4]` to `x[7]`, lets
it write `x[2]`, memory and `SUSPENDED` and nothing else, and advances `pc`; no exception register changes. The host's
reply is `syscallReply s`: the scripted one where there is one, else a free value. The script, the log of calls and the
mark that a result is awaited are the model's own (notes 7 and 14). -/
def Obligations.SyscallNotifiesHostAndAdvances : Prop :=
  (∀ w : Word, (w >>> 26).toNat = 0 → w.toNat % 64 = 0x0C → decodeWord w = .ok .syscall) ∧
  ∀ s : State, ∃ t : State,
    let r := syscallReply s
    exec .syscall s = .next t ∧ (∀ r', s.env.syscallReplies.head? = some r' → r = r') ∧
    t.env = { s.env with
      syscallReplies := s.env.syscallReplies.tail
      syscallCalls :=
        ⟨readReg s 2#5, readReg s 4#5, readReg s 5#5, readReg s 6#5, readReg s 7#5⟩ :: s.env.syscallCalls
      deliveryOpen := r.suspend } ∧
    readReg t 2#5 = r.result.getD (readReg s 2#5) ∧ SameRegsBut s t 2#5 ∧
    t.mem = hostWrites s.cfg.map s.mem r.writes ∧ t.suspended = (s.suspended || r.suspend) ∧
    t.pc = s.pc + 4#32 ∧ SameHiLo s t ∧ SameExcRegs s t ∧ t.diverr = s.diverr ∧ t.errmode = s.errmode ∧
    t.cfg = s.cfg

/-- R156, R178: every word of BREAK's encoding is BREAK, and BREAK writes `epc` and `pc` and nothing else. -/
def Obligations.BreakWritesOnlyEpcAndPc : Prop :=
  (∀ w : Word, (w >>> 26).toNat = 0 → w.toNat % 64 = 0x0D → decodeWord w = .ok .brk) ∧
  ∀ s : State, ∃ t, exec .brk s = .next t ∧ t.epc = s.pc ∧ t.pc = s.cfg.breakVector ∧ t.cause = s.cause ∧
    t.status = s.status ∧ t.bvr = s.bvr ∧ SameRegs s t ∧ SameHiLo s t ∧ SameFlags s t ∧ SameMem s t ∧
    SamePlatform s t

/-- R157: the coprocessor opcodes 0x10 to 0x13 are no-ops, whatever their low 26 bits. -/
def Obligations.CoprocessorWordsAreNoOps : Prop :=
  (∀ w : Word,
    ((w >>> 26).toNat = 0x10 → decodeWord w = .ok .cop0) ∧ ((w >>> 26).toNat = 0x11 → decodeWord w = .ok .cop1) ∧
    ((w >>> 26).toNat = 0x12 → decodeWord w = .ok .cop2) ∧ ((w >>> 26).toNat = 0x13 → decodeWord w = .ok .cop3)) ∧
  (∀ s : State,
    (∃ t, exec .cop0 s = .next t ∧ GoesTo s t (s.pc + 4#32)) ∧
    (∃ t, exec .cop1 s = .next t ∧ GoesTo s t (s.pc + 4#32)) ∧
    (∃ t, exec .cop2 s = .next t ∧ GoesTo s t (s.pc + 4#32)) ∧
    (∃ t, exec .cop3 s = .next t ∧ GoesTo s t (s.pc + 4#32)))

/-- R23, R184: of the instructions only SYSCALL can change `SUSPENDED`, and it never clears it. -/
def Obligations.OnlySyscallSuspends : Prop :=
  ∀ (i : Instr) (s t : State), exec i s = .next t →
    (i ≠ .syscall → t.suspended = s.suspended) ∧ (s.suspended = true → t.suspended = true)

/-! ### Exceptions, interrupts, host operations -/

/-- R180: `Interrupt()` is refused while suspended; otherwise it enters INTERRUPT with `epc` the address of the next
instruction, whatever `status`, `cause` and `ERRMODE` hold. -/
def Obligations.InterruptEntersWithoutGating : Prop :=
  ∀ s : State,
    (s.suspended = true → perform .interrupt s = .refused .hostOperationNotLegal) ∧
    (s.suspended = false →
      ∃ t, perform .interrupt s = .next t ∧ EntersException s t s.cfg.codeInt ∧ t.bvr = s.bvr)

/-- R22, R21: no step clears `ERRMODE` or `DIVERR`. -/
def Obligations.NoStepClearsErrorFlags : Prop :=
  ∀ s t : State, step s = .next t →
    (s.errmode = true → t.errmode = true) ∧ (s.diverr = true → t.diverr = true)

/-- R25, R172, R178: a step leaves the exception registers and `ERRMODE` alone, or runs BREAK, or is one exception entry:
INSTRUCTION_BUS of a word that is no instruction, OVERFLOW of ADD, SUB or ADDI, or DATA_BUS of a load or store that met
`BusError`, which alone writes `bvr`. -/
def Obligations.ExceptionRegistersChangeOnlyByEntryOrBreak : Prop :=
  ∀ s t : State, step s = .next t →
    let decoded := decodeWord (wordAtPc s)
    (SameExcRegs s t ∧ t.errmode = s.errmode) ∨
    (decoded = .ok .brk ∧ t.epc = s.pc ∧ t.pc = s.cfg.breakVector ∧ t.cause = s.cause ∧ t.status = s.status ∧
      t.bvr = s.bvr ∧ SameRegs s t ∧ SameHiLo s t ∧ SameFlags s t ∧ SameMem s t ∧ SamePlatform s t) ∨
    ((∃ e, decoded = .error e) ∧ EntersException s t s.cfg.codeIbus ∧ t.bvr = s.bvr) ∨
    ((∃ rd rs rt imm, decoded = .ok (.add rd rs rt) ∨ decoded = .ok (.sub rd rs rt) ∨
        decoded = .ok (.addi rt rs imm)) ∧ EntersException s t s.cfg.codeOvf ∧ t.bvr = s.bvr) ∨
    ∃ i k ea n, decoded = .ok i ∧ memoryAccess i s = some (k, ea, n) ∧
      (∃ a ∈ routedAddrs s.cfg ea n, byteTarget s.cfg k a = .busError) ∧
      EntersException s t s.cfg.codeDbus ∧ t.bvr = ea

/-- R160: an instruction executes identically whatever `status` and `ERRMODE` hold. -/
def Obligations.StatusAndErrmodeDoNotInfluenceExecution : Prop :=
  ∀ (i : Instr) (s : State) (status : Word) (errmode : Bool),
    (∀ t, exec i s = .next t →
      ∃ t', exec i { s with status := status, errmode := errmode } = .next t' ∧
        t'.regs = t.regs ∧ t'.pc = t.pc ∧ t'.hi = t.hi ∧ t'.lo = t.lo ∧ t'.epc = t.epc ∧ t'.cause = t.cause ∧
        t'.bvr = t.bvr ∧ t'.diverr = t.diverr ∧ t'.suspended = t.suspended ∧ t'.mem = t.mem ∧ t'.cfg = t.cfg ∧
        t'.env = t.env) ∧
    (∀ r, exec i s = .refused r → exec i { s with status := status, errmode := errmode } = .refused r)

/-- R189: of the host's operations only Reset and Restore can clear `ERRMODE` or `DIVERR`. -/
def Obligations.OnlyResetAndRestoreClearErrorFlags : Prop :=
  ∀ (o : HostOp) (s t : State), perform o s = .next t →
    (s.errmode = true ∧ t.errmode = false) ∨ (s.diverr = true ∧ t.diverr = false) →
    (∃ pc0 contents, o = .reset pc0 contents) ∨ ∃ p, o = .restore p

/-- R28: a snapshot restored on a machine whose parameters are the same, the memory sizes apart, gives the recorded state
back, memory sizes included, so that execution goes on identically. The platform's and the host's answers to come are in
no snapshot (note 14). -/
def Obligations.SnapshotRestoresLosslessly : Prop :=
  ∀ s u : State, s.Inv →
    { u.cfg with
      map := { u.cfg.map with
        textSize := s.cfg.map.textSize
        ramSize := s.cfg.map.ramSize
        stackSize := s.cfg.map.stackSize
        eromSize := s.cfg.map.eromSize
        videoSize := s.cfg.map.videoSize } } = s.cfg →
    { u.env with deliveryOpen := s.env.deliveryOpen } = s.env →
    perform (.restore (snapshot s)) u = .next s

/-- R190, R26: `Reset(pc0?)` sets `pc` to the override or `PC_RESET`, clears the three flags, gives every other register
its `*_RESET` parameter, leaves `x[0]` at 0 and gives memory the platform's contents; the model's own reset state has
`pc` = 0. The model's choices in this: the parameters stay, the memory sizes a Restore brought among them, and contents
outside every buffer are dropped (note 14). -/
def Obligations.ResetSetsPcAndClearsFlags : Prop :=
  (∀ (s : State) (pc0 : Option Word) (contents : List Host.Cell),
    ∃ t, perform (.reset pc0 contents) s = .next t ∧
      t.pc = (match pc0 with | some a => a | none => s.cfg.pcReset) ∧
      t.diverr = false ∧ t.errmode = false ∧ t.suspended = false ∧ readReg t 0#5 = 0#32 ∧
      t.regs = s.cfg.resetValues.gpr ∧ t.hi = s.cfg.resetValues.hi ∧ t.lo = s.cfg.resetValues.lo ∧
      t.epc = s.cfg.resetValues.epc ∧ t.cause = s.cfg.resetValues.cause ∧ t.status = s.cfg.resetValues.status ∧
      t.bvr = s.cfg.resetValues.bvr ∧ t.mem = hostWrites s.cfg.map [] contents ∧ t.cfg = s.cfg) ∧
  State.reset.pc = 0#32 ∧ State.reset.diverr = false ∧ State.reset.errmode = false ∧
  State.reset.suspended = false ∧ readReg State.reset 0#5 = 0#32

/-! ### Invariants -/

/-- Every step keeps the invariant: memory in canonical form, every listed byte in a buffer, parameters that meet R6, a
result of a SYSCALL awaited only while suspended. The canonical form is note 9, the awaited result note 14. -/
def Obligations.StepKeepsStateInvariant : Prop :=
  ∀ s t : State, s.Inv → step s = .next t → t.Inv

/-- The state after reset satisfies the invariant. -/
def Obligations.ResetSatisfiesStateInvariant : Prop :=
  State.reset.Inv

/-- Every state reached under any host operations, on any platform that meets R6, satisfies the invariant. It rests on
choices of the model: bytes of initial contents, reset contents and host writes outside every buffer are dropped (notes 7
and 14), and memory is in canonical form (note 9). -/
def Obligations.ReachableStatesSatisfyInvariant : Prop :=
  ∀ s : State, Reachable s → s.Inv

/-- Each of the host's operations keeps the invariant (R189). That bytes of reset contents and host writes outside every
buffer are dropped, and that a program or a snapshot that does not fit is refused, are the model's choices (notes 7, 14
and 21); the canonical form is note 9. -/
def Obligations.HostOperationsKeepStateInvariant : Prop :=
  ∀ (o : HostOp) (s t : State), s.Inv → perform o s = .next t → t.Inv

/-! ### Program load, delivery, the end of a run -/

/-- R193, R189: a program whose words lie in the text buffer and whose data blocks lie in the RAM buffer is loaded: word
`i` big-endian at the position plus `4 * i`, each block at its offset in RAM, `pc` at the position or left, and nothing
else changed. Whatever the program, no load changes a byte outside text and RAM. That the position is any address, and
that a program which does not fit is refused, are the model's choices (note 21). -/
def Obligations.LoadPlacesWordsAndData : Prop :=
  (∀ (s : State) (p : Program), s.Inv →
    let text := s.cfg.map.textBase.toNat
    let ram := s.cfg.map.ramBase.toNat
    text ≤ p.position.toNat → p.position.toNat + 4 * p.words.length ≤ text + s.cfg.map.textSize →
    (∀ d ∈ p.data, d.offset + d.content.length ≤ s.cfg.map.ramSize) →
    p.data.Pairwise (fun d e => d.offset + d.content.length ≤ e.offset ∨ e.offset + e.content.length ≤ d.offset) →
    ∃ t, perform (.load p) s = .next t ∧
      (∀ (i k : Nat) (w : Word), p.words[i]? = some w → k < 4 →
        t.mem.read (p.position.toNat + 4 * i + k) = (w >>> (24 - 8 * k)).setWidth 8) ∧
      (∀ d ∈ p.data, ∀ (j : Nat) (b : Byte), d.content[j]? = some b → t.mem.read (ram + d.offset + j) = b) ∧
      (∀ x : Nat, (x < p.position.toNat ∨ p.position.toNat + 4 * p.words.length ≤ x) →
        (∀ d ∈ p.data, x < ram + d.offset ∨ ram + d.offset + d.content.length ≤ x) →
        t.mem.read x = s.mem.read x) ∧
      t.pc = (if p.setPc then p.position else s.pc) ∧ SameRegs s t ∧ SameHiLo s t ∧ SameExcRegs s t ∧
      SameFlags s t ∧ SamePlatform s t) ∧
  ∀ (s t : State) (p : Program), s.mem.wf → perform (.load p) s = .next t →
    ∀ x : Nat, inRegion s.cfg.map .text x = false → inRegion s.cfg.map .ram x = false →
      t.mem.read x = s.mem.read x

/-- R184, R189: the host delivers a result only while it keeps the machine suspended after suspending it inside a
SYSCALL: then `x[2]` and memory change and nothing else; otherwise the operation is refused, after a Resume or a Reset
too. A snapshot carries whether a result is awaited. Which suspension counts is the model's reading (note 14). -/
def Obligations.DeliveryOnlyWhileSuspendedByCall : Prop :=
  ∀ (result : Option Word) (writes : List Host.Cell),
    (∀ s : State, s.suspended = true ∧ s.env.deliveryOpen = true →
      ∃ t, perform (.deliver result writes) s = .next t ∧ readReg t 2#5 = result.getD (readReg s 2#5) ∧
        SameRegsBut s t 2#5 ∧ t.mem = hostWrites s.cfg.map s.mem writes ∧ t.pc = s.pc ∧ SameHiLo s t ∧
        SameExcRegs s t ∧ SameFlags s t ∧ SamePlatform s t) ∧
    (∀ s : State, ¬(s.suspended = true ∧ s.env.deliveryOpen = true) →
      perform (.deliver result writes) s = .refused .hostOperationNotLegal) ∧
    (∀ (o : HostOp) (s t u : State), (o = .resume ∨ ∃ pc0 contents, o = .reset pc0 contents) →
      perform o s = .next t → perform .pause t = .next u →
      perform (.deliver result writes) u = .refused .hostOperationNotLegal) ∧
    ∀ s t u : State, s.Inv → perform (.restore (snapshot s)) u = .next t →
      t.suspended = s.suspended ∧ t.env.deliveryOpen = s.env.deliveryOpen

/-- R197: a run of the host's loop reports stopped exactly at a SYSCALL of that run with `x[2]` = 10, its last step, with
`pc` past it; it ends where a step is refused, and otherwise when its steps are used up. What the host received before
the run has no part in it. The loop, and its bound on the steps, are the model's (note 20). -/
def Obligations.RunStopsAtTerminateOfThisRun : Prop :=
  (∀ (n : Nat) (s t : State), runProgram n s = .stopped t →
    ∃ (k : Nat) (u : State), k < n ∧ core.run k s = .next u ∧ u.suspended = false ∧ step u = .next t ∧
      decodeWord (wordAtPc u) = .ok .syscall ∧ readReg u 2#5 = 10#32 ∧ t.pc = u.pc + 4#32) ∧
  (∀ s : State, runProgram 0 s = .outOfSteps s) ∧
  (∀ (n : Nat) (s : State) (r : Refusal), step s = .refused r → runProgram (n + 1) s = .refused r) ∧
  ∀ (n : Nat) (s t : State), step s = .next t →
    (s.suspended = false ∧ decodeWord (wordAtPc s) = .ok .syscall ∧ readReg s 2#5 = 10#32 →
      runProgram (n + 1) s = .stopped t) ∧
    (¬(s.suspended = false ∧ decodeWord (wordAtPc s) = .ok .syscall ∧ readReg s 2#5 = 10#32) →
      runProgram (n + 1) s = runProgram n t)

/-! ### Pause and resume -/

/-- R186: `Pause()` sets `SUSPENDED` and `Resume()` clears it, in every state; every register, flag, byte and parameter
keeps its value. After Resume no result of an earlier SYSCALL is awaited, the model's own mark (note 14). -/
def Obligations.PauseAndResumeChangeOnlySuspended : Prop :=
  ∀ s : State,
    let kept := fun t : State => SameRegs s t ∧ t.pc = s.pc ∧ SameHiLo s t ∧ SameExcRegs s t ∧ t.diverr = s.diverr ∧
      t.errmode = s.errmode ∧ SameMem s t ∧ t.cfg = s.cfg
    (∃ t, perform .pause s = .next t ∧ t.suspended = true ∧ kept t ∧ t.env = s.env) ∧
    (∃ t, perform .resume s = .next t ∧ t.suspended = false ∧ kept t ∧ t.env = { s.env with deliveryOpen := false })
end

