-- ==== Sys2Proof/Laws/Memory.lean ====
section
/-! SUPPORT. The laws of byte memory: reading after writing, the canonical form, and what writing can list. -/

namespace Sys2Proof.Machine

@[simp] theorem Memory.read_nil (a : Nat) : Memory.read [] a = Memory.blank := rfl

theorem Memory.read_cons (k : Nat) (b : Byte) (m : Memory) (a : Nat) :
    Memory.read ((k, b) :: m) a = if k = a then b else m.read a := rfl

/-- An address below every listed one reads blank. -/
theorem Memory.read_of_lt {m : Memory} {a : Nat} (h : ∀ c ∈ m, a < c.1) : m.read a = Memory.blank := by
  induction m with
  | nil => rfl
  | cons c m ih =>
    obtain ⟨k, b⟩ := c
    have hk : a < k := h (k, b) (by simp)
    rw [Memory.read_cons, if_neg (by omega)]
    exact ih fun c hc => h c (by simp [hc])

/-- An address that is not listed reads blank. -/
theorem Memory.read_of_not_mem {m : Memory} {a : Nat} (h : ∀ c ∈ m, a ≠ c.1) : m.read a = Memory.blank := by
  induction m with
  | nil => rfl
  | cons c m ih =>
    obtain ⟨k, b⟩ := c
    rw [Memory.read_cons, if_neg fun e => h (k, b) (by simp) e.symm]
    exact ih fun c hc => h c (by simp [hc])

/-- A listed address reads its byte, over any canonical memory. -/
theorem Memory.read_of_mem {m : Memory} (hm : m.wf) {a : Nat} {b : Byte} (h : (a, b) ∈ m) : m.read a = b := by
  induction m with
  | nil => cases h
  | cons c m ih =>
    obtain ⟨k, v⟩ := c
    obtain ⟨hlt, hs⟩ := List.pairwise_cons.mp hm.1
    rcases List.mem_cons.mp h with e | h
    · injection e with e1 e2
      rw [Memory.read_cons, if_pos e1.symm, e2]
    · have hk : k < a := hlt _ h
      rw [Memory.read_cons, if_neg (by omega)]
      exact ih ⟨hs, fun d hd => hm.2 d (by simp [hd])⟩ h

/-- Read after write, over any canonical memory. -/
theorem Memory.read_write {m : Memory} (hm : m.wf) (a : Nat) (b : Byte) (x : Nat) :
    Memory.read (Memory.write m a b) x = if x = a then b else Memory.read m x := by
  induction m with
  | nil =>
    unfold Memory.write
    split
    · rename_i hb
      subst hb
      split <;> rfl
    · by_cases hx : x = a
      · subst hx; simp [Memory.read_cons]
      · rw [Memory.read_cons, if_neg (fun h => hx h.symm), if_neg hx]
  | cons c m ih =>
    obtain ⟨k, c⟩ := c
    obtain ⟨hs, hn⟩ := hm
    have hlt : ∀ d ∈ m, k < d.1 := (List.pairwise_cons.mp hs).1
    have ih := ih ⟨(List.pairwise_cons.mp hs).2, fun d hd => hn d (by simp [hd])⟩
    have low : ∀ x, x ≤ k → Memory.read m x = Memory.blank :=
      fun x hx => Memory.read_of_lt fun d hd => by have := hlt d hd; omega
    unfold Memory.write
    by_cases hx : x = a
    · subst hx
      rw [if_pos rfl]
      by_cases h1 : x < k
      · rw [if_pos h1]
        split
        · rename_i hb
          rw [Memory.read_cons, if_neg (by omega), low x (by omega), hb]
        · rw [Memory.read_cons, if_pos rfl]
      · rw [if_neg h1]
        by_cases h2 : x = k
        · subst h2
          rw [if_pos rfl]
          split
          · rename_i hb
            rw [low x (by omega), hb]
          · rw [Memory.read_cons, if_pos rfl]
        · rw [if_neg h2, Memory.read_cons, if_neg (by omega), ih, if_pos rfl]
    · rw [if_neg hx]
      by_cases h1 : a < k
      · rw [if_pos h1]
        split
        · rfl
        · rw [Memory.read_cons, if_neg (by omega)]
      · rw [if_neg h1]
        by_cases h2 : a = k
        · subst h2
          rw [if_pos rfl]
          split
          · rw [Memory.read_cons, if_neg (by omega)]
          · rw [Memory.read_cons, Memory.read_cons, if_neg (by omega), if_neg (by omega)]
        · rw [if_neg h2, Memory.read_cons, Memory.read_cons, ih, if_neg hx]

/-- A listed cell of a written memory was listed before or is the written one. -/
theorem Memory.mem_write {m : Memory} {a : Nat} {b : Byte} {c : Host.Cell} (h : c ∈ m.write a b) :
    c ∈ m ∨ c = (a, b) := by
  induction m with
  | nil =>
    unfold Memory.write at h
    split at h <;> simp_all
  | cons d m ih =>
    obtain ⟨k, d⟩ := d
    unfold Memory.write at h
    repeat' split at h
    all_goals simp_all
    all_goals tauto

/-- Writing keeps the canonical form. -/
theorem Memory.write_wf {m : Memory} (hm : m.wf) (a : Nat) (b : Byte) : (m.write a b).wf := by
  induction m with
  | nil =>
    unfold Memory.write
    split <;> simp_all [Memory.wf]
  | cons c m ih =>
    obtain ⟨k, c⟩ := c
    obtain ⟨hs, hn⟩ := hm
    have hlt : ∀ d ∈ m, k < d.1 := (List.pairwise_cons.mp hs).1
    have hs' := (List.pairwise_cons.mp hs).2
    have hn' : ∀ d ∈ m, d.2 ≠ Memory.blank := fun d hd => hn d (by simp [hd])
    have ih := ih ⟨hs', hn'⟩
    have hc : c ≠ Memory.blank := hn (k, c) (by simp)
    unfold Memory.write
    by_cases h1 : a < k
    · by_cases hb : b = Memory.blank
      · simp only [h1, hb, if_true]; exact ⟨hs, hn⟩
      · simp only [h1, hb, if_true, if_false]
        refine ⟨List.pairwise_cons.mpr ⟨?_, hs⟩, ?_⟩
        · intro d hd
          rcases List.mem_cons.mp hd with rfl | hd
          · exact h1
          · exact lt_trans h1 (hlt d hd)
        · intro d hd
          rcases List.mem_cons.mp hd with rfl | hd
          · exact hb
          · exact hn d hd
    · by_cases h2 : a = k
      · subst h2
        by_cases hb : b = Memory.blank
        · simp only [h1, hb, if_true, if_false]; exact ⟨hs', hn'⟩
        · simp only [h1, hb, if_true, if_false]
          refine ⟨List.pairwise_cons.mpr ⟨hlt, hs'⟩, ?_⟩
          intro d hd
          rcases List.mem_cons.mp hd with rfl | hd
          · exact hb
          · exact hn' d hd
      · simp only [h1, h2, if_false]
        refine ⟨List.pairwise_cons.mpr ⟨?_, ih.1⟩, ?_⟩
        · intro d hd
          rcases Memory.mem_write hd with hd | rfl
          · exact hlt d hd
          · show k < a; omega
        · intro d hd
          rcases List.mem_cons.mp hd with rfl | hd
          · exact hc
          · exact ih.2 d hd

/-- The empty memory is canonical. -/
theorem Memory.nil_wf : Memory.wf [] := by simp [Memory.wf]

/-- Host writes keep the canonical form. -/
theorem hostWrites_wf (map : AddressMap) {m : Memory} (hm : m.wf) (l : List Host.Cell) :
    (hostWrites map m l).wf := by
  induction l generalizing m with
  | nil => exact hm
  | cons c l ih =>
    obtain ⟨a, b⟩ := c
    simp only [hostWrites]
    split
    · exact ih (Memory.write_wf hm a b)
    · exact ih hm

/-- Host writes list only bytes of buffers. -/
theorem hostWrites_backed (map : AddressMap) {m : Memory} (hm : ∀ c ∈ m, inBuffer map c.1 = true)
    (l : List Host.Cell) : ∀ c ∈ hostWrites map m l, inBuffer map c.1 = true := by
  induction l generalizing m with
  | nil => exact hm
  | cons c l ih =>
    obtain ⟨a, b⟩ := c
    simp only [hostWrites]
    split
    · rename_i h
      refine ih fun d hd => ?_
      rcases Memory.mem_write hd with hd | rfl
      · exact hm d hd
      · exact h
    · exact ih hm

end Sys2Proof.Machine
end

