-- ==== Sys2Proof/Laws/State.lean ====
section
/-! SUPPORT. One lemma per field per update of the state, and reading a register after each update. -/

namespace Sys2Proof.Machine

/-! ### Registers -/

@[simp] theorem readReg_zero (s : State) : readReg s 0#5 = 0#32 := rfl

/-- Reading a register depends on the register file alone. -/
theorem readReg_congr {s t : State} (h : t.regs = s.regs) (i : RegIdx) : readReg t i = readReg s i := by
  unfold readReg
  split
  · rfl
  · simp [h]

/-- Read after write, register 0 included (spec/10_state.md R11, R12). -/
theorem readReg_writeReg (s : State) (d : RegIdx) (v : Word) (i : RegIdx) :
    readReg (writeReg s d v) i = if i = d ∧ d ≠ 0#5 then v else readReg s i := by
  by_cases hd : d = 0#5
  · simp [writeReg, hd]
  · by_cases hi : i = 0#5
    · subst hi
      simp [readReg, eq_comm, hd]
    · have hne : i.toNat - 1 = d.toNat - 1 ↔ i = d := by
        have h1 : i.toNat ≠ 0 := fun h => hi (BitVec.eq_of_toNat_eq (by simpa using h))
        have h2 : d.toNat ≠ 0 := fun h => hd (BitVec.eq_of_toNat_eq (by simpa using h))
        rw [← BitVec.toNat_inj]
        omega
      unfold readReg writeReg
      simp only [hi, hd, dite_false]
      by_cases h : i = d
      · subst h; simp [hd]
      · have : ¬(d.toNat - 1 = i.toNat - 1) := fun e => h (hne.mp e.symm)
        simp [h, this]

/-- A register other than the written one. -/
theorem readReg_writeReg_ne (s : State) {d i : RegIdx} (h : i ≠ d) (v : Word) :
    readReg (writeReg s d v) i = readReg s i := by
  simp [readReg_writeReg, h]

/-- The written register. -/
theorem readReg_writeReg_self (s : State) (d : RegIdx) (v : Word) :
    readReg (writeReg s d v) d = if d = 0#5 then 0#32 else v := by
  rw [readReg_writeReg]
  by_cases h : d = 0#5 <;> simp [h]

@[simp] theorem writeReg_pc (s : State) (d : RegIdx) (v : Word) : (writeReg s d v).pc = s.pc := by
  unfold writeReg; split <;> rfl

@[simp] theorem writeReg_hi (s : State) (d : RegIdx) (v : Word) : (writeReg s d v).hi = s.hi := by
  unfold writeReg; split <;> rfl

@[simp] theorem writeReg_lo (s : State) (d : RegIdx) (v : Word) : (writeReg s d v).lo = s.lo := by
  unfold writeReg; split <;> rfl

@[simp] theorem writeReg_epc (s : State) (d : RegIdx) (v : Word) : (writeReg s d v).epc = s.epc := by
  unfold writeReg; split <;> rfl

@[simp] theorem writeReg_cause (s : State) (d : RegIdx) (v : Word) : (writeReg s d v).cause = s.cause := by
  unfold writeReg; split <;> rfl

@[simp] theorem writeReg_status (s : State) (d : RegIdx) (v : Word) : (writeReg s d v).status = s.status := by
  unfold writeReg; split <;> rfl

@[simp] theorem writeReg_bvr (s : State) (d : RegIdx) (v : Word) : (writeReg s d v).bvr = s.bvr := by
  unfold writeReg; split <;> rfl

@[simp] theorem writeReg_diverr (s : State) (d : RegIdx) (v : Word) : (writeReg s d v).diverr = s.diverr := by
  unfold writeReg; split <;> rfl

@[simp] theorem writeReg_errmode (s : State) (d : RegIdx) (v : Word) : (writeReg s d v).errmode = s.errmode := by
  unfold writeReg; split <;> rfl

@[simp] theorem writeReg_suspended (s : State) (d : RegIdx) (v : Word) : (writeReg s d v).suspended = s.suspended := by
  unfold writeReg; split <;> rfl

@[simp] theorem writeReg_mem (s : State) (d : RegIdx) (v : Word) : (writeReg s d v).mem = s.mem := by
  unfold writeReg; split <;> rfl

@[simp] theorem writeReg_cfg (s : State) (d : RegIdx) (v : Word) : (writeReg s d v).cfg = s.cfg := by
  unfold writeReg; split <;> rfl

@[simp] theorem writeReg_env (s : State) (d : RegIdx) (v : Word) : (writeReg s d v).env = s.env := by
  unfold writeReg; split <;> rfl

/-! ### `retire` -/

@[simp] theorem retire_regs (s : State) : (retire s).regs = s.regs := rfl

@[simp] theorem retire_pc (s : State) : (retire s).pc = s.pc + 4#32 := rfl

@[simp] theorem retire_hi (s : State) : (retire s).hi = s.hi := rfl

@[simp] theorem retire_lo (s : State) : (retire s).lo = s.lo := rfl

@[simp] theorem retire_epc (s : State) : (retire s).epc = s.epc := rfl

@[simp] theorem retire_cause (s : State) : (retire s).cause = s.cause := rfl

@[simp] theorem retire_status (s : State) : (retire s).status = s.status := rfl

@[simp] theorem retire_bvr (s : State) : (retire s).bvr = s.bvr := rfl

@[simp] theorem retire_diverr (s : State) : (retire s).diverr = s.diverr := rfl

@[simp] theorem retire_errmode (s : State) : (retire s).errmode = s.errmode := rfl

@[simp] theorem retire_suspended (s : State) : (retire s).suspended = s.suspended := rfl

@[simp] theorem retire_mem (s : State) : (retire s).mem = s.mem := rfl

@[simp] theorem retire_cfg (s : State) : (retire s).cfg = s.cfg := rfl

@[simp] theorem retire_env (s : State) : (retire s).env = s.env := rfl

@[simp] theorem readReg_retire (s : State) (i : RegIdx) : readReg (retire s) i = readReg s i := rfl

/-! ### `jumpTo` -/

@[simp] theorem jumpTo_regs (s : State) (t : Word) : (jumpTo s t).regs = s.regs := rfl

@[simp] theorem jumpTo_pc (s : State) (t : Word) : (jumpTo s t).pc = t := rfl

@[simp] theorem jumpTo_hi (s : State) (t : Word) : (jumpTo s t).hi = s.hi := rfl

@[simp] theorem jumpTo_lo (s : State) (t : Word) : (jumpTo s t).lo = s.lo := rfl

@[simp] theorem jumpTo_epc (s : State) (t : Word) : (jumpTo s t).epc = s.epc := rfl

@[simp] theorem jumpTo_cause (s : State) (t : Word) : (jumpTo s t).cause = s.cause := rfl

@[simp] theorem jumpTo_status (s : State) (t : Word) : (jumpTo s t).status = s.status := rfl

@[simp] theorem jumpTo_bvr (s : State) (t : Word) : (jumpTo s t).bvr = s.bvr := rfl

@[simp] theorem jumpTo_diverr (s : State) (t : Word) : (jumpTo s t).diverr = s.diverr := rfl

@[simp] theorem jumpTo_errmode (s : State) (t : Word) : (jumpTo s t).errmode = s.errmode := rfl

@[simp] theorem jumpTo_suspended (s : State) (t : Word) : (jumpTo s t).suspended = s.suspended := rfl

@[simp] theorem jumpTo_mem (s : State) (t : Word) : (jumpTo s t).mem = s.mem := rfl

@[simp] theorem jumpTo_cfg (s : State) (t : Word) : (jumpTo s t).cfg = s.cfg := rfl

@[simp] theorem jumpTo_env (s : State) (t : Word) : (jumpTo s t).env = s.env := rfl

@[simp] theorem readReg_jumpTo (s : State) (t : Word) (i : RegIdx) : readReg (jumpTo s t) i = readReg s i := rfl

/-! ### `writeHiLo` -/

@[simp] theorem writeHiLo_regs (s : State) (h l : Word) : (writeHiLo s h l).regs = s.regs := rfl

@[simp] theorem writeHiLo_pc (s : State) (h l : Word) : (writeHiLo s h l).pc = s.pc + 4#32 := rfl

@[simp] theorem writeHiLo_hi (s : State) (h l : Word) : (writeHiLo s h l).hi = h := rfl

@[simp] theorem writeHiLo_lo (s : State) (h l : Word) : (writeHiLo s h l).lo = l := rfl

@[simp] theorem writeHiLo_epc (s : State) (h l : Word) : (writeHiLo s h l).epc = s.epc := rfl

@[simp] theorem writeHiLo_cause (s : State) (h l : Word) : (writeHiLo s h l).cause = s.cause := rfl

@[simp] theorem writeHiLo_status (s : State) (h l : Word) : (writeHiLo s h l).status = s.status := rfl

@[simp] theorem writeHiLo_bvr (s : State) (h l : Word) : (writeHiLo s h l).bvr = s.bvr := rfl

@[simp] theorem writeHiLo_diverr (s : State) (h l : Word) : (writeHiLo s h l).diverr = s.diverr := rfl

@[simp] theorem writeHiLo_errmode (s : State) (h l : Word) : (writeHiLo s h l).errmode = s.errmode := rfl

@[simp] theorem writeHiLo_suspended (s : State) (h l : Word) : (writeHiLo s h l).suspended = s.suspended := rfl

@[simp] theorem writeHiLo_mem (s : State) (h l : Word) : (writeHiLo s h l).mem = s.mem := rfl

@[simp] theorem writeHiLo_cfg (s : State) (h l : Word) : (writeHiLo s h l).cfg = s.cfg := rfl

@[simp] theorem writeHiLo_env (s : State) (h l : Word) : (writeHiLo s h l).env = s.env := rfl

@[simp] theorem readReg_writeHiLo (s : State) (h l : Word) (i : RegIdx) : readReg (writeHiLo s h l) i = readReg s i := rfl

/-! ### `raise` -/

@[simp] theorem raise_regs (s : State) (e : Exc) : (raise e s).regs = s.regs := rfl

@[simp] theorem raise_pc (s : State) (e : Exc) : (raise e s).pc = s.cfg.excVector := rfl

@[simp] theorem raise_hi (s : State) (e : Exc) : (raise e s).hi = s.hi := rfl

@[simp] theorem raise_lo (s : State) (e : Exc) : (raise e s).lo = s.lo := rfl

@[simp] theorem raise_epc (s : State) (e : Exc) : (raise e s).epc = s.pc := rfl

@[simp] theorem raise_cause (s : State) (e : Exc) : (raise e s).cause = causeValue s.cfg (e.code s.cfg) (intState s.env) := rfl

@[simp] theorem raise_status (s : State) (e : Exc) : (raise e s).status = s.status <<< 4 := rfl

@[simp] theorem raise_bvr (s : State) (e : Exc) : (raise e s).bvr = s.bvr := rfl

@[simp] theorem raise_diverr (s : State) (e : Exc) : (raise e s).diverr = s.diverr := rfl

@[simp] theorem raise_errmode (s : State) (e : Exc) : (raise e s).errmode = true := rfl

@[simp] theorem raise_suspended (s : State) (e : Exc) : (raise e s).suspended = s.suspended := rfl

@[simp] theorem raise_mem (s : State) (e : Exc) : (raise e s).mem = s.mem := rfl

@[simp] theorem raise_cfg (s : State) (e : Exc) : (raise e s).cfg = s.cfg := rfl

@[simp] theorem raise_env (s : State) (e : Exc) : (raise e s).env = s.env.takeIntState := rfl

@[simp] theorem readReg_raise (s : State) (e : Exc) (i : RegIdx) : readReg (raise e s) i = readReg s i := rfl

/-! ### `raiseDataBus` -/

@[simp] theorem raiseDataBus_regs (s : State) (ea : Word) : (raiseDataBus ea s).regs = s.regs := rfl

@[simp] theorem raiseDataBus_pc (s : State) (ea : Word) : (raiseDataBus ea s).pc = s.cfg.excVector := rfl

@[simp] theorem raiseDataBus_hi (s : State) (ea : Word) : (raiseDataBus ea s).hi = s.hi := rfl

@[simp] theorem raiseDataBus_lo (s : State) (ea : Word) : (raiseDataBus ea s).lo = s.lo := rfl

@[simp] theorem raiseDataBus_epc (s : State) (ea : Word) : (raiseDataBus ea s).epc = s.pc := rfl

@[simp] theorem raiseDataBus_cause (s : State) (ea : Word) : (raiseDataBus ea s).cause = causeValue s.cfg s.cfg.codeDbus (intState s.env) := rfl

@[simp] theorem raiseDataBus_status (s : State) (ea : Word) : (raiseDataBus ea s).status = s.status <<< 4 := rfl

@[simp] theorem raiseDataBus_bvr (s : State) (ea : Word) : (raiseDataBus ea s).bvr = ea := rfl

@[simp] theorem raiseDataBus_diverr (s : State) (ea : Word) : (raiseDataBus ea s).diverr = s.diverr := rfl

@[simp] theorem raiseDataBus_errmode (s : State) (ea : Word) : (raiseDataBus ea s).errmode = true := rfl

@[simp] theorem raiseDataBus_suspended (s : State) (ea : Word) : (raiseDataBus ea s).suspended = s.suspended := rfl

@[simp] theorem raiseDataBus_mem (s : State) (ea : Word) : (raiseDataBus ea s).mem = s.mem := rfl

@[simp] theorem raiseDataBus_cfg (s : State) (ea : Word) : (raiseDataBus ea s).cfg = s.cfg := rfl

@[simp] theorem raiseDataBus_env (s : State) (ea : Word) : (raiseDataBus ea s).env = s.env.takeIntState := rfl

@[simp] theorem readReg_raiseDataBus (s : State) (ea : Word) (i : RegIdx) : readReg (raiseDataBus ea s) i = readReg s i := rfl

/-! ### `writeBack` -/

@[simp] theorem writeBack_pc (s : State) (d : RegIdx) (v : Word) : (writeBack s d v).pc = s.pc + 4#32 := by
  simp [writeBack]

@[simp] theorem writeBack_hi (s : State) (d : RegIdx) (v : Word) : (writeBack s d v).hi = s.hi := by
  simp [writeBack]

@[simp] theorem writeBack_lo (s : State) (d : RegIdx) (v : Word) : (writeBack s d v).lo = s.lo := by
  simp [writeBack]

@[simp] theorem writeBack_epc (s : State) (d : RegIdx) (v : Word) : (writeBack s d v).epc = s.epc := by
  simp [writeBack]

@[simp] theorem writeBack_cause (s : State) (d : RegIdx) (v : Word) : (writeBack s d v).cause = s.cause := by
  simp [writeBack]

@[simp] theorem writeBack_status (s : State) (d : RegIdx) (v : Word) : (writeBack s d v).status = s.status := by
  simp [writeBack]

@[simp] theorem writeBack_bvr (s : State) (d : RegIdx) (v : Word) : (writeBack s d v).bvr = s.bvr := by
  simp [writeBack]

@[simp] theorem writeBack_diverr (s : State) (d : RegIdx) (v : Word) : (writeBack s d v).diverr = s.diverr := by
  simp [writeBack]

@[simp] theorem writeBack_errmode (s : State) (d : RegIdx) (v : Word) : (writeBack s d v).errmode = s.errmode := by
  simp [writeBack]

@[simp] theorem writeBack_suspended (s : State) (d : RegIdx) (v : Word) : (writeBack s d v).suspended = s.suspended := by
  simp [writeBack]

@[simp] theorem writeBack_mem (s : State) (d : RegIdx) (v : Word) : (writeBack s d v).mem = s.mem := by
  simp [writeBack]

@[simp] theorem writeBack_cfg (s : State) (d : RegIdx) (v : Word) : (writeBack s d v).cfg = s.cfg := by
  simp [writeBack]

@[simp] theorem writeBack_env (s : State) (d : RegIdx) (v : Word) : (writeBack s d v).env = s.env := by
  simp [writeBack]

theorem readReg_writeBack (s : State) (d : RegIdx) (v : Word) (i : RegIdx) :
    readReg (writeBack s d v) i = if i = d ∧ d ≠ 0#5 then v else readReg s i := by
  simp [writeBack, readReg_writeReg]

/-! ### `afterRead` -/

@[simp] theorem afterRead_regs (s : State) (a : Word) (n : AccessWidth) : (afterRead s a n).regs = s.regs := by
  unfold afterRead; split <;> rfl

@[simp] theorem afterRead_pc (s : State) (a : Word) (n : AccessWidth) : (afterRead s a n).pc = s.pc := by
  unfold afterRead; split <;> rfl

@[simp] theorem afterRead_hi (s : State) (a : Word) (n : AccessWidth) : (afterRead s a n).hi = s.hi := by
  unfold afterRead; split <;> rfl

@[simp] theorem afterRead_lo (s : State) (a : Word) (n : AccessWidth) : (afterRead s a n).lo = s.lo := by
  unfold afterRead; split <;> rfl

@[simp] theorem afterRead_epc (s : State) (a : Word) (n : AccessWidth) : (afterRead s a n).epc = s.epc := by
  unfold afterRead; split <;> rfl

@[simp] theorem afterRead_cause (s : State) (a : Word) (n : AccessWidth) : (afterRead s a n).cause = s.cause := by
  unfold afterRead; split <;> rfl

@[simp] theorem afterRead_status (s : State) (a : Word) (n : AccessWidth) : (afterRead s a n).status = s.status := by
  unfold afterRead; split <;> rfl

@[simp] theorem afterRead_bvr (s : State) (a : Word) (n : AccessWidth) : (afterRead s a n).bvr = s.bvr := by
  unfold afterRead; split <;> rfl

@[simp] theorem afterRead_diverr (s : State) (a : Word) (n : AccessWidth) : (afterRead s a n).diverr = s.diverr := by
  unfold afterRead; split <;> rfl

@[simp] theorem afterRead_errmode (s : State) (a : Word) (n : AccessWidth) : (afterRead s a n).errmode = s.errmode := by
  unfold afterRead; split <;> rfl

@[simp] theorem afterRead_suspended (s : State) (a : Word) (n : AccessWidth) : (afterRead s a n).suspended = s.suspended := by
  unfold afterRead; split <;> rfl

@[simp] theorem afterRead_mem (s : State) (a : Word) (n : AccessWidth) : (afterRead s a n).mem = s.mem := by
  unfold afterRead; split <;> rfl

@[simp] theorem afterRead_cfg (s : State) (a : Word) (n : AccessWidth) : (afterRead s a n).cfg = s.cfg := by
  unfold afterRead; split <;> rfl

@[simp] theorem readReg_afterRead (s : State) (a : Word) (n : AccessWidth) (i : RegIdx) :
    readReg (afterRead s a n) i = readReg s i := readReg_congr (by simp) i

/-! ### `storeByte`, `storeBytes`, `afterWrite` -/

@[simp] theorem storeByte_regs (s : State) (a : Word) (b : Byte) : (storeByte s a b).regs = s.regs := by
  unfold storeByte; repeat' split
  all_goals rfl

@[simp] theorem storeBytes_regs (s : State) (l : List (Word × Byte)) : (storeBytes s l).regs = s.regs := by
  induction l generalizing s with
  | nil => rfl
  | cons c l ih => obtain ⟨a, b⟩ := c; simp [storeBytes, ih]

@[simp] theorem afterWrite_regs (s : State) (a : Word) (n : AccessWidth) (v : Word) : (afterWrite s a n v).regs = s.regs := by
  simp [afterWrite]

@[simp] theorem storeByte_pc (s : State) (a : Word) (b : Byte) : (storeByte s a b).pc = s.pc := by
  unfold storeByte; repeat' split
  all_goals rfl

@[simp] theorem storeBytes_pc (s : State) (l : List (Word × Byte)) : (storeBytes s l).pc = s.pc := by
  induction l generalizing s with
  | nil => rfl
  | cons c l ih => obtain ⟨a, b⟩ := c; simp [storeBytes, ih]

@[simp] theorem afterWrite_pc (s : State) (a : Word) (n : AccessWidth) (v : Word) : (afterWrite s a n v).pc = s.pc := by
  simp [afterWrite]

@[simp] theorem storeByte_hi (s : State) (a : Word) (b : Byte) : (storeByte s a b).hi = s.hi := by
  unfold storeByte; repeat' split
  all_goals rfl

@[simp] theorem storeBytes_hi (s : State) (l : List (Word × Byte)) : (storeBytes s l).hi = s.hi := by
  induction l generalizing s with
  | nil => rfl
  | cons c l ih => obtain ⟨a, b⟩ := c; simp [storeBytes, ih]

@[simp] theorem afterWrite_hi (s : State) (a : Word) (n : AccessWidth) (v : Word) : (afterWrite s a n v).hi = s.hi := by
  simp [afterWrite]

@[simp] theorem storeByte_lo (s : State) (a : Word) (b : Byte) : (storeByte s a b).lo = s.lo := by
  unfold storeByte; repeat' split
  all_goals rfl

@[simp] theorem storeBytes_lo (s : State) (l : List (Word × Byte)) : (storeBytes s l).lo = s.lo := by
  induction l generalizing s with
  | nil => rfl
  | cons c l ih => obtain ⟨a, b⟩ := c; simp [storeBytes, ih]

@[simp] theorem afterWrite_lo (s : State) (a : Word) (n : AccessWidth) (v : Word) : (afterWrite s a n v).lo = s.lo := by
  simp [afterWrite]

@[simp] theorem storeByte_epc (s : State) (a : Word) (b : Byte) : (storeByte s a b).epc = s.epc := by
  unfold storeByte; repeat' split
  all_goals rfl

@[simp] theorem storeBytes_epc (s : State) (l : List (Word × Byte)) : (storeBytes s l).epc = s.epc := by
  induction l generalizing s with
  | nil => rfl
  | cons c l ih => obtain ⟨a, b⟩ := c; simp [storeBytes, ih]

@[simp] theorem afterWrite_epc (s : State) (a : Word) (n : AccessWidth) (v : Word) : (afterWrite s a n v).epc = s.epc := by
  simp [afterWrite]

@[simp] theorem storeByte_cause (s : State) (a : Word) (b : Byte) : (storeByte s a b).cause = s.cause := by
  unfold storeByte; repeat' split
  all_goals rfl

@[simp] theorem storeBytes_cause (s : State) (l : List (Word × Byte)) : (storeBytes s l).cause = s.cause := by
  induction l generalizing s with
  | nil => rfl
  | cons c l ih => obtain ⟨a, b⟩ := c; simp [storeBytes, ih]

@[simp] theorem afterWrite_cause (s : State) (a : Word) (n : AccessWidth) (v : Word) : (afterWrite s a n v).cause = s.cause := by
  simp [afterWrite]

@[simp] theorem storeByte_status (s : State) (a : Word) (b : Byte) : (storeByte s a b).status = s.status := by
  unfold storeByte; repeat' split
  all_goals rfl

@[simp] theorem storeBytes_status (s : State) (l : List (Word × Byte)) : (storeBytes s l).status = s.status := by
  induction l generalizing s with
  | nil => rfl
  | cons c l ih => obtain ⟨a, b⟩ := c; simp [storeBytes, ih]

@[simp] theorem afterWrite_status (s : State) (a : Word) (n : AccessWidth) (v : Word) : (afterWrite s a n v).status = s.status := by
  simp [afterWrite]

@[simp] theorem storeByte_bvr (s : State) (a : Word) (b : Byte) : (storeByte s a b).bvr = s.bvr := by
  unfold storeByte; repeat' split
  all_goals rfl

@[simp] theorem storeBytes_bvr (s : State) (l : List (Word × Byte)) : (storeBytes s l).bvr = s.bvr := by
  induction l generalizing s with
  | nil => rfl
  | cons c l ih => obtain ⟨a, b⟩ := c; simp [storeBytes, ih]

@[simp] theorem afterWrite_bvr (s : State) (a : Word) (n : AccessWidth) (v : Word) : (afterWrite s a n v).bvr = s.bvr := by
  simp [afterWrite]

@[simp] theorem storeByte_diverr (s : State) (a : Word) (b : Byte) : (storeByte s a b).diverr = s.diverr := by
  unfold storeByte; repeat' split
  all_goals rfl

@[simp] theorem storeBytes_diverr (s : State) (l : List (Word × Byte)) : (storeBytes s l).diverr = s.diverr := by
  induction l generalizing s with
  | nil => rfl
  | cons c l ih => obtain ⟨a, b⟩ := c; simp [storeBytes, ih]

@[simp] theorem afterWrite_diverr (s : State) (a : Word) (n : AccessWidth) (v : Word) : (afterWrite s a n v).diverr = s.diverr := by
  simp [afterWrite]

@[simp] theorem storeByte_errmode (s : State) (a : Word) (b : Byte) : (storeByte s a b).errmode = s.errmode := by
  unfold storeByte; repeat' split
  all_goals rfl

@[simp] theorem storeBytes_errmode (s : State) (l : List (Word × Byte)) : (storeBytes s l).errmode = s.errmode := by
  induction l generalizing s with
  | nil => rfl
  | cons c l ih => obtain ⟨a, b⟩ := c; simp [storeBytes, ih]

@[simp] theorem afterWrite_errmode (s : State) (a : Word) (n : AccessWidth) (v : Word) : (afterWrite s a n v).errmode = s.errmode := by
  simp [afterWrite]

@[simp] theorem storeByte_suspended (s : State) (a : Word) (b : Byte) : (storeByte s a b).suspended = s.suspended := by
  unfold storeByte; repeat' split
  all_goals rfl

@[simp] theorem storeBytes_suspended (s : State) (l : List (Word × Byte)) : (storeBytes s l).suspended = s.suspended := by
  induction l generalizing s with
  | nil => rfl
  | cons c l ih => obtain ⟨a, b⟩ := c; simp [storeBytes, ih]

@[simp] theorem afterWrite_suspended (s : State) (a : Word) (n : AccessWidth) (v : Word) : (afterWrite s a n v).suspended = s.suspended := by
  simp [afterWrite]

@[simp] theorem storeByte_cfg (s : State) (a : Word) (b : Byte) : (storeByte s a b).cfg = s.cfg := by
  unfold storeByte; repeat' split
  all_goals rfl

@[simp] theorem storeBytes_cfg (s : State) (l : List (Word × Byte)) : (storeBytes s l).cfg = s.cfg := by
  induction l generalizing s with
  | nil => rfl
  | cons c l ih => obtain ⟨a, b⟩ := c; simp [storeBytes, ih]

@[simp] theorem afterWrite_cfg (s : State) (a : Word) (n : AccessWidth) (v : Word) : (afterWrite s a n v).cfg = s.cfg := by
  simp [afterWrite]

@[simp] theorem readReg_afterWrite (s : State) (a : Word) (n : AccessWidth) (v : Word) (i : RegIdx) :
    readReg (afterWrite s a n v) i = readReg s i := readReg_congr (by simp) i

/-! ### `applyReply`, `syscallNotify` -/

@[simp] theorem applyReply_pc (s : State) (r : SyscallReply) : (applyReply s r).pc = s.pc := by
  unfold applyReply; cases r.result <;> simp

@[simp] theorem applyReply_hi (s : State) (r : SyscallReply) : (applyReply s r).hi = s.hi := by
  unfold applyReply; cases r.result <;> simp

@[simp] theorem applyReply_lo (s : State) (r : SyscallReply) : (applyReply s r).lo = s.lo := by
  unfold applyReply; cases r.result <;> simp

@[simp] theorem applyReply_epc (s : State) (r : SyscallReply) : (applyReply s r).epc = s.epc := by
  unfold applyReply; cases r.result <;> simp

@[simp] theorem applyReply_cause (s : State) (r : SyscallReply) : (applyReply s r).cause = s.cause := by
  unfold applyReply; cases r.result <;> simp

@[simp] theorem applyReply_status (s : State) (r : SyscallReply) : (applyReply s r).status = s.status := by
  unfold applyReply; cases r.result <;> simp

@[simp] theorem applyReply_bvr (s : State) (r : SyscallReply) : (applyReply s r).bvr = s.bvr := by
  unfold applyReply; cases r.result <;> simp

@[simp] theorem applyReply_diverr (s : State) (r : SyscallReply) : (applyReply s r).diverr = s.diverr := by
  unfold applyReply; cases r.result <;> simp

@[simp] theorem applyReply_errmode (s : State) (r : SyscallReply) : (applyReply s r).errmode = s.errmode := by
  unfold applyReply; cases r.result <;> simp

@[simp] theorem applyReply_cfg (s : State) (r : SyscallReply) : (applyReply s r).cfg = s.cfg := by
  unfold applyReply; cases r.result <;> simp

@[simp] theorem applyReply_env (s : State) (r : SyscallReply) : (applyReply s r).env = s.env := by
  unfold applyReply; cases r.result <;> simp

@[simp] theorem applyReply_mem (s : State) (r : SyscallReply) :
    (applyReply s r).mem = hostWrites s.cfg.map s.mem r.writes := by
  unfold applyReply; cases r.result <;> simp

@[simp] theorem applyReply_suspended (s : State) (r : SyscallReply) :
    (applyReply s r).suspended = (s.suspended || r.suspend) := by
  unfold applyReply; cases r.result <;> simp

theorem readReg_applyReply (s : State) (r : SyscallReply) (i : RegIdx) :
    readReg (applyReply s r) i = if i = 2#5 then r.result.getD (readReg s 2#5) else readReg s i := by
  unfold applyReply
  cases h : r.result with
  | none =>
    by_cases hi : i = 2#5
    · subst hi; simp; exact readReg_congr rfl _
    · simp [hi]; exact readReg_congr rfl _
  | some v =>
    simp only [readReg_writeReg]
    by_cases hi : i = 2#5
    · simp [hi]
    · simp [hi]; exact readReg_congr rfl _

@[simp] theorem syscallNotify_pc (s : State) : (syscallNotify s).pc = s.pc := by
  simp [syscallNotify]

@[simp] theorem syscallNotify_hi (s : State) : (syscallNotify s).hi = s.hi := by
  simp [syscallNotify]

@[simp] theorem syscallNotify_lo (s : State) : (syscallNotify s).lo = s.lo := by
  simp [syscallNotify]

@[simp] theorem syscallNotify_epc (s : State) : (syscallNotify s).epc = s.epc := by
  simp [syscallNotify]

@[simp] theorem syscallNotify_cause (s : State) : (syscallNotify s).cause = s.cause := by
  simp [syscallNotify]

@[simp] theorem syscallNotify_status (s : State) : (syscallNotify s).status = s.status := by
  simp [syscallNotify]

@[simp] theorem syscallNotify_bvr (s : State) : (syscallNotify s).bvr = s.bvr := by
  simp [syscallNotify]

@[simp] theorem syscallNotify_diverr (s : State) : (syscallNotify s).diverr = s.diverr := by
  simp [syscallNotify]

@[simp] theorem syscallNotify_errmode (s : State) : (syscallNotify s).errmode = s.errmode := by
  simp [syscallNotify]

@[simp] theorem syscallNotify_cfg (s : State) : (syscallNotify s).cfg = s.cfg := by
  simp [syscallNotify]

@[simp] theorem syscallNotify_env (s : State) :
    (syscallNotify s).env = s.env.takeSyscall (syscallRequest s) (syscallReply s) := by
  simp [syscallNotify]

@[simp] theorem syscallNotify_mem (s : State) :
    (syscallNotify s).mem = hostWrites s.cfg.map s.mem (syscallReply s).writes := by
  simp [syscallNotify]

@[simp] theorem syscallNotify_suspended (s : State) :
    (syscallNotify s).suspended = (s.suspended || (syscallReply s).suspend) := by
  simp [syscallNotify]

theorem readReg_syscallNotify (s : State) (i : RegIdx) :
    readReg (syscallNotify s) i =
      if i = 2#5 then (syscallReply s).result.getD (readReg s 2#5) else readReg s i := by
  simp only [syscallNotify, readReg_applyReply]
  rfl

end Sys2Proof.Machine
end

