-- ==== Sys2Proof/Laws/Access.lean ====
section
/-! SUPPORT. The laws of the router and the access primitives: when an access can be made, what a store changes, what a
load, a store and a fetch can answer. -/

namespace Sys2Proof.Machine

/-! ### The router -/

/-- The offset of a routed address lies in the buffer exactly where the byte is one of a buffer (R32). -/
theorem inBuffer_of_byteTarget {c : Config} {k : AccessKind} {a : Word} {r : Region}
    (h : byteTarget c k a = .buffer r) : inBuffer c.map a.toNat = true := by
  unfold byteTarget at h
  have key : (route c.map a).2 < bufferSize c.map (route c.map a).1 := by
    revert h
    generalize route c.map a = p
    obtain ⟨q, o⟩ := p
    cases q <;> simp <;> (repeat' split) <;> simp_all
    all_goals (rintro rfl; assumption)
  simp only [inBuffer, BitVec.ofNat_toNat, BitVec.setWidth_eq, Bool.and_eq_true, decide_eq_true_eq]
  exact ⟨a.isLt, key⟩

/-- The region a byte target names is the routed one. -/
theorem route_of_byteTarget {c : Config} {k : AccessKind} {a : Word} {r : Region}
    (h : byteTarget c k a = .buffer r) : (route c.map a).1 = r := by
  revert h
  unfold byteTarget
  generalize route c.map a = p
  obtain ⟨q, o⟩ := p
  cases q <;> simp <;> (repeat' split) <;> simp_all

/-! ### The fallback -/

theorem fallsBack_iff (c : Config) (a : Word) : fallsBack c a = true ↔ (route c.map a).1 = .zero := by
  simp [fallsBack]

/-- On an ordered map the fallback is what lies below the lowest base (R34). -/
theorem fallsBack_iff_lt {c : Config} (h : c.map.wf) (a : Word) :
    fallsBack c a = true ↔ a.toNat < c.map.textBase.toNat := by
  obtain ⟨h1, h2, h3, h4, h5, -⟩ := h
  rw [fallsBack_iff]
  unfold route
  repeat' split
  all_goals simp
  all_goals omega

theorem routedAddrs_of_fallsBack {c : Config} {a : Word} (h : fallsBack c a = true) (n : AccessWidth) :
    routedAddrs c a n = [] := by simp [routedAddrs, h]

theorem routedAddrs_of_not_fallsBack {c : Config} {a : Word} (h : fallsBack c a = false) (n : AccessWidth) :
    routedAddrs c a n = accessAddrs a n := by simp [routedAddrs, h]

theorem readValue_of_fallsBack {s : State} {a : Word} (h : fallsBack s.cfg a = true) (n : AccessWidth) :
    readValue s a n = 0#32 := by simp [readValue, h]

theorem readValue_of_not_fallsBack {s : State} {a : Word} (h : fallsBack s.cfg a = false) (n : AccessWidth) :
    readValue s a n = heldValue s a n := by simp [readValue, h]

/-- Where the fallback answers, a read takes nothing from the stub and a write changes nothing (R34). -/
theorem afterRead_of_fallsBack {s : State} {a : Word} (h : fallsBack s.cfg a = true) (n : AccessWidth) :
    afterRead s a n = s := by simp [afterRead, routedAddrs_of_fallsBack h, touchesIo]

theorem afterWrite_of_fallsBack {s : State} {a : Word} (h : fallsBack s.cfg a = true) (n : AccessWidth) (v : Word) :
    afterWrite s a n v = s := by simp [afterWrite, routedAddrs_of_fallsBack h, storeBytes]

/-- An address that routes to a buffer is not the fallback's. -/
theorem fallsBack_of_byteTarget {c : Config} {k : AccessKind} {a : Word} {r : Region}
    (h : byteTarget c k a = .buffer r) : fallsBack c a = false := by
  cases hf : fallsBack c a with
  | false => rfl
  | true =>
    rw [fallsBack_iff] at hf
    unfold byteTarget at h
    revert h hf
    generalize route c.map a = p
    obtain ⟨q, o⟩ := p
    rintro h rfl
    cases h

/-! ### Access status -/

theorem accessStatus_ok_iff (c : Config) (k : AccessKind) (l : List Word) :
    accessStatus c k l = .ok ↔ ∀ a ∈ l, byteTarget c k a ≠ .busError ∧ byteTarget c k a ≠ .beyondBuffer := by
  unfold accessStatus
  split
  · rename_i h
    simp only [List.any_eq_true, decide_eq_true_eq] at h
    obtain ⟨a, ha, he⟩ := h
    simp only [reduceCtorEq, false_iff]
    exact fun hall => (hall a ha).1 he
  · rename_i h
    split
    · rename_i h'
      simp only [List.any_eq_true, decide_eq_true_eq] at h'
      obtain ⟨a, ha, he⟩ := h'
      simp only [reduceCtorEq, false_iff]
      exact fun hall => (hall a ha).2 he
    · rename_i h'
      simp only [List.any_eq_true, decide_eq_true_eq, not_exists, not_and] at h h'
      exact ⟨fun _ a ha => ⟨h a ha, h' a ha⟩, fun _ => rfl⟩

theorem accessStatus_busError_iff (c : Config) (k : AccessKind) (l : List Word) :
    accessStatus c k l = .busError ↔ ∃ a ∈ l, byteTarget c k a = .busError := by
  unfold accessStatus
  split
  · rename_i h
    simp only [List.any_eq_true, decide_eq_true_eq] at h
    exact ⟨fun _ => h, fun _ => rfl⟩
  · rename_i h
    simp only [List.any_eq_true, decide_eq_true_eq] at h
    refine ⟨fun h' => ?_, fun h' => (h h').elim⟩
    split at h' <;> simp at h'

theorem accessStatus_beyondBuffer_iff (c : Config) (k : AccessKind) (l : List Word) :
    accessStatus c k l = .beyondBuffer ↔
      (∀ a ∈ l, byteTarget c k a ≠ .busError) ∧ ∃ a ∈ l, byteTarget c k a = .beyondBuffer := by
  unfold accessStatus
  split
  · rename_i h
    simp only [List.any_eq_true, decide_eq_true_eq] at h
    obtain ⟨a, ha, he⟩ := h
    simp only [reduceCtorEq, false_iff, not_and]
    exact fun hall => (hall a ha he).elim
  · rename_i h
    simp only [List.any_eq_true, decide_eq_true_eq, not_exists, not_and] at h
    split
    · rename_i h'
      simp only [List.any_eq_true, decide_eq_true_eq] at h'
      exact ⟨fun _ => ⟨h, h'⟩, fun _ => rfl⟩
    · rename_i h'
      simp only [List.any_eq_true, decide_eq_true_eq] at h'
      simp only [reduceCtorEq, false_iff, not_and]
      exact fun _ => h'

theorem accessStatus_of_accessible {c : Config} {k : AccessKind} {ea : Word} {n : AccessWidth}
    (h : Accessible c k ea n) : accessStatus c k (routedAddrs c ea n) = .ok :=
  (accessStatus_ok_iff c k _).mpr h

/-! ### Loads, stores, fetch: what they can answer -/

/-- A load that answers a next state has loaded or has taken the data bus error. -/
theorem load_next {s t : State} {rt : RegIdx} {ea : Word} {n : AccessWidth} {f : Word → Word}
    (h : load s rt ea n f = .next t) :
    (accessStatus s.cfg .read (routedAddrs s.cfg ea n) = .ok ∧
      t = writeBack (afterRead s ea n) rt (f (readValue s ea n))) ∨
    (accessStatus s.cfg .read (routedAddrs s.cfg ea n) = .busError ∧ t = raiseDataBus ea s) := by
  unfold load at h
  split at h <;> simp_all

/-- A store that answers a next state has stored or has taken the data bus error. -/
theorem store_next {s t : State} {ea : Word} {n : AccessWidth} {v : Word} (h : store s ea n v = .next t) :
    (accessStatus s.cfg .write (routedAddrs s.cfg ea n) = .ok ∧ t = retire (afterWrite s ea n v)) ∨
    (accessStatus s.cfg .write (routedAddrs s.cfg ea n) = .busError ∧ t = raiseDataBus ea s) := by
  unfold store at h
  split at h <;> simp_all

theorem heldByte_buffer {s : State} {a : Word} {r : Region} (h : byteTarget s.cfg .read a = .buffer r) :
    heldByte s a = s.mem.read a.toNat := by
  simp [heldByte, h]

theorem heldByte_fallback {s : State} {a : Word} (h : byteTarget s.cfg .read a = .fallback) :
    heldByte s a = 0#8 := by
  simp [heldByte, h]

/-- `pc[1:0] = 0` says that `pc` is a multiple of 4. -/
theorem extractLsb'_two_eq_zero_iff (w : Word) : w.extractLsb' 0 2 = 0#2 ↔ w.toNat % 4 = 0 := by
  rw [← BitVec.toNat_inj]
  simp

/-- A fetchable state fetches the word at its `pc` (R38). -/
theorem fetch_of_fetchable {s : State} (h : Fetchable s) : fetch s = .ok (wordAtPc s) := by
  obtain ⟨hal, hb⟩ := h
  have h0 : byteTarget s.cfg .read s.pc = .buffer (activeRegion s.errmode) := by simpa using hb 0 (by omega)
  have h1 := hb 1 (by omega)
  have h2 := hb 2 (by omega)
  have h3 := hb 3 (by omega)
  have hs : accessStatus s.cfg .read (accessAddrs s.pc .word) = .ok := by
    rw [accessStatus_ok_iff]
    intro a ha
    simp only [accessAddrs, List.mem_cons, List.not_mem_nil, or_false] at ha
    rcases ha with rfl | rfl | rfl | rfl <;> simp [h0, h1, h2, h3]
  have hr : ((accessAddrs s.pc .word).all fun a => decide ((route s.cfg.map a).1 = activeRegion s.errmode)) = true := by
    simp [accessAddrs, route_of_byteTarget h0, route_of_byteTarget h1, route_of_byteTarget h2,
      route_of_byteTarget h3]
  unfold fetch
  rw [if_neg (by simpa using (extractLsb'_two_eq_zero_iff s.pc).mpr hal), if_pos hr, hs]
  simp [heldValue, wordAtPc, wordOfBytes, heldByte_buffer h0, heldByte_buffer h1, heldByte_buffer h2,
    heldByte_buffer h3]

/-- An address that routes to a region with a buffer, and is neither a bus error nor beyond the buffer, is a byte of it. -/
theorem byteTarget_of_route {c : Config} {k : AccessKind} {a : Word} {r : Region} (hr : (route c.map a).1 = r)
    (hio : r ≠ .io) (hz : r ≠ .zero) (he : byteTarget c k a ≠ .busError) (hb : byteTarget c k a ≠ .beyondBuffer) :
    byteTarget c k a = .buffer r := by
  revert he hb
  unfold byteTarget
  generalize route c.map a = p at hr
  obtain ⟨q, o⟩ := p
  dsimp only at hr
  subst hr
  cases q
  case io => exact absurd rfl hio
  case zero => exact absurd rfl hz
  all_goals
    dsimp only
    split
    · exact fun he _ => absurd rfl he
    · split
      · exact fun _ _ => rfl
      · exact fun _ hb => absurd rfl hb

/-- A fetch that has a word fetches the word at `pc` of a fetchable state (R38). -/
theorem fetch_ok {s : State} {w : Word} (h : fetch s = .ok w) : Fetchable s ∧ w = wordAtPc s := by
  have hf : Fetchable s := by
    unfold fetch at h
    split at h
    · cases h
    rename_i hal
    split at h
    · rename_i hr
      split at h
      · rename_i hs
        refine ⟨(extractLsb'_two_eq_zero_iff s.pc).mp (by simpa using hal), fun k hk => ?_⟩
        have hm : s.pc + BitVec.ofNat 32 k ∈ accessAddrs s.pc .word := by
          have : k = 0 ∨ k = 1 ∨ k = 2 ∨ k = 3 := by omega
          rcases this with rfl | rfl | rfl | rfl <;> simp [accessAddrs]
        have hreg := (List.all_eq_true.mp hr) _ hm
        have hok := (accessStatus_ok_iff _ _ _).mp hs _ hm
        refine byteTarget_of_route (of_decide_eq_true hreg) ?_ ?_ hok.1 hok.2
        all_goals (unfold activeRegion; split <;> nofun)
      · cases h
      · cases h
    · cases h
  refine ⟨hf, ?_⟩
  rw [fetch_of_fetchable hf] at h
  injection h with h
  exact h.symm

/-! ### What a store changes -/

theorem storeByte_inv {s : State} (h : s.Inv) (a : Word) (b : Byte) : (storeByte s a b).Inv := by
  unfold storeByte
  split
  · rename_i r hr
    split
    · refine ⟨Memory.write_wf h.memWf _ _, fun c hc => ?_, h.cfgWf, h.delivery⟩
      rcases Memory.mem_write hc with hc | rfl
      · exact h.memBacked c hc
      · exact inBuffer_of_byteTarget hr
    · exact h
  · exact ⟨h.memWf, h.memBacked, h.cfgWf, h.delivery⟩
  all_goals exact h

theorem storeBytes_inv {s : State} (h : s.Inv) (l : List (Word × Byte)) : (storeBytes s l).Inv := by
  induction l generalizing s with
  | nil => exact h
  | cons c l ih => obtain ⟨a, b⟩ := c; exact ih (storeByte_inv h a b)

theorem afterWrite_inv {s : State} (h : s.Inv) (a : Word) (n : AccessWidth) (v : Word) : (afterWrite s a n v).Inv :=
  storeBytes_inv h _

/-- The canonical form is kept by every store. -/
theorem storeByte_memWf {s : State} (h : s.mem.wf) (a : Word) (b : Byte) : (storeByte s a b).mem.wf := by
  unfold storeByte
  repeat' split
  all_goals first | exact Memory.write_wf h _ _ | exact h

theorem storeBytes_memWf {s : State} (h : s.mem.wf) (l : List (Word × Byte)) : (storeBytes s l).mem.wf := by
  induction l generalizing s with
  | nil => exact h
  | cons c l ih => obtain ⟨a, b⟩ := c; exact ih (storeByte_memWf h a b)

theorem takesStore_iff (c : Config) (a : Word) :
    takesStore c a = true ↔ ∃ r, byteTarget c .write a = .buffer r ∧ storesTo c r = true := by
  cases h : byteTarget c .write a <;> simp [takesStore, h]

/-- One byte of memory after a stored byte: the stored one where the store lands in a buffer that takes it. -/
theorem storeByte_read {s : State} (h : s.mem.wf) (a : Word) (b : Byte) (x : Nat) :
    (storeByte s a b).mem.read x =
      if x = a.toNat ∧ takesStore s.cfg a = true then b else s.mem.read x := by
  cases ht : byteTarget s.cfg .write a with
  | buffer r =>
    cases hw : storesTo s.cfg r <;> simp [storeByte, takesStore, ht, hw, Memory.read_write h]
  | _ => simp [storeByte, takesStore, ht]

/-- A byte outside the stored addresses reads as before. -/
theorem storeBytes_read_of_ne {s : State} (h : s.mem.wf) (l : List (Word × Byte)) (x : Nat)
    (hx : ∀ p ∈ l, x ≠ p.1.toNat) : (storeBytes s l).mem.read x = s.mem.read x := by
  induction l generalizing s with
  | nil => rfl
  | cons c l ih =>
    obtain ⟨a, b⟩ := c
    simp only [storeBytes]
    rw [ih (storeByte_memWf h a b) fun p hp => hx p (by simp [hp]), storeByte_read h,
      if_neg (fun hc => hx (a, b) (by simp) hc.1)]

theorem afterWrite_read_of_not_mem {s : State} (h : s.mem.wf) (a : Word) (n : AccessWidth) (v : Word) (x : Nat)
    (hx : ∀ p ∈ routedAddrs s.cfg a n, x ≠ p.toNat) : (afterWrite s a n v).mem.read x = s.mem.read x :=
  storeBytes_read_of_ne h _ x fun p hp => hx p.1 (List.of_mem_zip hp).1

end Sys2Proof.Machine
end

