-- ==== Sys2Proof/Laws/Arith.lean ====
section
/-! SUPPORT. The exact-integer definitions of the operand forms as bit-vector operations. -/

namespace Sys2Proof.Machine

@[simp] theorem u32_s32 (a : Word) : u32 (s32 a) = a := by simp [u32, s32]

theorem u32_s32_add (a b : Word) : u32 (s32 a + s32 b) = a + b := by
  simp [u32, s32, BitVec.ofInt_add]

theorem u32_s32_sub (a b : Word) : u32 (s32 a - s32 b) = a - b := by
  rw [sub_eq_add_neg, u32, BitVec.ofInt_add, BitVec.ofInt_neg]
  simp [s32, BitVec.sub_eq_add_neg]

theorem ltSigned_eq (a b : Word) : ltSigned a b = a.slt b := rfl

theorem ltUnsigned_eq (a b : Word) : ltUnsigned a b = a.ult b := rfl

theorem overflows_eq_false_iff (r : Int) : overflows r = false ↔ -2147483648 ≤ r ∧ r ≤ 2147483647 := by
  simp [overflows]

theorem overflows_eq_true_iff (r : Int) : overflows r = true ↔ r < -2147483648 ∨ 2147483647 < r := by
  simp [overflows]

theorem shl_eq (v : Word) (n : BitVec 5) : shl v n = v <<< n.toNat := by
  apply BitVec.eq_of_toNat_eq
  simp only [shl, u32, BitVec.toNat_shiftLeft, Nat.shiftLeft_eq]
  rw [show ((v.toNat : Int) * 2 ^ n.toNat) = ((v.toNat * 2 ^ n.toNat : Nat) : Int) by push_cast; rfl]
  rw [BitVec.ofInt_natCast, BitVec.toNat_ofNat]

theorem shrl_eq (v : Word) (n : BitVec 5) : shrl v n = v >>> n.toNat := by
  apply BitVec.eq_of_toNat_eq
  simp only [shrl, u32, BitVec.toNat_ushiftRight, Nat.shiftRight_eq_div_pow]
  rw [show ((v.toNat : Int) / 2 ^ n.toNat) = ((v.toNat / 2 ^ n.toNat : Nat) : Int) by push_cast; rfl]
  rw [BitVec.ofInt_natCast, BitVec.toNat_ofNat, Nat.mod_eq_of_lt]
  exact lt_of_le_of_lt (Nat.div_le_self _ _) v.isLt

theorem shra_eq (v : Word) (n : BitVec 5) : shra v n = v.sshiftRight n.toNat := by
  unfold shra u32 s32
  rw [Int.fdiv_eq_ediv_of_nonneg _ (by positivity), BitVec.sshiftRight, Int.shiftRight_eq_div_pow]
  norm_cast

/-- `A + 4 + 4 * sext(imm)` in words (spec/44_control.md R120). -/
theorem branchTarget_eq (a : Word) (imm : Imm16) : branchTarget a imm = a + 4#32 + 4#32 * imm.signExtend 32 := by
  unfold branchTarget u32 s32 sext16
  rw [BitVec.ofInt_add, BitVec.ofInt_add, BitVec.ofInt_mul]
  simp

end Sys2Proof.Machine
end

