-- ==== Sys2Proof/Laws/Codec.lean ====
section
/-! SUPPORT. Small laws of the codec: the fields of a packed word, and the dispatch of canonical records. -/

namespace Sys2Proof

/-- Every canonical record dispatches to its instruction. -/
theorem select_record (i : Instr) : select i.record = .ok i := by
  cases i <;> rfl

/-- A typed record has every field. -/
theorem Record.toRaw_isValid (r : Record) : r.toRaw.isValid = true := by
  cases r <;> rfl

/-- A typed record's fields fit. -/
theorem Record.toRaw_fieldsFit (r : Record) : r.toRaw.fieldsFit = true := by
  cases r <;> simp [Record.toRaw, RawRecord.fieldsFit, RawRecord.fields] <;> omega

/-- Truncating a typed record gives it back. -/
theorem Record.truncate_toRaw (r : Record) : r.toRaw.truncate = some r := by
  cases r <;> simp [Record.toRaw, RawRecord.truncate]

/-- A typed record is well formed exactly where its shape agrees with its opcode. -/
theorem Record.wellFormed_eq (r : Record) : r.wellFormed = r.toRaw.shapeAgrees := by
  simp [Record.wellFormed, RawRecord.wellFormed, Record.toRaw_isValid, Record.toRaw_fieldsFit]

/-- Reducing fields to their widths keeps a record's format, and whether its shape agrees with its opcode. -/
theorem RawRecord.truncate_shape {r : RawRecord} {q : Record} (h : r.truncate = some q) :
    q.toRaw.format = r.format ∧ q.toRaw.shapeAgrees = r.shapeAgrees := by
  have low (x : Int) : ((BitVec.ofInt 6 x).toNat : Int) = x % 64 := by
    rw [BitVec.toNat_ofInt]
    omega
  unfold RawRecord.truncate at h
  split at h
  case h_4 => cases h
  all_goals
    injection h with h
    subst h
    refine ⟨rfl, ?_⟩
    simp only [Record.toRaw, RawRecord.shapeAgrees, RawRecord.fields, RawRecord.format, List.head?_cons, low]
    norm_num

/-- A record whose fields fit is the typed record it reduces to. -/
theorem RawRecord.truncate_fits {r : RawRecord} {q : Record} (h : r.truncate = some q) (hf : r.fieldsFit = true) :
    q.toRaw = r := by
  have fit (n : Nat) (x : Int) (h0 : 0 ≤ x) (h1 : x < 2 ^ n) : ((BitVec.ofInt n x).toNat : Int) = x := by
    rw [BitVec.toNat_ofInt, Int.toNat_of_nonneg (Int.emod_nonneg _ (by positivity))]
    exact Int.emod_eq_of_lt h0 (by exact_mod_cast h1)
  unfold RawRecord.truncate at h
  split at h
  case h_4 => cases h
  all_goals
    injection h with h
    subst h
    simp only [RawRecord.fieldsFit, RawRecord.fields, List.all_cons, List.all_nil, Bool.and_true, Bool.and_eq_true,
      decide_eq_true_eq] at hf
    simp only [Record.toRaw]
    simp_all only

theorem extract_append_high {m n : Nat} (x : BitVec m) (y : BitVec n) : (x ++ y).extractLsb' n m = x := by
  apply BitVec.eq_of_getLsbD_eq
  intro k hk
  simp only [BitVec.getLsbD_extractLsb', hk, decide_true, Bool.true_and, BitVec.getLsbD_append]
  simp

theorem extract_append_above {m n : Nat} (x : BitVec m) (y : BitVec n) (s l : Nat) (h : n ≤ s) :
    (x ++ y).extractLsb' s l = x.extractLsb' (s - n) l := by
  apply BitVec.eq_of_getLsbD_eq
  intro k hk
  simp only [BitVec.getLsbD_extractLsb', hk, decide_true, Bool.true_and, BitVec.getLsbD_append]
  rw [if_neg (by omega)]
  congr 1
  omega

theorem extract_append_low {m n : Nat} (x : BitVec m) (y : BitVec n) (s l : Nat) (h : s + l ≤ n) :
    (x ++ y).extractLsb' s l = y.extractLsb' s l := by
  apply BitVec.eq_of_getLsbD_eq
  intro k hk
  simp only [BitVec.getLsbD_extractLsb', hk, decide_true, Bool.true_and, BitVec.getLsbD_append]
  rw [if_pos (by omega)]

/-- The fields of a packed R record. -/
theorem pack_r_fields (opcode : Op6) (rs rt rd : RegIdx) (shamt : Shamt) (funct : Op6) :
    (pack (.r opcode rs rt rd shamt funct)).extractLsb' 26 6 = opcode ∧
    (pack (.r opcode rs rt rd shamt funct)).extractLsb' 21 5 = rs ∧
    (pack (.r opcode rs rt rd shamt funct)).extractLsb' 16 5 = rt ∧
    (pack (.r opcode rs rt rd shamt funct)).extractLsb' 11 5 = rd ∧
    (pack (.r opcode rs rt rd shamt funct)).extractLsb' 6 5 = shamt ∧
    (pack (.r opcode rs rt rd shamt funct)).extractLsb' 0 6 = funct := by
  unfold pack
  refine ⟨?_, ?_, ?_, ?_, ?_, ?_⟩
  all_goals
    apply BitVec.eq_of_getLsbD_eq
    intro k hk
    simp only [BitVec.getLsbD_extractLsb', hk, BitVec.getLsbD_append]
    interval_cases k <;> simp

/-- The fields of a packed I record. -/
theorem pack_i_fields (opcode : Op6) (rs rt : RegIdx) (imm : Imm16) :
    (pack (.i opcode rs rt imm)).extractLsb' 26 6 = opcode ∧ (pack (.i opcode rs rt imm)).extractLsb' 21 5 = rs ∧
    (pack (.i opcode rs rt imm)).extractLsb' 16 5 = rt ∧ (pack (.i opcode rs rt imm)).extractLsb' 0 16 = imm := by
  unfold pack
  refine ⟨?_, ?_, ?_, ?_⟩
  all_goals
    apply BitVec.eq_of_getLsbD_eq
    intro k hk
    simp only [BitVec.getLsbD_extractLsb', hk, BitVec.getLsbD_append]
    interval_cases k <;> simp

/-- The fields of a packed J record. -/
theorem pack_j_fields (opcode : Op6) (addr : Addr26) :
    (pack (.j opcode addr)).extractLsb' 26 6 = opcode ∧ (pack (.j opcode addr)).extractLsb' 0 26 = addr :=
  ⟨extract_append_high opcode addr, (extract_append_low opcode addr 0 26 (by omega)).trans (by simp)⟩

theorem append_toNat {m n : Nat} (x : BitVec m) (y : BitVec n) : (x ++ y).toNat = x.toNat * 2 ^ n + y.toNat := by
  rw [BitVec.toNat_append, ← Nat.shiftLeft_add_eq_or_of_lt y.isLt, Nat.shiftLeft_eq]

/-- Four bytes as a number, the lowest address the most significant (R76). -/
theorem wordOfBytes_toNat (b0 b1 b2 b3 : Byte) :
    (wordOfBytes b0 b1 b2 b3).toNat = ((b0.toNat * 256 + b1.toNat) * 256 + b2.toNat) * 256 + b3.toNat := by
  have h3 : (wordOfBytes b0 b1 b2 b3).toNat = _ := append_toNat (b0 ++ b1 ++ b2) b3
  have h2 : (b0 ++ b1 ++ b2 : BitVec 24).toNat = _ := append_toNat (b0 ++ b1) b2
  rw [h3, h2, append_toNat b0 b1]
  norm_num

/-- A word's four bytes make the word again (R77). -/
theorem wordOfBytes_extract (w : Word) :
    wordOfBytes (w.extractLsb' 24 8) (w.extractLsb' 16 8) (w.extractLsb' 8 8) (w.extractLsb' 0 8) = w := by
  unfold wordOfBytes
  apply BitVec.eq_of_getLsbD_eq
  intro k hk
  simp only [BitVec.getLsbD_append, BitVec.getLsbD_extractLsb']
  interval_cases k <;> simp

/-- A word is its six R fields side by side, whatever its format. -/
theorem pack_r_of_word (w : Word) :
    pack (.r (w.extractLsb' 26 6) (w.extractLsb' 21 5) (w.extractLsb' 16 5) (w.extractLsb' 11 5) (w.extractLsb' 6 5)
      (w.extractLsb' 0 6)) = w := by
  unfold pack
  apply BitVec.eq_of_getLsbD_eq
  intro k hk
  simp only [BitVec.getLsbD_append, BitVec.getLsbD_extractLsb']
  interval_cases k <;> simp

/-- Words are equal where their six R fields are. -/
theorem word_eq_iff (v w : Word) :
    v = w ↔ v.extractLsb' 26 6 = w.extractLsb' 26 6 ∧ v.extractLsb' 21 5 = w.extractLsb' 21 5 ∧
      v.extractLsb' 16 5 = w.extractLsb' 16 5 ∧ v.extractLsb' 11 5 = w.extractLsb' 11 5 ∧
      v.extractLsb' 6 5 = w.extractLsb' 6 5 ∧ v.extractLsb' 0 6 = w.extractLsb' 0 6 := by
  refine ⟨fun h => by simp [h], fun ⟨h1, h2, h3, h4, h5, h6⟩ => ?_⟩
  rw [← pack_r_of_word v, ← pack_r_of_word w, h1, h2, h3, h4, h5, h6]

/-- A masked comparison of words, field by field. -/
theorem and_eq_iff_fields (w m p : Word) :
    w &&& m = p ↔ w.extractLsb' 26 6 &&& m.extractLsb' 26 6 = p.extractLsb' 26 6 ∧
      w.extractLsb' 21 5 &&& m.extractLsb' 21 5 = p.extractLsb' 21 5 ∧
      w.extractLsb' 16 5 &&& m.extractLsb' 16 5 = p.extractLsb' 16 5 ∧
      w.extractLsb' 11 5 &&& m.extractLsb' 11 5 = p.extractLsb' 11 5 ∧
      w.extractLsb' 6 5 &&& m.extractLsb' 6 5 = p.extractLsb' 6 5 ∧
      w.extractLsb' 0 6 &&& m.extractLsb' 0 6 = p.extractLsb' 0 6 := by
  rw [word_eq_iff]
  simp only [BitVec.extractLsb'_and]

/-- The decoder on the fields of a word: the three formats' dispatch in one place. -/
def decodeFields (opcode : Op6) (rs rt rd : RegIdx) (shamt : Shamt) (funct : Op6) (imm : Imm16) (addr : Addr26) :
    Except DecodeError Instr :=
  if opcode = 0x00#6 then selectSpecial rs rt rd shamt funct
  else if opcode = 0x02#6 then .ok (.j addr)
  else if opcode = 0x03#6 then .ok (.jal addr)
  else select (.i opcode rs rt imm)

theorem decodeWord_eq_decodeFields (w : Word) :
    decodeWord w = decodeFields (w.extractLsb' 26 6) (w.extractLsb' 21 5) (w.extractLsb' 16 5) (w.extractLsb' 11 5)
      (w.extractLsb' 6 5) (w.extractLsb' 0 6) (w.extractLsb' 0 16) (w.extractLsb' 0 26) := by
  unfold decodeWord unpack decodeFields
  dsimp only
  split_ifs with h1 h2 h3 h4 h5
  · simp [select, h1]
  · simp [select, h3]
  · rcases h2 with h | h
    · contradiction
    · simp [select, h]
  · rcases h2 with h | h <;> contradiction
  · simp at h2; simp_all
  · simp at h2; simp_all
  · rfl

end Sys2Proof
end

