-- ==== Sys2Proof/Laws/Exec.lean ====
section
/-! SUPPORT. Everything an instruction and a step can do to the state, said once: invariants and whole-machine rules are
case analyses over `Effect` and need not unfold a meaning. -/

namespace Sys2Proof.Machine

/-- The shapes of the next state of an instruction executed at `s`. -/
inductive Effect (s : State) : State → Prop where
  | wrote (d : RegIdx) (v : Word) : Effect s (writeBack s d v)
  | loaded (d : RegIdx) (v ea : Word) (n : AccessWidth) (h : accessStatus s.cfg .read (routedAddrs s.cfg ea n) = .ok) :
      Effect s (writeBack (afterRead s ea n) d v)
  | stored (ea : Word) (n : AccessWidth) (v : Word) (h : accessStatus s.cfg .write (routedAddrs s.cfg ea n) = .ok) :
      Effect s (retire (afterWrite s ea n v))
  | jumped (target : Word) : Effect s (jumpTo s target)
  | linked (d : RegIdx) (target : Word) : Effect s (jumpTo (link s d) target)
  | wroteHiLo (hi lo : Word) : Effect s (writeHiLo s hi lo)
  | dividedByZero : Effect s (divideByZero s)
  | overflowed : Effect s (raise .overflow s)
  | undecoded : Effect s (raise .instructionBus s)
  | raisedDataBus (ea : Word) : Effect s (raiseDataBus ea s)
  | notified : Effect s (retire (syscallNotify s))
  | broke : Effect s { s with epc := s.pc, pc := s.cfg.breakVector }

theorem Effect.retired (s : State) : Effect s (retire s) := Effect.jumped (nextAddr s.pc)

theorem writeBackSigned_effect (s : State) (d : RegIdx) (r : Int) : Effect s (writeBackSigned s d r) := by
  unfold writeBackSigned
  split
  · exact .overflowed
  · exact .wrote d _

theorem branch_effect (s : State) (taken : Bool) (imm : Imm16) : Effect s (branch s taken imm) := by
  unfold branch
  split
  · exact .jumped _
  · exact .retired s

theorem branch_link_effect (s : State) (d : RegIdx) (taken : Bool) (imm : Imm16) :
    Effect s (branch (link s d) taken imm) := by
  unfold branch
  split
  · exact .linked d _
  · exact .linked d (nextAddr (link s d).pc)

theorem load_effect {s t : State} {rt : RegIdx} {ea : Word} {n : AccessWidth} {f : Word → Word}
    (h : load s rt ea n f = .next t) : Effect s t := by
  rcases load_next h with ⟨ha, rfl⟩ | ⟨-, rfl⟩
  · exact .loaded rt _ ea n ha
  · exact .raisedDataBus ea

theorem store_effect {s t : State} {ea : Word} {n : AccessWidth} {v : Word} (h : store s ea n v = .next t) :
    Effect s t := by
  rcases store_next h with ⟨ha, rfl⟩ | ⟨-, rfl⟩
  · exact .stored ea n v ha
  · exact .raisedDataBus ea

/-! ### Loads and stores over the shared operations -/

theorem exec_lb (rt rs : RegIdx) (imm : Imm16) (s : State) :
    exec (.lb rt rs imm) s = load s rt (readReg s rs + imm.signExtend 32) .byte fun v => (v.extractLsb' 0 8).signExtend 32 := by
  simp only [exec, execLb, effectiveAddress, sext16, sext8]

theorem exec_lbu (rt rs : RegIdx) (imm : Imm16) (s : State) :
    exec (.lbu rt rs imm) s = load s rt (readReg s rs + imm.signExtend 32) .byte fun v => (v.extractLsb' 0 8).zeroExtend 32 := by
  simp only [exec, execLbu, effectiveAddress, sext16, zext8]

theorem exec_lh (rt rs : RegIdx) (imm : Imm16) (s : State) :
    exec (.lh rt rs imm) s = load s rt (readReg s rs + imm.signExtend 32) .half fun v => (v.extractLsb' 0 16).signExtend 32 := by
  simp only [exec, execLh, effectiveAddress, sext16]

theorem exec_lhu (rt rs : RegIdx) (imm : Imm16) (s : State) :
    exec (.lhu rt rs imm) s = load s rt (readReg s rs + imm.signExtend 32) .half fun v => (v.extractLsb' 0 16).zeroExtend 32 := by
  simp only [exec, execLhu, effectiveAddress, sext16, zext16]

theorem exec_lw (rt rs : RegIdx) (imm : Imm16) (s : State) :
    exec (.lw rt rs imm) s = load s rt (readReg s rs + imm.signExtend 32) .word fun v => v := by
  simp only [exec, execLw, effectiveAddress, sext16]

theorem exec_sb (rt rs : RegIdx) (imm : Imm16) (s : State) :
    exec (.sb rt rs imm) s = store s (readReg s rs + imm.signExtend 32) .byte (readReg s rt) := by
  simp only [exec, execSb, effectiveAddress, sext16]

theorem exec_sh (rt rs : RegIdx) (imm : Imm16) (s : State) :
    exec (.sh rt rs imm) s = store s (readReg s rs + imm.signExtend 32) .half (readReg s rt) := by
  simp only [exec, execSh, effectiveAddress, sext16]

theorem exec_sw (rt rs : RegIdx) (imm : Imm16) (s : State) :
    exec (.sw rt rs imm) s = store s (readReg s rs + imm.signExtend 32) .word (readReg s rt) := by
  simp only [exec, execSw, effectiveAddress, sext16]

/-- What an instruction can do. -/
theorem exec_effect {i : Instr} {s t : State} (h : exec i s = .next t) : Effect s t := by
  cases i
  case lb rt rs imm => simp only [exec, execLb] at h; exact load_effect h
  case lbu rt rs imm => simp only [exec, execLbu] at h; exact load_effect h
  case lh rt rs imm => simp only [exec, execLh] at h; exact load_effect h
  case lhu rt rs imm => simp only [exec, execLhu] at h; exact load_effect h
  case lw rt rs imm => simp only [exec, execLw] at h; exact load_effect h
  case sb rt rs imm => simp only [exec, execSb] at h; exact store_effect h
  case sh rt rs imm => simp only [exec, execSh] at h; exact store_effect h
  case sw rt rs imm => simp only [exec, execSw] at h; exact store_effect h
  case div rs rt =>
    simp only [exec, execDiv] at h
    split at h <;> (injection h with h; subst h)
    · exact .dividedByZero
    · exact .wroteHiLo _ _
  case divu rs rt =>
    simp only [exec, execDivu] at h
    split at h <;> (injection h with h; subst h)
    · exact .dividedByZero
    · exact .wroteHiLo _ _
  all_goals
    injection h with h
    subst h
    first
      | exact .wrote _ _
      | exact writeBackSigned_effect _ _ _
      | exact branch_link_effect _ _ _ _
      | exact branch_effect _ _ _
      | exact .linked _ _
      | exact .jumped _
      | exact .wroteHiLo _ _
      | exact .notified
      | exact .broke

/-- A step that answers a next state did nothing while suspended, executed the instruction at `pc`, or took
INSTRUCTION_BUS for a word that is none (spec/70_reset_and_hazards.md R194). -/
theorem step_next {s t : State} (h : step s = .next t) :
    (s.suspended = true ∧ t = s) ∨
    (s.suspended = false ∧ Fetchable s ∧
      ((∃ i, decodeWord (wordAtPc s) = .ok i ∧ exec i s = .next t) ∨
       (∃ e, decodeWord (wordAtPc s) = .error e) ∧ t = raise .instructionBus s)) := by
  unfold step clock at h
  split at h
  · rename_i hs
    injection h with h
    exact .inl ⟨hs, h.symm⟩
  · rename_i hs
    split at h
    · rename_i w hw
      obtain ⟨hf, rfl⟩ := fetch_ok hw
      refine .inr ⟨by simpa using hs, hf, ?_⟩
      unfold execWord at h
      split at h
      · rename_i i hi
        exact .inl ⟨i, hi, h⟩
      · rename_i e he
        injection h with h
        exact .inr ⟨⟨e, he⟩, h.symm⟩
    · cases h

/-- What a step can do: nothing while suspended, otherwise one of the effects. -/
theorem step_effect {s t : State} (h : step s = .next t) :
    (s.suspended = true ∧ t = s) ∨ (s.suspended = false ∧ Effect s t) := by
  rcases step_next h with h | ⟨hs, -, ⟨i, -, he⟩ | ⟨-, rfl⟩⟩
  · exact .inl h
  · exact .inr ⟨hs, exec_effect he⟩
  · exact .inr ⟨hs, .undecoded⟩

/-- No instruction stops with a fault; the type of faults is empty. -/
theorem not_fault (r : Result) (f : Fault) : r ≠ .fault f := nomatch f

end Sys2Proof.Machine
end

