-- ==== Sys2Proof/Laws/Frames.lean ====
section
/-! SUPPORT. One lemma per shared operation that says everything it does, in the terms of Sys2Proof/Safety.lean: the
claims about single instructions cite these. -/

namespace Sys2Proof.Machine

theorem writeBack_retiresWriting (s : State) (d : RegIdx) (v : Word) : RetiresWriting s (writeBack s d v) d v where
  result := by simp [writeBack, readReg_writeReg_self]
  others i h := by simp [writeBack, readReg_writeReg_ne _ h]
  pc := by simp
  hilo := by simp [SameHiLo]
  exc := by simp [SameExcRegs]
  flags := by simp [SameFlags]
  mem _ := by simp
  platform := by simp [SamePlatform]

theorem writeHiLo_retiresHiLo (s : State) (hi lo : Word) : RetiresHiLo s (writeHiLo s hi lo) hi lo where
  hi := rfl
  lo := rfl
  regs _ := by simp
  pc := rfl
  exc := by simp [SameExcRegs]
  flags := by simp [SameFlags]
  mem _ := by simp
  platform := by simp [SamePlatform]

theorem jumpTo_goesTo (s : State) (target : Word) : GoesTo s (jumpTo s target) target where
  pc := rfl
  regs _ := by simp
  hilo := by simp [SameHiLo]
  exc := by simp [SameExcRegs]
  flags := by simp [SameFlags]
  mem _ := by simp
  platform := by simp [SamePlatform]

theorem retire_goesTo (s : State) : GoesTo s (retire s) (s.pc + 4#32) := jumpTo_goesTo s _

theorem branch_goesTo (s : State) (taken : Bool) (imm : Imm16) :
    GoesTo s (branch s taken imm)
      (if taken then s.pc + 4#32 + 4#32 * imm.signExtend 32 else s.pc + 4#32) := by
  unfold branch
  rw [branchTarget_eq]
  split
  · exact jumpTo_goesTo s _
  · exact retire_goesTo s

theorem linked_linksAndGoesTo (s : State) (d : RegIdx) (target : Word) :
    LinksAndGoesTo s (jumpTo (link s d) target) d target where
  link := by simp [link, readReg_writeReg_self, nextAddr]
  others i h := by simp [Machine.link, readReg_writeReg_ne _ h]
  pc := rfl
  hilo := by simp [SameHiLo, Machine.link]
  exc := by simp [SameExcRegs, Machine.link]
  flags := by simp [SameFlags, Machine.link]
  mem _ := by simp [Machine.link]
  platform := by simp [SamePlatform, Machine.link]

theorem branch_link_linksAndGoesTo (s : State) (d : RegIdx) (taken : Bool) (imm : Imm16) :
    LinksAndGoesTo s (branch (link s d) taken imm) d
      (if taken then s.pc + 4#32 + 4#32 * imm.signExtend 32 else s.pc + 4#32) := by
  have hpc : (link s d).pc = s.pc := by simp [link]
  unfold branch
  rw [branchTarget_eq, hpc]
  split
  · exact linked_linksAndGoesTo s d _
  · have h := linked_linksAndGoesTo s d (nextAddr (link s d).pc)
    rw [hpc] at h
    simpa only [retire, hpc, jumpTo, nextAddr] using h

/-! ### The fields of `cause` (spec/10_state.md R18), where the codes fit -/

/-- Isolating the lowest set bit gives a value no greater than any set bit's. -/
theorem toNat_lowestBit_le {m : Word} {i : Nat} (h : m.getLsbD i = true) : (m &&& -m).toNat ≤ 2 ^ i := by
  have hi := BitVec.lt_of_getLsbD h
  by_cases hl : ∃ j < i, m.getLsbD j = true
  · refine Nat.le_of_lt (Nat.lt_pow_two_of_testBit _ fun j hj => ?_)
    rw [BitVec.testBit_toNat, BitVec.getLsbD_and, BitVec.getLsbD_neg]
    obtain ⟨k, hk, hmk⟩ := hl
    have : ∃ k < j, m.getLsbD k = true := ⟨k, by omega, hmk⟩
    by_cases hw : j < 32
    · simp [this, hw]
    · simp [BitVec.getLsbD_of_ge m j (by omega)]
  · have : m &&& -m = BitVec.twoPow 32 i := by
      apply BitVec.eq_of_getLsbD_eq
      intro j hj
      rw [BitVec.getLsbD_and, BitVec.getLsbD_neg, BitVec.getLsbD_twoPow]
      rcases Nat.lt_trichotomy j i with hji | rfl | hji
      · have : m.getLsbD j = false := by simpa using fun hm => hl ⟨j, hji, hm⟩
        simp [this, Nat.ne_of_gt hji]
      · simp [h, hj, hl]
      · have : ∃ k < j, m.getLsbD k = true := ⟨i, hji, h⟩
        simp [this, hj, Nat.ne_of_lt hji]
    rw [this, BitVec.toNat_twoPow, Nat.mod_eq_of_lt (Nat.pow_lt_pow_right (by omega) hi)]

/-- The code field ends within the register, and below every bit of the mask. -/
theorem codeFieldEnd_le (c : Config) :
    c.codeFieldEnd ≤ 2 ^ 32 ∧ ∀ i, c.causeIntMask.getLsbD i = true → c.codeFieldEnd ≤ 2 ^ i := by
  unfold Config.codeFieldEnd
  split
  · rename_i h
    exact ⟨Nat.le_refl _, fun i hi => by simp [h] at hi⟩
  · exact ⟨Nat.le_of_lt (BitVec.isLt _), fun i hi => toNat_lowestBit_le hi⟩

theorem toNat_shiftedCode {c : Config} {code : Word} (h : c.codeFits code) :
    (code <<< c.causeCodeShift.val).toNat = code.toNat * 2 ^ c.causeCodeShift.val := by
  rw [BitVec.toNat_shiftLeft, Nat.shiftLeft_eq, Nat.mod_eq_of_lt (Nat.lt_of_lt_of_le h (codeFieldEnd_le c).1)]

/-- R171: a code that fits has, shifted, no bit in common with `CAUSE_INT_MASK`. -/
theorem shiftedCode_disjoint_intMask {c : Config} {code : Word} (h : c.codeFits code) :
    (code <<< c.causeCodeShift.val) &&& c.causeIntMask = 0#32 := by
  apply BitVec.eq_of_getLsbD_eq
  intro i _
  rw [BitVec.getLsbD_and, BitVec.getLsbD_zero, Bool.and_eq_false_iff, or_iff_not_imp_right, Bool.not_eq_false]
  intro hm
  rw [← BitVec.testBit_toNat, toNat_shiftedCode h]
  exact Nat.testBit_lt_two_pow (Nat.lt_of_lt_of_le h ((codeFieldEnd_le c).2 i hm))

/-- Outside `CAUSE_INT_MASK`, `cause` holds the code after an entry and nothing else. -/
theorem causeValue_codeField {c : Config} {code : Word} (h : c.codeFits code) (intstate : Word) :
    causeValue c code intstate &&& ~~~c.causeIntMask = code <<< c.causeCodeShift.val := by
  have hd := shiftedCode_disjoint_intMask h
  apply BitVec.eq_of_getLsbD_eq
  intro i hi
  have hi' := congrArg (BitVec.getLsbD · i) hd
  simp only [causeValue, BitVec.getLsbD_and, BitVec.getLsbD_or, BitVec.getLsbD_not, BitVec.getLsbD_zero] at hi' ⊢
  revert hi'
  cases (code <<< c.causeCodeShift.val).getLsbD i <;> cases c.causeIntMask.getLsbD i <;> simp [hi]

/-- Inside `CAUSE_INT_MASK`, `cause` holds the interrupt state and nothing else. -/
theorem causeValue_intField {c : Config} {code : Word} (h : c.codeFits code) (intstate : Word) :
    causeValue c code intstate &&& c.causeIntMask = intstate &&& c.causeIntMask := by
  have hd := shiftedCode_disjoint_intMask h
  apply BitVec.eq_of_getLsbD_eq
  intro i _
  have hi' := congrArg (BitVec.getLsbD · i) hd
  simp only [causeValue, BitVec.getLsbD_and, BitVec.getLsbD_or, BitVec.getLsbD_zero] at hi' ⊢
  revert hi'
  cases (code <<< c.causeCodeShift.val).getLsbD i <;> cases c.causeIntMask.getLsbD i <;> simp

/-- On a well-formed platform `cause` tells the codes apart, whatever the interrupt state. -/
theorem causeValue_code_injective {c : Config} {k k' i i' : Word} (h : c.wf) (hk : k ∈ c.codes) (hk' : k' ∈ c.codes)
    (he : causeValue c k i = causeValue c k' i') : k = k' := by
  have fits : ∀ code ∈ c.codes, c.codeFits code := by simpa using h.2.2.2.2.1
  have hs : k <<< c.causeCodeShift.val = k' <<< c.causeCodeShift.val := by
    rw [← causeValue_codeField (fits k hk) i, he, causeValue_codeField (fits k' hk')]
  have hn := congrArg BitVec.toNat hs
  rw [toNat_shiftedCode (fits k hk), toNat_shiftedCode (fits k' hk')] at hn
  exact BitVec.eq_of_toNat_eq (Nat.eq_of_mul_eq_mul_right (Nat.two_pow_pos _) hn)

/-! ### Exception entry, loads and stores -/

/-- Exception entry (spec/60_exceptions.md R174). -/
theorem raise_entersException (e : Exc) (s : State) : EntersException s (raise e s) (e.code s.cfg) where
  cause := by simp [causeValue]
  status := by simp [Nat.shiftLeft_eq]
  epc := rfl
  pc := rfl
  errmode := rfl
  regs _ := by simp
  hilo := by simp [SameHiLo]
  diverr := rfl
  suspended := rfl
  mem _ := by simp
  cfg := rfl
  env := rfl

/-- The data bus error (spec/45_load_store.md R149). -/
theorem raiseDataBus_entersException (ea : Word) (s : State) :
    EntersException s (raiseDataBus ea s) s.cfg.codeDbus where
  cause := by simp [causeValue]
  status := by simp [Nat.shiftLeft_eq]
  epc := rfl
  pc := rfl
  errmode := rfl
  regs _ := by simp
  hilo := by simp [SameHiLo]
  diverr := rfl
  suspended := rfl
  mem _ := by simp
  cfg := rfl
  env := rfl

theorem loaded_retiresLoading (s : State) (ea : Word) (n : AccessWidth) (d : RegIdx) (v : Word) :
    RetiresLoading s (writeBack (afterRead s ea n) d v) ea n d v where
  result := by simp [writeBack, readReg_writeReg_self]
  others i h := by simp [writeBack, readReg_writeReg_ne _ h]
  pc := by simp
  hilo := by simp [SameHiLo]
  exc := by simp [SameExcRegs]
  flags := by simp [SameFlags]
  mem _ := by simp
  cfg := by simp
  env := by simp only [writeBack_env, afterRead]; split <;> rfl

theorem stubWrites_nil (c : Config) : stubWrites c [] = [] := rfl

theorem stubWrites_cons (c : Config) (p : Word × Byte) (l : List (Word × Byte)) :
    stubWrites c (p :: l) =
      stubWrites c l ++ if (route c.map p.1).1 = .io then [(p.1.toNat, p.2)] else [] := by
  by_cases h : (route c.map p.1).1 = .io <;> simp [stubWrites, h]

/-- An address that is no bus error targets the I/O stub exactly where it routes there. -/
theorem byteTarget_ioStub_iff {c : Config} {k : AccessKind} {a : Word} (h : byteTarget c k a ≠ .busError) :
    (∃ lane, byteTarget c k a = .ioStub lane) ↔ (route c.map a).1 = .io := by
  revert h
  unfold byteTarget
  generalize route c.map a = p
  obtain ⟨q, o⟩ := p
  cases q <;> dsimp only <;> repeat' split
  all_goals simp

/-- The environment after a stored byte: the stub has received it where it routes there. -/
theorem storeByte_env {s : State} {a : Word} (h : byteTarget s.cfg .write a ≠ .busError) (b : Byte) :
    (storeByte s a b).env = { s.env with
      ioWrites := (if (route s.cfg.map a).1 = .io then [(a.toNat, b)] else []) ++ s.env.ioWrites } := by
  have key := byteTarget_ioStub_iff h
  unfold storeByte
  cases ht : byteTarget s.cfg .write a with
  | ioStub lane => rw [if_pos (key.mp ⟨lane, ht⟩)]; rfl
  | buffer r =>
    rw [if_neg fun hr => by obtain ⟨lane, hl⟩ := key.mpr hr; rw [ht] at hl; cases hl]
    dsimp only
    split <;> rfl
  | _ =>
    rw [if_neg fun hr => by obtain ⟨lane, hl⟩ := key.mpr hr; rw [ht] at hl; cases hl]
    rfl

/-- The environment after stored bytes. -/
theorem storeBytes_env {s : State} (l : List (Word × Byte)) (h : ∀ p ∈ l, byteTarget s.cfg .write p.1 ≠ .busError) :
    (storeBytes s l).env = { s.env with ioWrites := stubWrites s.cfg l ++ s.env.ioWrites } := by
  induction l generalizing s with
  | nil => rfl
  | cons c l ih =>
    obtain ⟨a, b⟩ := c
    have hl : ∀ p ∈ l, byteTarget (storeByte s a b).cfg .write p.1 ≠ .busError := fun p hp => by
      rw [storeByte_cfg]; exact h p (by simp [hp])
    rw [storeBytes, ih hl, storeByte_cfg, storeByte_env (h (a, b) (by simp)), stubWrites_cons, List.append_assoc]

/-- Stored bytes read back, where the addresses are distinct. -/
theorem storeBytes_read {s : State} (hm : s.mem.wf) (l : List (Word × Byte)) (hd : (l.map Prod.fst).Nodup)
    {a : Word} {b : Byte} (h : (a, b) ∈ l) :
    (storeBytes s l).mem.read a.toNat = if takesStore s.cfg a then b else s.mem.read a.toNat := by
  induction l generalizing s with
  | nil => cases h
  | cons c l ih =>
    obtain ⟨a', b'⟩ := c
    simp only [List.map_cons, List.nodup_cons] at hd
    simp only [storeBytes]
    rcases List.mem_cons.mp h with h | h
    · injection h with h1 h2
      subst h1 h2
      rw [storeBytes_read_of_ne (storeByte_memWf hm _ _) l _ ?_, storeByte_read hm]
      · simp
      · intro p hp he
        exact hd.1 (List.mem_map.mpr ⟨p, hp, (BitVec.eq_of_toNat_eq he).symm⟩)
    · rw [ih (storeByte_memWf hm _ _) hd.2 h, storeByte_cfg, storeByte_read hm]
      have hne : ¬a.toNat = a'.toNat := fun he =>
        hd.1 (List.mem_map.mpr ⟨(a, b), h, BitVec.eq_of_toNat_eq he⟩)
      simp [hne]

theorem accessAddrs_nodup (a : Word) (n : AccessWidth) : (accessAddrs a n).Nodup := by
  have ne (x y : Word) (h : x ≠ y) : a + x ≠ a + y := fun e => h (by simpa using e)
  have ne0 (x : Word) (h : x ≠ 0#32) : a ≠ a + x := by
    have := ne 0#32 x h.symm
    simpa using this
  cases n
  · simp [accessAddrs]
  · simp [accessAddrs]
  · simp only [accessAddrs, List.nodup_cons, List.mem_cons, List.not_mem_nil, or_false, not_or, not_false_eq_true,
      List.nodup_nil, and_true]
    exact ⟨⟨ne0 _ (by decide), ne0 _ (by decide), ne0 _ (by decide)⟩,
      ⟨ne _ _ (by decide), ne _ _ (by decide)⟩, ne _ _ (by decide)⟩

/-- A store (spec/20_memory.md R37). -/
theorem stored_retiresStoring {s : State} (hm : s.mem.wf) {a : Word} {n : AccessWidth}
    (hs : accessStatus s.cfg .write (routedAddrs s.cfg a n) = .ok) (v : Word) :
    RetiresStoring s (retire (afterWrite s a n v)) ((routedAddrs s.cfg a n).zip (splitBytes v n)) where
  stored x b h := by
    rw [retire_mem, afterWrite]
    refine storeBytes_read hm _ ?_ h
    unfold routedAddrs
    split
    · exact List.nodup_nil
    · rw [List.map_fst_zip (by cases n <;> simp [accessAddrs, splitBytes])]
      exact accessAddrs_nodup a n
  outside x h := by
    rw [retire_mem, afterWrite]
    exact storeBytes_read_of_ne hm _ x fun p hp => h p.1 p.2 hp
  pc := by simp
  regs _ := by simp
  hilo := by simp [SameHiLo]
  exc := by simp [SameExcRegs]
  flags := by simp [SameFlags]
  cfg := by simp
  env := by
    rw [retire_env, afterWrite]
    exact storeBytes_env _ fun p hp => ((accessStatus_ok_iff _ _ _).mp hs p.1 (List.of_mem_zip hp).1).1

end Sys2Proof.Machine
end

