-- ==== Sys2Proof/Laws/HostOps.lean ====
section
/-! SUPPORT. The laws of the host's operations: what each can answer, what the host's writes leave in memory, and how the
regions of a snapshot stand for addresses. -/

namespace Sys2Proof.Machine

/-! ### What the operations answer -/

theorem restore_next {p : Snapshot} {s t : State} (h : restore p s = .next t) :
    p.memory.fits s.cfg.map = true ∧
    t = { s with
      regs := p.regs
      pc := p.pc
      hi := p.hi
      lo := p.lo
      epc := p.epc
      cause := p.cause
      status := p.status
      bvr := p.bvr
      diverr := p.diverr
      errmode := p.errmode
      suspended := p.suspended
      mem := hostWrites (p.memory.resize s.cfg.map) [] (p.memory.cells s.cfg.map)
      cfg := { s.cfg with map := p.memory.resize s.cfg.map }
      env := { s.env with deliveryOpen := p.suspended && p.deliveryOpen } } := by
  unfold restore at h
  split at h
  · rename_i hf
    injection h with h
    exact ⟨hf, h.symm⟩
  · cases h

theorem loadProgram_next {p : Program} {s t : State} (h : loadProgram p s = .next t) :
    p.fits s.cfg.map = true ∧
    t = { s with
      mem := hostWrites s.cfg.map s.mem (p.textCells ++ p.dataCells s.cfg.map)
      pc := if p.setPc then p.position else s.pc } := by
  unfold loadProgram at h
  split at h
  · rename_i hf
    injection h with h
    exact ⟨hf, h.symm⟩
  · cases h

theorem interrupt_next {s t : State} (h : interrupt s = .next t) :
    s.suspended = false ∧ t = raise .interrupt s := by
  unfold interrupt at h
  split at h
  · cases h
  · rename_i hs
    injection h with h
    exact ⟨by simpa using hs, h.symm⟩

theorem deliver_next {result : Option Word} {writes : List Host.Cell} {s t : State}
    (h : deliver result writes s = .next t) :
    s.suspended = true ∧ s.env.deliveryOpen = true ∧
    t = applyReply s { result := result, writes := writes, suspend := false } := by
  unfold deliver at h
  split at h
  · rename_i hs
    injection h with h
    rw [Bool.and_eq_true] at hs
    exact ⟨hs.1, hs.2, h.symm⟩
  · cases h

/-- A recorded memory that fits gives a map that meets rule R6. -/
theorem MemoryImage.resize_wf {p : MemoryImage} {map : AddressMap} (h : p.fits map = true) : (p.resize map).wf := by
  simp only [MemoryImage.fits, Bool.and_eq_true, decide_eq_true_eq] at h
  exact h.2

/-! ### The host's writes -/

/-- A byte at none of the written addresses reads as before. -/
theorem hostWrites_read_of_not_mem (map : AddressMap) {m : Memory} (hm : m.wf) (l : List Host.Cell) {x : Nat}
    (hx : ∀ c ∈ l, x ≠ c.1) : (hostWrites map m l).read x = m.read x := by
  induction l generalizing m with
  | nil => rfl
  | cons c l ih =>
    obtain ⟨a, b⟩ := c
    have hne : ¬x = a := hx (a, b) (by simp)
    have hl : ∀ c ∈ l, x ≠ c.1 := fun c hc => hx c (by simp [hc])
    simp only [hostWrites]
    split
    · rw [ih (Memory.write_wf hm a b) hl, Memory.read_write hm, if_neg hne]
    · exact ih hm hl

/-- A written byte reads back, where no later write has its address and every address is one of a buffer. -/
theorem hostWrites_read_of_mem (map : AddressMap) {m : Memory} (hm : m.wf) (l : List Host.Cell)
    (hb : ∀ c ∈ l, inBuffer map c.1 = true) (hd : (l.map Prod.fst).Nodup) {a : Nat} {b : Byte} (h : (a, b) ∈ l) :
    (hostWrites map m l).read a = b := by
  induction l generalizing m with
  | nil => cases h
  | cons c l ih =>
    obtain ⟨a', b'⟩ := c
    simp only [List.map_cons, List.nodup_cons] at hd
    simp only [hostWrites, if_pos (hb (a', b') (by simp))]
    rcases List.mem_cons.mp h with h | h
    · injection h with h1 h2
      subst h1 h2
      rw [hostWrites_read_of_not_mem map (Memory.write_wf hm _ _) l fun c hc he =>
        hd.1 (List.mem_map.mpr ⟨c, hc, he.symm⟩), Memory.read_write hm, if_pos rfl]
    · exact ih (Memory.write_wf hm _ _) (fun c hc => hb c (by simp [hc])) hd.2 h

/-! ### Bytes at consecutive addresses -/

/-- The cells of bytes laid from `a`: byte `j` at `a + j`. -/
theorem mem_cellsFrom {a : Nat} {l : List Byte} {c : Host.Cell} :
    c ∈ cellsFrom a l ↔ ∃ j, l[j]? = some c.2 ∧ c.1 = a + j := by
  obtain ⟨x, v⟩ := c
  induction l generalizing a with
  | nil => simp [cellsFrom]
  | cons b l ih =>
    simp only [cellsFrom, List.mem_cons, Prod.mk.injEq, ih]
    constructor
    · rintro (⟨rfl, rfl⟩ | ⟨j, hj, rfl⟩)
      · exact ⟨0, by simp, by simp⟩
      · exact ⟨j + 1, by simpa using hj, by omega⟩
    · rintro ⟨j, hj, rfl⟩
      cases j with
      | zero => exact .inl ⟨by simp, by simpa using hj.symm⟩
      | succ j => exact .inr ⟨j, by simpa using hj, by omega⟩

theorem cellsFrom_fst (a : Nat) (l : List Byte) : (cellsFrom a l).map Prod.fst = List.range' a l.length := by
  induction l generalizing a with
  | nil => rfl
  | cons b l ih => simp [cellsFrom, ih, List.range'_succ]

/-- The cells of bytes laid one after another have distinct addresses. -/
theorem cellsFrom_nodup (a : Nat) (l : List Byte) : ((cellsFrom a l).map Prod.fst).Nodup := by
  rw [cellsFrom_fst]
  exact List.nodup_range'

theorem length_flatMap_bytesOfWord (ws : List Word) : (ws.flatMap bytesOfWord).length = 4 * ws.length := by
  induction ws with
  | nil => rfl
  | cons w ws ih => simp [bytesOfWord, ih]; omega

/-- Byte `k` of word `i` of a stream, the most significant first (spec/40_codec.md R77). -/
theorem getElem?_flatMap_bytesOfWord {ws : List Word} {i k : Nat} {w : Word} (h : ws[i]? = some w) (hk : k < 4) :
    (ws.flatMap bytesOfWord)[4 * i + k]? = some ((w >>> (24 - 8 * k)).setWidth 8) := by
  induction ws generalizing i with
  | nil => cases h
  | cons v ws ih =>
    cases i with
    | zero =>
      have hv : v = w := by simpa using h
      subst hv
      have byte : ∀ j, v.extractLsb' j 8 = (v >>> j).setWidth 8 := fun j => by
        apply BitVec.eq_of_getLsbD_eq
        intro n hn
        simp [hn]
      have : k = 0 ∨ k = 1 ∨ k = 2 ∨ k = 3 := by omega
      rcases this with rfl | rfl | rfl | rfl <;> simp [bytesOfWord, byte]
    | succ i =>
      have : 4 * (i + 1) + k = (bytesOfWord v).length + (4 * i + k) := by simp [bytesOfWord]; omega
      rw [List.flatMap_cons, this, List.getElem?_append_right (by omega), Nat.add_sub_cancel_left]
      exact ih (by simpa using h)

/-! ### Regions and addresses -/

theorem inRegion_iff (m : AddressMap) (r : Region) (a : Nat) :
    inRegion m r a = true ↔ a < 2 ^ 32 ∧ (route m (BitVec.ofNat 32 a)).1 = r ∧
      (route m (BitVec.ofNat 32 a)).2 < bufferSize m r := by
  simp only [inRegion, inBuffer, Bool.and_eq_true, decide_eq_true_eq]
  constructor
  · rintro ⟨⟨h1, h2⟩, rfl⟩
    exact ⟨h1, rfl, h2⟩
  · rintro ⟨h1, rfl, h2⟩
    exact ⟨⟨h1, h2⟩, rfl⟩

/-- The offset of a routed byte, counted from the base of its region, is its address (R32). -/
theorem regionAddr_route {m : AddressMap} {r : Region} {a : Nat} (h : inRegion m r a = true) :
    regionAddr m r (route m (BitVec.ofNat 32 a)).2 = a := by
  obtain ⟨h1, h2, h3⟩ := (inRegion_iff m r a).mp h
  have ha : (BitVec.ofNat 32 a).toNat = a := by rw [BitVec.toNat_ofNat, Nat.mod_eq_of_lt h1]
  subst h2
  revert h3
  unfold route
  rw [ha]
  repeat' split
  all_goals simp only [bufferSize, regionAddr, regionBase]
  all_goals omega

/-- On a map that meets rule R6, the byte at an offset below a buffer's size is one of that buffer. -/
theorem inRegion_regionAddr {m : AddressMap} (h : m.wf) {r : Region} {offset : Nat} (ho : offset < bufferSize m r) :
    inRegion m r (regionAddr m r offset) = true := by
  rw [inRegion_iff]
  obtain ⟨h1, h2, h3, h4, h5, h6, h7, h8, h9, h10⟩ := h
  have hio := m.ioAddr.isLt
  have hlt : regionAddr m r offset < 2 ^ 32 := by
    cases r <;> simp only [regionAddr, regionBase, bufferSize] at ho ⊢ <;> omega
  have hr : route m (BitVec.ofNat 32 (regionAddr m r offset)) = (r, offset) := by
    have ha : (BitVec.ofNat 32 (regionAddr m r offset)).toNat = regionAddr m r offset := by
      rw [BitVec.toNat_ofNat, Nat.mod_eq_of_lt hlt]
    revert ha
    generalize BitVec.ofNat 32 (regionAddr m r offset) = a
    intro ha
    clear hlt
    unfold route
    cases r <;> simp only [regionAddr, regionBase, bufferSize] at ho ha
    case io => omega
    case zero => omega
    all_goals (repeat' split)
    all_goals first | (exfalso; omega) | exact Prod.ext rfl (by dsimp only; omega)
  rw [hr]
  exact ⟨hlt, rfl, ho⟩

/-- A byte of a buffer is a byte of one of the five regions. -/
theorem exists_inRegion {m : AddressMap} {a : Nat} (h : inBuffer m a = true) :
    ∃ r ∈ [Region.text, .ram, .stack, .erom, .video], inRegion m r a = true := by
  refine ⟨(route m (BitVec.ofNat 32 a)).1, ?_, by simp [inRegion, h]⟩
  simp only [inBuffer, Bool.and_eq_true, decide_eq_true_eq] at h
  have hs := h.2
  revert hs
  cases (route m (BitVec.ofNat 32 a)).1 <;> simp [bufferSize]

/-! ### Snapshots -/

/-- The recorded bytes of a region are the listed bytes of memory there. -/
theorem regionImage_cells (map map' : AddressMap) (m : Memory) (r : Region)
    (hb : regionBase map' r = regionBase map r) :
    (regionImage map m r).cells map' r = m.filter fun c => inRegion map r c.1 := by
  simp only [RegionImage.cells, regionImage, List.map_map]
  conv_rhs => rw [← List.map_id (List.filter _ m)]
  refine List.map_congr_left fun c hc => ?_
  have h := regionAddr_route (List.mem_filter.mp hc).2
  simp only [regionAddr] at h
  simp only [Function.comp_apply, regionAddr, hb, h, id]

/-- A region's image fits. -/
theorem regionImage_fits (map : AddressMap) (m : Memory) (r : Region) : (regionImage map m r).fits = true := by
  simp only [RegionImage.fits, regionImage, List.all_eq_true, List.mem_map]
  rintro - ⟨c, hc, rfl⟩
  exact decide_eq_true ((inRegion_iff map r c.1).mp (List.mem_filter.mp hc).2).2.2

end Sys2Proof.Machine
end

