-- ==== Sys2Proof/Laws/PerInstr.lean ====
section
/-! SUPPORT. A law of every instruction as syntax, one lemma per constructor: the record of its canonical encoding is
well formed in all three checks (spec/40_codec.md R71, R74, R75), and `PACK` of it gives the encoder's word. -/

namespace Sys2Proof.Laws.Codec

/-- The record of the instruction is well formed and packs to its word. -/
def Statement (i : Instr) : Prop :=
  i.record.toRaw.wellFormed = true ∧ packRaw i.record.toRaw = some (encode i)

/-- The shape check is all there is to see instruction by instruction. -/
theorem of_shape (i : Instr) (h : i.record.toRaw.shapeAgrees = true) : Statement i :=
  ⟨by rw [← h]; exact Record.wellFormed_eq i.record, by simp [packRaw, Record.truncate_toRaw, encode]⟩

theorem add (rd rs rt : RegIdx) : Statement (Instr.add rd rs rt) := of_shape _ rfl

theorem addu (rd rs rt : RegIdx) : Statement (Instr.addu rd rs rt) := of_shape _ rfl

theorem sub (rd rs rt : RegIdx) : Statement (Instr.sub rd rs rt) := of_shape _ rfl

theorem subu (rd rs rt : RegIdx) : Statement (Instr.subu rd rs rt) := of_shape _ rfl

theorem and (rd rs rt : RegIdx) : Statement (Instr.and rd rs rt) := of_shape _ rfl

theorem or (rd rs rt : RegIdx) : Statement (Instr.or rd rs rt) := of_shape _ rfl

theorem xor (rd rs rt : RegIdx) : Statement (Instr.xor rd rs rt) := of_shape _ rfl

theorem nor (rd rs rt : RegIdx) : Statement (Instr.nor rd rs rt) := of_shape _ rfl

theorem slt (rd rs rt : RegIdx) : Statement (Instr.slt rd rs rt) := of_shape _ rfl

theorem sltu (rd rs rt : RegIdx) : Statement (Instr.sltu rd rs rt) := of_shape _ rfl

theorem sll (rd rt : RegIdx) (shamt : Shamt) : Statement (Instr.sll rd rt shamt) := of_shape _ rfl

theorem srl (rd rt : RegIdx) (shamt : Shamt) : Statement (Instr.srl rd rt shamt) := of_shape _ rfl

theorem sra (rd rt : RegIdx) (shamt : Shamt) : Statement (Instr.sra rd rt shamt) := of_shape _ rfl

theorem sllv (rd rt rs : RegIdx) : Statement (Instr.sllv rd rt rs) := of_shape _ rfl

theorem srlv (rd rt rs : RegIdx) : Statement (Instr.srlv rd rt rs) := of_shape _ rfl

theorem srav (rd rt rs : RegIdx) : Statement (Instr.srav rd rt rs) := of_shape _ rfl

theorem jr (rs : RegIdx) : Statement (Instr.jr rs) := of_shape _ rfl

theorem jalr (rd rs : RegIdx) : Statement (Instr.jalr rd rs) := of_shape _ rfl

theorem syscall : Statement (Instr.syscall) := of_shape _ rfl

theorem brk : Statement (Instr.brk) := of_shape _ rfl

theorem mfhi (rd : RegIdx) : Statement (Instr.mfhi rd) := of_shape _ rfl

theorem mthi (rs : RegIdx) : Statement (Instr.mthi rs) := of_shape _ rfl

theorem mflo (rd : RegIdx) : Statement (Instr.mflo rd) := of_shape _ rfl

theorem mtlo (rs : RegIdx) : Statement (Instr.mtlo rs) := of_shape _ rfl

theorem mult (rs rt : RegIdx) : Statement (Instr.mult rs rt) := of_shape _ rfl

theorem multu (rs rt : RegIdx) : Statement (Instr.multu rs rt) := of_shape _ rfl

theorem div (rs rt : RegIdx) : Statement (Instr.div rs rt) := of_shape _ rfl

theorem divu (rs rt : RegIdx) : Statement (Instr.divu rs rt) := of_shape _ rfl

theorem bltz (rs : RegIdx) (imm : Imm16) : Statement (Instr.bltz rs imm) := of_shape _ rfl

theorem bgez (rs : RegIdx) (imm : Imm16) : Statement (Instr.bgez rs imm) := of_shape _ rfl

theorem bltzal (rs : RegIdx) (imm : Imm16) : Statement (Instr.bltzal rs imm) := of_shape _ rfl

theorem bgezal (rs : RegIdx) (imm : Imm16) : Statement (Instr.bgezal rs imm) := of_shape _ rfl

theorem j (addr : Addr26) : Statement (Instr.j addr) := of_shape _ rfl

theorem jal (addr : Addr26) : Statement (Instr.jal addr) := of_shape _ rfl

theorem beq (rs rt : RegIdx) (imm : Imm16) : Statement (Instr.beq rs rt imm) := of_shape _ rfl

theorem bne (rs rt : RegIdx) (imm : Imm16) : Statement (Instr.bne rs rt imm) := of_shape _ rfl

theorem blez (rs : RegIdx) (imm : Imm16) : Statement (Instr.blez rs imm) := of_shape _ rfl

theorem bgtz (rs : RegIdx) (imm : Imm16) : Statement (Instr.bgtz rs imm) := of_shape _ rfl

theorem addi (rt rs : RegIdx) (imm : Imm16) : Statement (Instr.addi rt rs imm) := of_shape _ rfl

theorem addiu (rt rs : RegIdx) (imm : Imm16) : Statement (Instr.addiu rt rs imm) := of_shape _ rfl

theorem slti (rt rs : RegIdx) (imm : Imm16) : Statement (Instr.slti rt rs imm) := of_shape _ rfl

theorem sltiu (rt rs : RegIdx) (imm : Imm16) : Statement (Instr.sltiu rt rs imm) := of_shape _ rfl

theorem andi (rt rs : RegIdx) (imm : Imm16) : Statement (Instr.andi rt rs imm) := of_shape _ rfl

theorem ori (rt rs : RegIdx) (imm : Imm16) : Statement (Instr.ori rt rs imm) := of_shape _ rfl

theorem xori (rt rs : RegIdx) (imm : Imm16) : Statement (Instr.xori rt rs imm) := of_shape _ rfl

theorem lui (rt : RegIdx) (imm : Imm16) : Statement (Instr.lui rt imm) := of_shape _ rfl

theorem cop0 : Statement (Instr.cop0) := of_shape _ rfl

theorem cop1 : Statement (Instr.cop1) := of_shape _ rfl

theorem cop2 : Statement (Instr.cop2) := of_shape _ rfl

theorem cop3 : Statement (Instr.cop3) := of_shape _ rfl

theorem lb (rt rs : RegIdx) (imm : Imm16) : Statement (Instr.lb rt rs imm) := of_shape _ rfl

theorem lh (rt rs : RegIdx) (imm : Imm16) : Statement (Instr.lh rt rs imm) := of_shape _ rfl

theorem lw (rt rs : RegIdx) (imm : Imm16) : Statement (Instr.lw rt rs imm) := of_shape _ rfl

theorem lbu (rt rs : RegIdx) (imm : Imm16) : Statement (Instr.lbu rt rs imm) := of_shape _ rfl

theorem lhu (rt rs : RegIdx) (imm : Imm16) : Statement (Instr.lhu rt rs imm) := of_shape _ rfl

theorem sb (rt rs : RegIdx) (imm : Imm16) : Statement (Instr.sb rt rs imm) := of_shape _ rfl

theorem sh (rt rs : RegIdx) (imm : Imm16) : Statement (Instr.sh rt rs imm) := of_shape _ rfl

theorem sw (rt rs : RegIdx) (imm : Imm16) : Statement (Instr.sw rt rs imm) := of_shape _ rfl

end Sys2Proof.Laws.Codec
end

