-- ==== Sys2Proof/Tests/Slice0.lean ====
section
/-! SUPPORT. Tests of the model, and witnesses for the hypotheses of the statements. Expected values are those of
spec/95_test_vectors.md (V and S numbers) or worked out by hand from the rule named; each test is one step or one
operation on a small state. -/

namespace Sys2Proof.Tests

open Sys2Proof.Machine

/-! ### Well-formedness smoke: a term that fails each check, and one that passes all -/

/-- No `funct` (R75). -/
theorem test_wf_absent_field_refused :
    (RawRecord.r (some 0) (some 8) (some 9) (some 10) (some 0) none).isValid = false ∧
    (RawRecord.r (some 0) (some 8) (some 9) (some 10) (some 0) none).wellFormed = false := by decide

/-- `rs` = 32 and a negative immediate exceed their widths (R71). -/
theorem test_wf_wide_field_refused :
    (RawRecord.i (some 8) (some 32) (some 9) (some 1)).fieldsFit = false ∧
    (RawRecord.i (some 8) (some 32) (some 9) (some 1)).wellFormed = false ∧
    (RawRecord.i (some 8) (some 31) (some 9) (some (-1))).wellFormed = false := by decide

/-- An I shape under opcode 2, which is J (R54, R74). -/
theorem test_wf_wrong_shape_refused :
    (RawRecord.i (some 2) (some 8) (some 9) (some 1)).shapeAgrees = false ∧
    (RawRecord.i (some 2) (some 8) (some 9) (some 1)).wellFormed = false := by decide

theorem test_wf_good_record_accepted :
    (RawRecord.i (some 8) (some 31) (some 9) (some 0xFFFF)).wellFormed = true := by decide

/-! ### Codec and decoding -/

/-- V2. -/
theorem test_pack_truncates :
    packRaw (.r (some 0) (some 40) (some 9) (some 10) (some 0) (some 0x20)) = some 0x01095020#32 ∧
    packRaw (.r (some 64) (some 8) (some 9) (some 10) (some 0) (some 0x60)) = some 0x01095020#32 ∧
    packRaw (.i (some 8) (some 0) (some 8) (some (-1))) = some 0x2008FFFF#32 ∧
    packRaw (.i (some 8) (some 0) (some 8) (some 0x12345)) = some 0x20082345#32 ∧
    packRaw (.j (some 2) (some 0x4000010)) = some 0x08000010#32 := by decide

/-- V1, two rows. -/
theorem test_unpack :
    unpack 0x8D090004#32 = .i 0x23#6 8#5 9#5 4#16 ∧ unpack 0x0FFFFFFF#32 = .j 0x03#6 0x3FFFFFF#26 := by decide

/-- R73, R75, U2: an R shape with opcode 8 packs, and the checked call refuses it. -/
theorem test_pack_shape :
    packRaw (.r (some 8) (some 0) (some 8) (some 0) (some 0) (some 5)) = some 0x20080005#32 ∧
    packChecked (.r (some 8) (some 0) (some 8) (some 0) (some 0) (some 5)) = none ∧
    packChecked (.i (some 8) (some 0) (some 8) (some 5)) = some 0x20080005#32 ∧
    packChecked (.i (some 8) (some 0) (some 8) none) = none := by decide

/-- V2, U2: an opcode of more than 6 bits agrees or not by its low 6 bits (note 8). -/
theorem test_pack_checked_wide_opcode :
    packChecked (.r (some 64) (some 8) (some 9) (some 10) (some 0) (some 0x60)) = some 0x01095020#32 ∧
    packChecked (.i (some 64) (some 8) (some 9) (some 1)) = none ∧
    packChecked (.i (some 66) (some 8) (some 9) (some 1)) = none := by decide

/-- V3. -/
theorem test_bytes :
    unpackBytes [0x20#8, 0x08#8, 0x00#8, 0x05#8] = .ok (.i 0x08#6 0#5 8#5 5#16) ∧
    bytesOfWord 0x01095020#32 = [0x01#8, 0x09#8, 0x50#8, 0x20#8] ∧
    unpackBytes [0x20#8, 0x08#8, 0x00#8] = .error .shortBuffer := by decide

theorem test_decode_alu_register :
    decodeWord 0b000000_01000_01001_01010_00000_100000#32 = .ok (.add 10#5 8#5 9#5) ∧
    decodeWord 0b000000_01000_01001_01010_00000_100001#32 = .ok (.addu 10#5 8#5 9#5) ∧
    decodeWord 0b000000_01000_01001_01010_00000_100010#32 = .ok (.sub 10#5 8#5 9#5) ∧
    decodeWord 0b000000_01000_01001_01010_00000_100011#32 = .ok (.subu 10#5 8#5 9#5) ∧
    decodeWord 0b000000_01000_01001_01010_00000_100100#32 = .ok (.and 10#5 8#5 9#5) ∧
    decodeWord 0b000000_01000_01001_01010_00000_100101#32 = .ok (.or 10#5 8#5 9#5) ∧
    decodeWord 0b000000_01000_01001_01010_00000_100110#32 = .ok (.xor 10#5 8#5 9#5) ∧
    decodeWord 0b000000_01000_01001_01010_00000_100111#32 = .ok (.nor 10#5 8#5 9#5) ∧
    decodeWord 0b000000_01000_01001_01010_00000_101010#32 = .ok (.slt 10#5 8#5 9#5) ∧
    decodeWord 0b000000_01000_01001_01010_00000_101011#32 = .ok (.sltu 10#5 8#5 9#5) := by decide

theorem test_decode_shift :
    decodeWord 0b000000_00000_01001_01010_00101_000000#32 = .ok (.sll 10#5 9#5 5#5) ∧
    decodeWord 0b000000_00000_01001_01010_00101_000010#32 = .ok (.srl 10#5 9#5 5#5) ∧
    decodeWord 0b000000_00000_01001_01010_00101_000011#32 = .ok (.sra 10#5 9#5 5#5) ∧
    decodeWord 0b000000_01000_01001_01010_00000_000100#32 = .ok (.sllv 10#5 9#5 8#5) ∧
    decodeWord 0b000000_01000_01001_01010_00000_000110#32 = .ok (.srlv 10#5 9#5 8#5) ∧
    decodeWord 0b000000_01000_01001_01010_00000_000111#32 = .ok (.srav 10#5 9#5 8#5) := by decide

theorem test_decode_muldiv_hilo :
    decodeWord 0b000000_01000_01001_00000_00000_011000#32 = .ok (.mult 8#5 9#5) ∧
    decodeWord 0b000000_01000_01001_00000_00000_011001#32 = .ok (.multu 8#5 9#5) ∧
    decodeWord 0b000000_01000_01001_00000_00000_011010#32 = .ok (.div 8#5 9#5) ∧
    decodeWord 0b000000_01000_01001_00000_00000_011011#32 = .ok (.divu 8#5 9#5) ∧
    decodeWord 0b000000_00000_00000_01010_00000_010000#32 = .ok (.mfhi 10#5) ∧
    decodeWord 0b000000_01000_00000_00000_00000_010001#32 = .ok (.mthi 8#5) ∧
    decodeWord 0b000000_00000_00000_01010_00000_010010#32 = .ok (.mflo 10#5) ∧
    decodeWord 0b000000_01000_00000_00000_00000_010011#32 = .ok (.mtlo 8#5) := by decide

theorem test_decode_jump :
    decodeWord 0b000000_01000_00000_00000_00000_001000#32 = .ok (.jr 8#5) ∧
    decodeWord 0b000000_01000_00000_01010_00000_001001#32 = .ok (.jalr 10#5 8#5) ∧
    decodeWord 0b000010_10000000000000000000010000#32 = .ok (.j 0x2000010#26) ∧
    decodeWord 0b000011_10000000000000000000010000#32 = .ok (.jal 0x2000010#26) := by decide

theorem test_decode_branch :
    decodeWord 0b000100_01000_01001_1111111111111100#32 = .ok (.beq 8#5 9#5 0xFFFC#16) ∧
    decodeWord 0b000101_01000_01001_1111111111111100#32 = .ok (.bne 8#5 9#5 0xFFFC#16) ∧
    decodeWord 0b000110_01000_00000_1111111111111100#32 = .ok (.blez 8#5 0xFFFC#16) ∧
    decodeWord 0b000111_01000_00000_1111111111111100#32 = .ok (.bgtz 8#5 0xFFFC#16) ∧
    decodeWord 0b000001_01000_00000_1111111111111100#32 = .ok (.bltz 8#5 0xFFFC#16) ∧
    decodeWord 0b000001_01000_00001_1111111111111100#32 = .ok (.bgez 8#5 0xFFFC#16) ∧
    decodeWord 0b000001_01000_10000_1111111111111100#32 = .ok (.bltzal 8#5 0xFFFC#16) ∧
    decodeWord 0b000001_01000_10001_1111111111111100#32 = .ok (.bgezal 8#5 0xFFFC#16) := by decide

theorem test_decode_alu_immediate :
    decodeWord 0b001000_01000_01001_1111111111111100#32 = .ok (.addi 9#5 8#5 0xFFFC#16) ∧
    decodeWord 0b001001_01000_01001_1111111111111100#32 = .ok (.addiu 9#5 8#5 0xFFFC#16) ∧
    decodeWord 0b001010_01000_01001_1111111111111100#32 = .ok (.slti 9#5 8#5 0xFFFC#16) ∧
    decodeWord 0b001011_01000_01001_1111111111111100#32 = .ok (.sltiu 9#5 8#5 0xFFFC#16) ∧
    decodeWord 0b001100_01000_01001_1111111111111100#32 = .ok (.andi 9#5 8#5 0xFFFC#16) ∧
    decodeWord 0b001101_01000_01001_1111111111111100#32 = .ok (.ori 9#5 8#5 0xFFFC#16) ∧
    decodeWord 0b001110_01000_01001_1111111111111100#32 = .ok (.xori 9#5 8#5 0xFFFC#16) ∧
    decodeWord 0b001111_00000_01001_1111111111111100#32 = .ok (.lui 9#5 0xFFFC#16) := by decide

theorem test_decode_load_store :
    decodeWord 0b100000_01000_01001_1111111111111100#32 = .ok (.lb 9#5 8#5 0xFFFC#16) ∧
    decodeWord 0b100001_01000_01001_1111111111111100#32 = .ok (.lh 9#5 8#5 0xFFFC#16) ∧
    decodeWord 0b100011_01000_01001_1111111111111100#32 = .ok (.lw 9#5 8#5 0xFFFC#16) ∧
    decodeWord 0b100100_01000_01001_1111111111111100#32 = .ok (.lbu 9#5 8#5 0xFFFC#16) ∧
    decodeWord 0b100101_01000_01001_1111111111111100#32 = .ok (.lhu 9#5 8#5 0xFFFC#16) ∧
    decodeWord 0b101000_01000_01001_1111111111111100#32 = .ok (.sb 9#5 8#5 0xFFFC#16) ∧
    decodeWord 0b101001_01000_01001_1111111111111100#32 = .ok (.sh 9#5 8#5 0xFFFC#16) ∧
    decodeWord 0b101011_01000_01001_1111111111111100#32 = .ok (.sw 9#5 8#5 0xFFFC#16) := by decide

theorem test_decode_system :
    decodeWord 0b000000_00000_00000_00000_00000_001100#32 = .ok .syscall ∧
    decodeWord 0b000000_00000_00000_00000_00000_001101#32 = .ok .brk ∧
    decodeWord 0b010000_00000_00000_0000000000000000#32 = .ok .cop0 ∧
    decodeWord 0b010001_00000_00000_0000000000000000#32 = .ok .cop1 ∧
    decodeWord 0b010010_00000_00000_0000000000000000#32 = .ok .cop2 ∧
    decodeWord 0b010011_00000_00000_0000000000000000#32 = .ok .cop3 := by decide


/-- The `funct` aliases of rule R59, and fields the instruction ignores (R63; V4, V6, V11). -/
theorem test_decode_aliases_and_ignored_fields :
    decodeWord 0x01095030#32 = .ok (.add 10#5 8#5 9#5) ∧ decodeWord 0x01095028#32 = .ok (.slt 10#5 8#5 9#5) ∧
    decodeWord 0x0109503F#32 = .ok (.sltu 10#5 8#5 9#5) ∧ decodeWord 0x03E95100#32 = .ok (.sll 10#5 9#5 4#5) ∧
    decodeWord 0x03FFFFCC#32 = .ok .syscall ∧ decodeWord 0x4FFFFFFF#32 = .ok .cop3 := by decide

/-- V5, V6, V7, V11. -/
theorem test_decode_reserved_words_rejected :
    decodeWord 0x01005010#32 = .error .reservedFunct ∧ decodeWord 0x01200012#32 = .error .reservedFunct ∧
    decodeWord 0x01095044#32 = .error .reservedFunct ∧ decodeWord 0x00000001#32 = .error .reservedFunct ∧
    decodeWord 0x0000000F#32 = .error .reservedFunct ∧ decodeWord 0x0000001C#32 = .error .reservedFunct ∧
    decodeWord 0x05020002#32 = .error .reservedRegimm ∧ decodeWord 0x88000000#32 = .error .unknownOpcode ∧
    decodeWord 0xFC000000#32 = .error .unknownOpcode := by decide

theorem test_decode_table_word :
    decodeTableWord 32 0x01095020 = some (.add 10#5 8#5 9#5) ∧ decodeTableWord 32 0xFC000000 = none := by decide

/-! ### One step on a small state -/

/-- Platform P0 (spec/20_memory.md R47): `pc` at 0x100, one scripted `INTSTATE` of 0. -/
def start : State := { State.reset with pc := 0x100#32, env := { Env.fresh with intStates := [0#32] } }

/-- `start` with some registers set. -/
def withRegs (l : List (RegIdx × Word)) : State := l.foldl (fun s p => writeReg s p.1 p.2) start

/-- `s` with bytes at consecutive addresses. -/
def withBytes (s : State) (a : Nat) : List Byte → State
  | [] => s
  | b :: rest => withBytes { s with mem := s.mem.write a b } (a + 1) rest

/-- The state after one step on a word placed where it is fetched. -/
def after (w : Nat) (s : State) : Option State :=
  match step (s.withFetchWord 32 w) with
  | .next t => some t
  | .fault _ => none
  | .refused _ => none

/-- The reason an outcome was refused. -/
def refusal : Result → Option Refusal
  | .next _ => none
  | .fault _ => none
  | .refused r => some r

/-- Register `d` and `pc` after one step. -/
def result (w : Nat) (l : List (RegIdx × Word)) (d : RegIdx) : Option (Word × Word) :=
  (after w (withRegs l)).map fun t => (readReg t d, t.pc)

/-- Register `d` and what an exception entry writes, after one step. -/
def entry (w : Nat) (l : List (RegIdx × Word)) (d : RegIdx) : Option (Word × Word × Word × Word × Bool) :=
  (after w (withRegs l)).map fun t => (readReg t d, t.epc, t.cause, t.pc, t.errmode)

/-- V4. -/
theorem test_add :
    result 0x01095020 [(8, 0xFFFFFFFF), (9, 1)] 10 = some (0, 0x104) ∧
    entry 0x01095020 [(8, 0x7FFFFFFF), (9, 1), (10, 0xDEADBEEF)] 10 = some (0xDEADBEEF, 0x100, 0x30, 0x40000, true) := by decide

/-- V4. -/
theorem test_add_to_zero_register_raises :
    entry 0x01090020 [(8, 0x7FFFFFFF), (9, 1)] 0 = some (0, 0x100, 0x30, 0x40000, true) := by decide

/-- V4. -/
theorem test_addu :
    result 0x01095021 [(8, 0x7FFFFFFF), (9, 1)] 10 = some (0x80000000, 0x104) := by decide

/-- V4. -/
theorem test_sub :
    result 0x01095022 [(8, 5), (9, 7)] 10 = some (0xFFFFFFFE, 0x104) ∧
    entry 0x00095022 [(9, 0x80000000), (10, 0xDEADBEEF)] 10 = some (0xDEADBEEF, 0x100, 0x30, 0x40000, true) := by decide

/-- V4. -/
theorem test_subu :
    result 0x01095023 [(8, 0x80000000), (9, 1)] 10 = some (0x7FFFFFFF, 0x104) := by decide

/-- V4. -/
theorem test_and :
    result 0x01095024 [(8, 0xFF00FF00), (9, 0x0FF00FF0)] 10 = some (0x0F000F00, 0x104) := by decide

/-- V4. -/
theorem test_or :
    result 0x01095025 [(8, 0xFF00FF00), (9, 0x0FF00FF0)] 10 = some (0xFFF0FFF0, 0x104) := by decide

/-- V4. -/
theorem test_xor :
    result 0x01095026 [(8, 0xFF00FF00), (9, 0x0FF00FF0)] 10 = some (0xF0F0F0F0, 0x104) := by decide

/-- V4. -/
theorem test_nor :
    result 0x01095027 [(8, 0xFF00FF00), (9, 0x0FF00FF0)] 10 = some (0x000F000F, 0x104) := by decide

/-- V4. -/
theorem test_slt :
    result 0x0109502A [(8, 0x80000000), (9, 0x7FFFFFFF)] 10 = some (1, 0x104) ∧
    result 0x0109502A [(8, 7), (9, 7)] 10 = some (0, 0x104) := by decide

/-- V4. -/
theorem test_sltu :
    result 0x0109502B [(8, 0xFFFFFFFF), (9, 1)] 10 = some (0, 0x104) ∧
    result 0x0009502B [(9, 0x80000000)] 10 = some (1, 0x104) := by decide

/-- V4. -/
theorem test_addi :
    result 0x21098000 [(8, 0x80008000)] 9 = some (0x80000000, 0x104) ∧
    entry 0x21098000 [(8, 0x80007FFF), (9, 0xDEADBEEF)] 9 = some (0xDEADBEEF, 0x100, 0x30, 0x40000, true) := by decide

/-- V4. -/
theorem test_addiu :
    result 0x25090001 [(8, 0x7FFFFFFF)] 9 = some (0x80000000, 0x104) ∧
    result 0x2508FFFF [(8, 5)] 8 = some (4, 0x104) := by decide

/-- V4. -/
theorem test_slti :
    result 0x2909FFFF [(8, 0xFFFFFFFE)] 9 = some (1, 0x104) ∧
    result 0x29098000 [(8, 0x00008000)] 9 = some (0, 0x104) := by decide

/-- V4. -/
theorem test_sltiu :
    result 0x2D09FFFF [(8, 5)] 9 = some (1, 0x104) ∧
    result 0x2D09FFFF [(8, 0xFFFFFFFF)] 9 = some (0, 0x104) := by decide

/-- V4. -/
theorem test_andi :
    result 0x3109FFFF [(8, 0xFFFFFFFF)] 9 = some (0x0000FFFF, 0x104) := by decide

/-- V4. -/
theorem test_ori :
    result 0x34098000 [] 9 = some (0x00008000, 0x104) := by decide

/-- V4. -/
theorem test_xori :
    result 0x3909FFFF [(8, 0x12345678)] 9 = some (0x1234A987, 0x104) := by decide

/-- V4. -/
theorem test_lui :
    result 0x3C08FFFF [] 8 = some (0xFFFF0000, 0x104) := by decide

/-- V6. -/
theorem test_sll :
    result 0x000957C0 [(9, 0xF000000E)] 10 = some (0, 0x104) ∧
    result 0x00095000 [(9, 0xF000000F)] 10 = some (0xF000000F, 0x104) := by decide

/-- V6. -/
theorem test_srl :
    result 0x00095102 [(9, 0xF000000F)] 10 = some (0x0F000000, 0x104) := by decide

/-- V6. -/
theorem test_sra :
    result 0x00095103 [(9, 0xF000000F)] 10 = some (0xFF000000, 0x104) ∧
    result 0x000957C3 [(9, 0x7FFFFFFF)] 10 = some (0, 0x104) := by decide

/-- V6. -/
theorem test_sllv :
    result 0x01095004 [(8, 36), (9, 0xF000000F)] 10 = some (0x000000F0, 0x104) ∧
    result 0x01095004 [(8, 0xFFFFFFFF), (9, 1)] 10 = some (0x80000000, 0x104) := by decide

/-- V6. -/
theorem test_srlv :
    result 0x01095006 [(8, 0xFFFFFFE1), (9, 0x80000000)] 10 = some (0x40000000, 0x104) := by decide

/-- V6. -/
theorem test_srav :
    result 0x01095007 [(8, 63), (9, 0x80000000)] 10 = some (0xFFFFFFFF, 0x104) := by decide

/-- V6. -/
theorem test_sllv_with_shamt_is_reserved :
    entry 0x01095044 [(10, 0xDEADBEEF)] 10 = some (0xDEADBEEF, 0x100, 0x18, 0x40000, true) := by decide

/-- `hi`, `lo`, `DIVERR`, `pc` and `ERRMODE` after one step from `hi` = 0x11111111, `lo` = 0x22222222 (V5). -/
def hilo (w : Nat) (l : List (RegIdx × Word)) : Option (Word × Word × Bool × Word × Bool) :=
  (after w { withRegs l with hi := 0x11111111#32, lo := 0x22222222#32 }).map fun t =>
    (t.hi, t.lo, t.diverr, t.pc, t.errmode)

/-- V5. -/
theorem test_mult :
    hilo 0x01090018 [(8, 0x80000000), (9, 0x7FFFFFFF)] = some (0xC0000000, 0x80000000, false, 0x104, false) ∧
    hilo 0x01090018 [(8, 0xFFFFFFFF), (9, 2)] = some (0xFFFFFFFF, 0xFFFFFFFE, false, 0x104, false) := by decide

/-- V5. -/
theorem test_multu :
    hilo 0x01090019 [(8, 0xFFFFFFFF), (9, 0xFFFFFFFF)] = some (0xFFFFFFFE, 1, false, 0x104, false) := by decide

/-- V5. -/
theorem test_div :
    hilo 0x0109001A [(8, 0xFFFFFFF9), (9, 2)] = some (0xFFFFFFFF, 0xFFFFFFFD, false, 0x104, false) ∧
    hilo 0x0109001A [(8, 0x80000000), (9, 0xFFFFFFFF)] = some (0, 0x80000000, false, 0x104, false) := by decide

/-- V5. -/
theorem test_div_by_zero :
    hilo 0x0109001A [(8, 7)] = some (0x11111111, 0x22222222, true, 0x104, false) ∧
    hilo 0x0109001B [(8, 7)] = some (0x11111111, 0x22222222, true, 0x104, false) := by decide

/-- V5. -/
theorem test_divu :
    hilo 0x0109001B [(8, 0xFFFFFFF9), (9, 2)] = some (1, 0x7FFFFFFC, false, 0x104, false) ∧
    hilo 0x0109001B [(8, 0x80000000), (9, 0xFFFFFFFF)] = some (0x80000000, 0, false, 0x104, false) := by decide

/-- V5, with the other half unchanged. -/
theorem test_mthi_mtlo :
    hilo 0x01000011 [(8, 0x12345678)] = some (0x12345678, 0x22222222, false, 0x104, false) ∧
    hilo 0x01000013 [(8, 7)] = some (0x11111111, 7, false, 0x104, false) := by decide

/-- V5. -/
theorem test_mfhi_mflo :
    (after 0x00005010 { withRegs [] with hi := 5#32, lo := 12#32 }).map (readReg · 10) = some 5 ∧
    (after 0x00005012 { withRegs [] with hi := 5#32, lo := 12#32 }).map (readReg · 10) = some 12 := by decide

/-- V7. -/
theorem test_jr :
    result 0x03E00008 [(31, 0x10)] 31 = some (0x10, 0x10) := by decide

/-- V7: the target is the old value. -/
theorem test_jalr_same_register :
    result 0x01004009 [(8, 0x200)] 8 = some (0x104, 0x200) := by decide

/-- V7. -/
theorem test_jalr_to_zero_register :
    result 0x01000009 [(8, 0x200)] 0 = some (0, 0x200) := by decide

/-- V7. -/
theorem test_j :
    result 0x08000010 [] 31 = some (0, 0x40) := by decide

/-- V7. -/
theorem test_jal :
    result 0x0C000010 [] 31 = some (0x104, 0x40) := by decide

/-- V7. -/
theorem test_jump_keeps_region :
    jumpTarget 0x10000008#32 0x10#26 = 0x10000040#32 ∧ jumpTarget 0xF0000000#32 0x3FFFFFF#26 = 0xFFFFFFFC#32 := by decide

/-- V7. -/
theorem test_beq :
    result 0x10000003 [] 0 = some (0, 0x110) ∧
    result 0x11090003 [(8, 1), (9, 2)] 8 = some (1, 0x104) := by decide

/-- V7. -/
theorem test_branch_targets_wrap :
    branchTarget 0#32 0xFFFE#16 = 0xFFFFFFFC#32 ∧ branchTarget 0xFFFFFFF8#32 1#16 = 0#32 ∧
    branchTarget 0x00020000#32 0x8000#16 = 4#32 ∧ branchTarget 0x100#32 0x7FFF#16 = 0x20100#32 := by decide

/-- V7. -/
theorem test_bne :
    result 0x1509FFFE [(8, 1)] 8 = some (1, 0xFC) ∧
    result 0x1509FFFE [(8, 3), (9, 3)] 8 = some (3, 0x104) := by decide

/-- V7. -/
theorem test_blez :
    result 0x19000002 [] 0 = some (0, 0x10C) ∧
    result 0x19000002 [(8, 1)] 0 = some (0, 0x104) := by decide

/-- V7. -/
theorem test_bgtz :
    result 0x1D000002 [(8, 0x7FFFFFFF)] 0 = some (0, 0x10C) ∧
    result 0x1D000002 [] 0 = some (0, 0x104) := by decide

/-- V7. -/
theorem test_bltz :
    result 0x05000002 [(8, 0xFFFFFFFF)] 0 = some (0, 0x10C) ∧
    result 0x05000002 [] 0 = some (0, 0x104) := by decide

/-- V7. -/
theorem test_bgez :
    result 0x05010002 [] 0 = some (0, 0x10C) ∧
    result 0x05010002 [(8, 0x80000000)] 0 = some (0, 0x104) := by decide

/-- V7. -/
theorem test_bltzal :
    result 0x07F00002 [(31, 0x80000000)] 31 = some (0x104, 0x10C) ∧
    result 0x05100002 [(8, 1)] 31 = some (0x104, 0x104) := by decide

/-- V7. -/
theorem test_bgezal :
    result 0x05110002 [] 31 = some (0x104, 0x10C) ∧
    result 0x05110002 [(8, 0xFFFFFFFF)] 31 = some (0x104, 0x104) := by decide

/-- The memory of V8: six bytes from 0x00010004, and `x[8]` = 0x00010000. -/
def loadState : State :=
  withBytes (withRegs [(8, 0x00010000), (9, 0xDEADBEEF)]) 0x10004 [0xFE#8, 0xDC#8, 0xBA#8, 0x98#8, 0x01#8, 0x7F#8]

/-- `x[9]` after one step of V8. -/
def loaded (w : Nat) : Option Word := (after w loadState).map (readReg · 9)

/-- The eight bytes from 0x00010004 after one step of V9. -/
def stored (w : Nat) : Option (List Byte) :=
  (after w (withBytes (withRegs [(8, 0x00010000), (9, 0x12345678)]) 0x10004 (List.replicate 8 0xEE#8))).map fun t =>
    (List.range 8).map fun k => t.mem.read (0x10004 + k)

/-- V8. -/
theorem test_lb :
    loaded 0x81090004 = some 0xFFFFFFFE ∧ loaded 0x81090009 = some 0x7F := by decide

/-- V8. -/
theorem test_lbu :
    loaded 0x91090004 = some 0xFE := by decide

/-- V8: aligned and odd. -/
theorem test_lh :
    loaded 0x85090004 = some 0xFFFFFEDC ∧ loaded 0x85090005 = some 0xFFFFDCBA := by decide

/-- V8. -/
theorem test_lhu :
    loaded 0x95090004 = some 0xFEDC := by decide

/-- V8: aligned and unaligned. -/
theorem test_lw :
    loaded 0x8D090004 = some 0xFEDCBA98 ∧ loaded 0x8D090005 = some 0xDCBA9801 := by decide

/-- V8. -/
theorem test_lw_over_its_base :
    (after 0x8D080004 loadState).map (readReg · 8) = some 0xFEDCBA98 ∧
    (after 0x8D000004 loadState).map (readReg · 0) = some 0 := by decide

/-- V9. -/
theorem test_sb :
    stored 0xA1090004 = some [0x78#8, 0xEE#8, 0xEE#8, 0xEE#8, 0xEE#8, 0xEE#8, 0xEE#8, 0xEE#8] := by decide

/-- V9. -/
theorem test_sh :
    stored 0xA5090004 = some [0x56#8, 0x78#8, 0xEE#8, 0xEE#8, 0xEE#8, 0xEE#8, 0xEE#8, 0xEE#8] ∧
    stored 0xA5090005 = some [0xEE#8, 0x56#8, 0x78#8, 0xEE#8, 0xEE#8, 0xEE#8, 0xEE#8, 0xEE#8] := by decide

/-- V9. -/
theorem test_sw :
    stored 0xAD090006 = some [0xEE#8, 0xEE#8, 0x12#8, 0x34#8, 0x56#8, 0x78#8, 0xEE#8, 0xEE#8] ∧
    stored 0xAD000004 = some [0x00#8, 0x00#8, 0x00#8, 0x00#8, 0xEE#8, 0xEE#8, 0xEE#8, 0xEE#8] := by decide

/-- V10: a platform that answers `BusError` at 0x00030000. -/
def busErrorState : State :=
  { withRegs [(8, 0x00030000), (9, 0xDEADBEEF)] with
    status := 3#32
    cfg := { Config.reference with busErrors := [⟨0x00030000#32, 0x00030000#32, true, true⟩] } }

/-- V10, for a load and for a store; a word access at 0x0002FFFD meets the same byte. -/
theorem test_bus_error :
    (after 0x8D090000 busErrorState).map
        (fun t => (t.bvr, readReg t 9, t.epc, t.cause, t.status)) =
      some (0x00030000, 0xDEADBEEF, 0x100, 0x1C, 0x30) ∧
    (after 0xAD09FFFD busErrorState).map (fun t => (t.bvr, t.mem.read 0x2FFFD, t.pc, t.errmode)) =
      some (0x0002FFFD, 0, 0x40000, true) := by decide

/-- A platform whose RAM has 8 bytes. -/
def smallRam : Config := { Config.reference with map := { AddressMap.reference with ramSize := 8 } }

/-- R32, U8: the last byte of the access lies beyond the buffer. -/
theorem test_access_beyond_buffer_refused :
    refusal (exec (.lw 9 8 5) { withRegs [(8, 0x10000)] with cfg := smallRam }) = some .accessBeyondBuffer ∧
    refusal (exec (.sw 9 8 5) { withRegs [(8, 0x10000)] with cfg := smallRam }) = some .accessBeyondBuffer ∧
    refusal (exec (.sw 9 8 4) { withRegs [(8, 0x10000)] with cfg := smallRam }) = none := by decide

/-- A platform on which nothing is mapped below 0x1000. -/
def highText : Config :=
  { Config.reference with map := { AddressMap.reference with textBase := 0x1000#32, textSize := 0xF000 } }

/-- S8, R34: below the lowest base. -/
theorem test_fallback :
    (match exec (.lw 9 0 0xFFC) { withRegs [(9, 5)] with cfg := highText } with
      | .next t => some (readReg t 9)
      | _ => none) = some 0 ∧
    (match exec (.sw 9 0 0xFFC) { withRegs [(9, 5)] with cfg := highText } with
      | .next t => some t.mem
      | _ => none) = some [] := by decide

/-- R34: `MemRead(a, n)` with `a` below the lowest base is 0, whatever its last bytes hold; a store is discarded
(note 12). -/
theorem test_fallback_straddling :
    (match exec (.lhu 9 0 0xFFF) { withBytes (withRegs [(9, 5)]) 0x1000 [0xAB#8] with cfg := highText } with
      | .next t => some (readReg t 9)
      | _ => none) = some 0 ∧
    (match exec (.sw 9 0 0xFFE) { withRegs [(9, 0xFFFFFFFF)] with cfg := highText } with
      | .next t => some t.mem
      | _ => none) = some [] := by decide

/-- R41: a load into register 0 still reads, so it takes the stub's word (note 6). -/
theorem test_load_to_zero_register_reads_stub :
    (match exec (.lw 0 0 0xFFFC) { start with env := { start.env with ioWords := [7, 8] } } with
      | .next t => some (readReg t 0, t.env.ioWords)
      | _ => none) = some (0, [8]) := by decide

/-- V11, with scripted replies: the host returns 99, writes a byte and suspends. -/
theorem test_syscall :
    (after 0x03FFFFCC { withRegs [(2, 5), (4, 1), (5, 2), (6, 3), (7, 4)] with
        env := { Env.fresh with syscallReplies := [⟨some 99, [(0x10000, 0xAB#8)], true⟩] } }).map
      (fun t => (readReg t 2, t.pc, t.suspended, t.mem.read 0x10000, t.env.syscallCalls)) =
    some (99, 0x104, true, 0xAB, [⟨5, 1, 2, 3, 4⟩]) := by decide

/-- V11. -/
theorem test_break :
    (after 0x0000000D { start with cause := 0x30#32, status := 7#32 }).map
      (fun t => (t.epc, t.pc, t.cause, t.status, t.errmode)) = some (0x100, 0x8000, 0x30, 7, false) := by decide

/-- V11: a COP0 word leaves `status` and `ERRMODE` alone; the error-handler ROM is fetched from. -/
theorem test_cop0 :
    (after 0x42000010 { start with status := 0x30#32, errmode := true, pc := 0x40020#32 }).map
      (fun t => (t.pc, t.status, t.errmode)) = some (0x40024, 0x30, true) := by decide

theorem test_cop1_cop2_cop3 :
    (after 0x44000000 start).map (·.pc) = some 0x104 ∧ (after 0x48000000 start).map (·.pc) = some 0x104 ∧
    (after 0x4FFFFFFF start).map (·.pc) = some 0x104 := by decide

/-- V11: an opcode without a row. -/
theorem test_unknown_opcode :
    (after 0xFC000000 { start with status := 0x12345678#32, bvr := 9#32 }).map
      (fun t => (t.epc, t.cause, t.status, t.pc, t.errmode, t.bvr)) =
    some (0x100, 0x18, 0x23456780, 0x40000, true, 9) := by decide

/-- V11: nested entry. -/
theorem test_nested_entry :
    (after 0x01095020 { withRegs [(8, 0x7FFFFFFF), (9, 1)] with
        errmode := true, status := 0x10#32, epc := 0xC#32, pc := 0x40008#32 }).map
      (fun t => (t.epc, t.cause, t.status, t.pc, t.errmode)) = some (0x40008, 0x30, 0x100, 0x40000, true) := by decide

/-- V11: interrupt injection. -/
theorem test_interrupt :
    (match perform .interrupt { start with pc := 0x14#32, status := 1#32 } with
      | .next t => some (t.epc, t.cause, t.status, t.pc, t.errmode)
      | _ => none) = some (0x14, 0, 0x10, 0x40000, true) := by decide

/-- A host operation after an outcome. -/
def andThen (r : Result) (o : HostOp) : Result :=
  match r with
  | .next t => perform o t
  | .fault f => .fault f
  | .refused e => .refused e

/-- A SYSCALL step whose host suspends. -/
def suspendedCall : Result :=
  step (({ start with env := { Env.fresh with syscallReplies := [⟨none, [], true⟩] } } : State).withFetchWord 32 0x0C)

/-- What a test looks at of a delivery: `x[2]`, `SUSPENDED`. -/
def delivered : Result → Option (Word × Bool)
  | .next t => some (readReg t 2, t.suspended)
  | .fault _ => none
  | .refused _ => none

/-- R184, R189: delivery while suspended by a SYSCALL, on a restored machine too; refused before one and after Resume or
Reset. -/
theorem test_deliver :
    delivered (andThen suspendedCall (.deliver (some 7) [])) = some (7, true) ∧
    refusal (perform (.deliver (some 7) []) (pause start)) = some .hostOperationNotLegal ∧
    refusal (andThen (andThen (andThen suspendedCall .resume) .pause) (.deliver (some 7) [])) =
      some .hostOperationNotLegal ∧
    refusal (andThen (andThen (andThen suspendedCall (.reset none [])) .pause) (.deliver (some 7) [])) =
      some .hostOperationNotLegal := by decide

theorem test_deliver_after_restore :
    (match suspendedCall with
      | .next t => delivered (andThen (perform (.restore (snapshot t)) State.reset) (.deliver (some 7) []))
      | _ => none) = some (7, true) := by decide

/-- R28: the memory size is recorded and restored. -/
theorem test_restore_memory_size :
    (match perform (.restore (snapshot { withBytes start 0x10004 [0xAB#8] with cfg := smallRam })) State.reset with
      | .next t => some (t.pc, t.cfg.map.ramSize, t.mem)
      | _ => none) = some (0x100, 8, [(0x10004, 0xAB)]) ∧
    refusal (perform (.restore { snapshot start with
      memory := { (snapshot start).memory with ram := ⟨8, [(8, 1#8)]⟩ } }) start) = some .snapshotDoesNotFit := by decide

/-- Two words and a data block. -/
def sampleProgram : Program :=
  { position := 0x200, words := [0x20080005, 0x0000000C], data := [⟨4, [0xAB, 0xCD]⟩], setPc := true }

/-- R193: words big-endian from the position, data in RAM, `pc` at the first word. -/
theorem test_load :
    (match perform (.load sampleProgram) start with
      | .next t => some (t.pc, t.mem)
      | _ => none) =
      some (0x200, [(0x200, 0x20), (0x201, 0x08), (0x203, 0x05), (0x207, 0x0C), (0x10004, 0xAB), (0x10005, 0xCD)]) ∧
    refusal (perform (.load { sampleProgram with position := 0x20000 }) start) = some .programDoesNotFit ∧
    refusal (perform (.load { sampleProgram with data := [⟨0xFFFF, [1, 2]⟩] }) start) = some .programDoesNotFit := by
  decide

/-- Where a run ended, and whether it reported stopped. -/
def runPc : RunEnd → Option (Bool × Word)
  | .stopped t => some (true, t.pc)
  | .outOfSteps t => some (false, t.pc)
  | .refused _ => none

/-- R197: stops past the terminate SYSCALL; a run begun after it goes on. -/
theorem test_run_stops_at_terminate :
    runPc (runProgram 3 ((writeReg { start with env := { start.env with syscallReplies := [⟨none, [], false⟩] } } 2
      10).withFetchWord 32 0x0C)) = some (true, 0x104) ∧
    runPc (runProgram 2 { start with env := { start.env with syscallCalls := [⟨10, 0, 0, 0, 0⟩] } }) =
      some (false, 0x108) := by decide

/-- R38: what a fetch refuses. -/
theorem test_fetch_refusals :
    refusal (step { start with pc := 0x102#32 }) = some .misalignedPc ∧
    refusal (step { start with pc := 0x10000#32 }) = some .fetchOutsideActiveRegion ∧
    refusal (step { start with errmode := true }) = some .fetchOutsideActiveRegion ∧
    refusal (step { start with
      cfg := { Config.reference with busErrors := [⟨0x103#32, 0x103#32, true, false⟩] } }) = some .fetchBusError ∧
    refusal (step { start with
      cfg := { Config.reference with map := { AddressMap.reference with textSize := 0x102 } } }) =
      some .fetchBeyondBuffer := by decide

/-- The word runs as the first instruction after reset. -/
theorem test_withFetchWord :
    (after 0x20080005 State.reset).map (fun t => (readReg t 8, t.pc)) = some (5, 4) ∧
    (State.reset.withFetchWord 32 0x20080005).cfg = State.reset.cfg := by decide

/-! ### Witnesses: states and operands that meet the hypotheses of the statements -/

/-- The outcome is a next state. -/
def isNext : Result → Bool
  | .next _ => true
  | .fault _ => false
  | .refused _ => false

theorem exists_of_isNext {r : Result} (h : isNext r = true) : ∃ t, r = .next t := by
  cases r with
  | next t => exact ⟨t, rfl⟩
  | fault f => cases f
  | refused r => cases h

/-- The state after reset with a word where it is fetched. -/
def placed (w : Nat) : State := State.reset.withFetchWord 32 w

theorem witness_StepRunsDecodedInstruction :
    (placed 0x01095020).suspended = false ∧ Fetchable (placed 0x01095020) ∧
    decodeWord (wordAtPc (placed 0x01095020)) = .ok (.add 10 8 9) := by
  unfold Fetchable
  decide

theorem witness_UndecodedWordTakesInstructionBus :
    (placed 0xFC000000).suspended = false ∧ Fetchable (placed 0xFC000000) ∧
    decodeWord (wordAtPc (placed 0xFC000000)) = .error .unknownOpcode ∧
    decodeWord (wordAtPc (placed 0x05020002)) = .error .reservedRegimm := by
  unfold Fetchable
  decide

theorem witness_PackIsDefinedExactlyOnValidRecords :
    packChecked (.i (some 8) (some 0) (some 8) (some 5)) = some 0x20080005#32 ∧
    (RawRecord.i (some 8) (some 0) (some 8) (some 5)).fieldsFit = true := by decide

theorem witness_OperandsAreTheWordsFields : decodeWord 0xFFFFFFFF#32 ≠ .ok .cop0 ∧
    decodeWord 0xAFFFFFFF#32 = .ok (.sw 31 31 0xFFFF) ∧ decodeWord 0x00000000#32 = .ok (.sll 0 0 0) := by decide

theorem witness_UnpackAndPackAreInverse :
    (Record.r 0 31 31 31 31 63).wellFormed = true ∧ (Record.i 63 31 31 0xFFFF).wellFormed = true ∧
    (Record.j 3 0x3FFFFFF).wellFormed = true := by decide

theorem witness_CodecReadsFourBigEndianBytes :
    ([] : List Byte).length < 4 ∧ [1#8, 2#8, 3#8].length < 4 := by decide

theorem witness_ZeroWordOnlyAdvancesPc :
    State.reset.suspended = false ∧ Fetchable State.reset ∧ wordAtPc State.reset = 0#32 := by
  unfold Fetchable
  decide

theorem witness_SuspendedStepChangesNothing : (pause start).suspended = true := by decide

theorem witness_MisalignedPcIsRefused :
    start.suspended = false ∧ ({ start with pc := 1#32 } : State).pc.toNat % 4 ≠ 0 ∧
    ({ start with pc := 0xFFFFFFFF#32 } : State).pc.toNat % 4 ≠ 0 := by decide

theorem placed_lw_decodes : decodeWord (wordAtPc (placed 0x8C090004)) = .ok (.lw 9 0 4) := by decide

theorem witness_StepCompletesUnlessAccessBeyondBuffer :
    Fetchable (placed 0x8C090004) ∧
    ∀ i k ea n, decodeWord (wordAtPc (placed 0x8C090004)) = .ok i →
      memoryAccess i (placed 0x8C090004) = some (k, ea, n) →
      ∀ a ∈ routedAddrs (placed 0x8C090004).cfg ea n, byteTarget (placed 0x8C090004).cfg k a ≠ .beyondBuffer := by
  refine ⟨by unfold Fetchable; decide, fun i k ea n hi h => ?_⟩
  rw [placed_lw_decodes] at hi
  injection hi with hi
  subst hi
  injection h with h
  injection h with h1 h
  injection h with h2 h3
  subst h1 h2 h3
  exact fun a ha => ((accessStatus_ok_iff _ _ _).mp (by decide) a ha).2

theorem witness_RegisterReadsLastWriteAndZeroStaysZero :
    readReg (writeReg start 31 5) 31 = 5 ∧ readReg (writeReg start 0 5) 0 = 0 := by decide

/-- Each clause, at the last value that fits and the first that does not. -/
theorem witness_SignedAddSubWriteOrRaise :
    (0x7FFFFFFF#32).toInt + (0#32).toInt = 2147483647 ∧ (0x7FFFFFFF#32).toInt + (1#32).toInt = 2147483648 ∧
    (0x80000000#32).toInt - (0#32).toInt = -2147483648 ∧ (0x80000000#32).toInt - (1#32).toInt = -2147483649 ∧
    (0x80008000#32).toInt + (0x8000#16).toInt = -2147483648 ∧
    (0x80007FFF#32).toInt + (0x8000#16).toInt = -2147483649 := by decide

/-- The corner -2^31 / -1 has the quotient 2^31 and the remainder 0. -/
theorem witness_DivideWritesQuotientAndRemainder :
    readReg (withRegs [(8, 0x80000000), (9, 0xFFFFFFFF)]) 9 ≠ 0#32 ∧ readReg (withRegs [(8, 7)]) 9 = 0#32 ∧
    (0x80000000#32).toInt = 2147483648 * (0xFFFFFFFF#32).toInt + 0 ∧
    (0 : Int).natAbs < (0xFFFFFFFF#32).toInt.natAbs ∧
    (0xFFFFFFF9#32).toInt = -3 * (2#32).toInt + -1 ∧ (-1 : Int).natAbs < (2#32).toInt.natAbs ∧
    (0x80000000#32).toNat = 0 * (0xFFFFFFFF#32).toNat + 0x80000000 := by decide

theorem witness_HiLoWrittenOnlyByTheirInstructions :
    (∀ rs rt, Instr.lw 9 0 4 ≠ .mult rs rt ∧ Instr.lw 9 0 4 ≠ .multu rs rt ∧ Instr.lw 9 0 4 ≠ .div rs rt ∧
      Instr.lw 9 0 4 ≠ .divu rs rt ∧ Instr.lw 9 0 4 ≠ .mthi rs ∧ Instr.lw 9 0 4 ≠ .mtlo rs) ∧
    ∃ t, exec (.lw 9 0 4) start = .next t :=
  ⟨fun _ _ => ⟨nofun, nofun, nofun, nofun, nofun, nofun⟩, exists_of_isNext (by decide)⟩

theorem reference_wf : Config.reference.wf :=
  ⟨by decide, by decide, by decide, by decide, by decide, by decide⟩

theorem witness_OnlyRegisterJumpsMisalignPc :
    start.cfg.wf ∧ start.pc.toNat % 4 = 0 ∧ (∀ rd rs, Instr.beq 0 0 3 ≠ .jr rs ∧ Instr.beq 0 0 3 ≠ .jalr rd rs) ∧
    ∃ t, exec (.beq 0 0 3) start = .next t :=
  ⟨reference_wf, by decide, fun _ _ => ⟨nofun, nofun⟩, exists_of_isNext (by decide)⟩

/-- R6: the greatest code whose shift by 2 stays below bit 8 of the mask fits; the next does not, nor one above the mask,
nor one whose bits leave the register, under a mask of zero too. -/
theorem test_codeFits_bounds :
    Config.reference.codeFits 63 ∧ ¬Config.reference.codeFits 64 ∧ ¬Config.reference.codeFits 0x4000 ∧
    ¬Config.reference.codeFits 0x40000000 ∧
    ¬(Config.codeFits { Config.reference with causeIntMask := 0 } 0x40000000) := by decide

/-- A map with addresses below the lowest base and above the I/O stub. -/
def gapMap : AddressMap :=
  { AddressMap.reference with
    textBase := 0x1000#32, textSize := 0xF000, videoSize := 0xFFFAFF00, ioAddr := 0xFFFFFF00#32 }

/-- The platform of `gapMap`. -/
def gapConfig : Config := { Config.reference with map := gapMap }

theorem gapConfig_wf : gapConfig.wf :=
  ⟨by decide, by decide, by decide, by decide, by decide, by decide⟩

/-- Each clause, at both ends of its range. -/
theorem witness_RouterPicksWindowByBase :
    gapMap.wf ∧ route gapMap 0xFFF = (.zero, 0) ∧ route gapMap 0x1000 = (.text, 0) ∧
    route gapMap 0xFFFF = (.text, 0xEFFF) ∧ route gapMap 0x10000 = (.ram, 0) ∧
    route gapMap 0x1FFFF = (.ram, 0xFFFF) ∧ route gapMap 0x20000 = (.stack, 0) ∧
    route gapMap 0x3FFFF = (.stack, 0x1FFFF) ∧ route gapMap 0x4FFFF = (.erom, 0xFFFF) ∧
    route gapMap 0x40000 = (.erom, 0) ∧ route gapMap 0x50000 = (.video, 0) ∧
    route gapMap 0xFFFFFEFF = (.video, 0xFFFAFEFF) ∧ route gapMap 0xFFFFFF00 = (.io, 0) ∧
    route gapMap 0xFFFFFF03 = (.io, 0) ∧ route gapMap 0xFFFFFF04 = (.video, 0xFFFAFF04) := by decide

/-- Each width: inside a buffer, at the I/O stub, where the access wraps around the address space, and below the lowest
base; each kind of byte. -/
theorem witness_LoadsWidenHeldBytes :
    Accessible Config.reference .read 0x1FFFF .byte ∧ Accessible Config.reference .read 0x1FFFF .half ∧
    Accessible Config.reference .read 0xFFFFFFFC .word ∧ Accessible Config.reference .read 0xFFFFFFFE .word ∧
    Accessible gapConfig .read 0xFFE .word ∧ byteTarget Config.reference .read 0x1FFFF = .buffer .ram ∧
    byteTarget Config.reference .read 0xFFFFFFFF = .ioStub 3 ∧ byteTarget gapConfig .read 0xFFF = .fallback :=
  ⟨(accessStatus_ok_iff _ _ _).mp (by decide), (accessStatus_ok_iff _ _ _).mp (by decide),
    (accessStatus_ok_iff _ _ _).mp (by decide), (accessStatus_ok_iff _ _ _).mp (by decide),
    (accessStatus_ok_iff _ _ _).mp (by decide), by decide⟩

theorem witness_StoresWriteBigEndianBytes :
    start.mem.wf ∧ Accessible Config.reference .write 0x1FFFF .byte ∧
    Accessible Config.reference .write 0x1FFFF .half ∧ Accessible Config.reference .write 0xFFFFFFFE .word :=
  ⟨by decide, (accessStatus_ok_iff _ _ _).mp (by decide), (accessStatus_ok_iff _ _ _).mp (by decide),
    (accessStatus_ok_iff _ _ _).mp (by decide)⟩

theorem witness_BusErrorCapturesAddressAndRaises :
    memoryAccess (.lw 9 8 0xFFFD) busErrorState = some (.read, 0x2FFFD, .word) ∧
    (∃ a ∈ routedAddrs busErrorState.cfg 0x2FFFD .word, byteTarget busErrorState.cfg .read a = .busError) ∧
    memoryAccess (.sb 9 8 0) busErrorState = some (.write, 0x30000, .byte) ∧
    (∃ a ∈ routedAddrs busErrorState.cfg 0x30000 .byte, byteTarget busErrorState.cfg .write a = .busError) :=
  ⟨by decide, (accessStatus_busError_iff _ _ _).mp (by decide), by decide,
    (accessStatus_busError_iff _ _ _).mp (by decide)⟩

theorem witness_AccessBeyondBufferIsRefused :
    memoryAccess (.lw 9 8 5) { withRegs [(8, 0x10000)] with cfg := smallRam } = some (.read, 0x10005, .word) ∧
    ((∀ a ∈ routedAddrs smallRam 0x10005 .word, byteTarget smallRam .read a ≠ .busError) ∧
      ∃ a ∈ routedAddrs smallRam 0x10005 .word, byteTarget smallRam .read a = .beyondBuffer) ∧
    memoryAccess (.sw 9 8 5) { withRegs [(8, 0x10000)] with cfg := smallRam } = some (.write, 0x10005, .word) ∧
    ((∀ a ∈ routedAddrs smallRam 0x10005 .word, byteTarget smallRam .write a ≠ .busError) ∧
      ∃ a ∈ routedAddrs smallRam 0x10005 .word, byteTarget smallRam .write a = .beyondBuffer) :=
  ⟨by decide, (accessStatus_beyondBuffer_iff _ _ _).mp (by decide), by decide,
    (accessStatus_beyondBuffer_iff _ _ _).mp (by decide)⟩

theorem witness_BelowLowestBaseReadsZeroAndDropsStores :
    gapConfig.wf ∧
    (readReg start 0 + (0xFFF#16).signExtend 32).toNat < gapConfig.map.textBase.toNat ∧
    (readReg start 0 + (0#16).signExtend 32).toNat < gapConfig.map.textBase.toNat :=
  ⟨gapConfig_wf, by decide⟩

theorem witness_StoredWordReadsBack :
    start.mem.wf ∧
    ∀ k, k < 4 → takesStore start.cfg (0x10001#32 + BitVec.ofNat 32 k) = true ∧
      busErrorAt start.cfg .read (0x10001#32 + BitVec.ofNat 32 k) = false := by decide

theorem witness_IoStubWordAccess :
    start.cfg.busErrors = [] ∧ start.cfg.map.ioAddr.toNat + 3 < 2 ^ 32 ∧
    readReg start 0 + (0xFFFC#16).signExtend 32 = start.cfg.map.ioAddr := by decide

theorem witness_MemoryChangedOnlyByStoresAndSyscall :
    (∀ rt rs imm, Instr.lb 9 0 4 ≠ .sb rt rs imm ∧ Instr.lb 9 0 4 ≠ .sh rt rs imm ∧ Instr.lb 9 0 4 ≠ .sw rt rs imm) ∧
    Instr.lb 9 0 4 ≠ .syscall ∧ ∃ t, exec (.lb 9 0 4) start = .next t :=
  ⟨fun _ _ _ => ⟨nofun, nofun, nofun⟩, nofun, exists_of_isNext (by decide)⟩

theorem witness_CanonicalMemoriesReadAlikeAreEqual :
    Memory.wf [(5, 1#8), (9, 2#8)] ∧
    ∀ a, Memory.read [(5, 1#8), (9, 2#8)] a = Memory.read (Memory.write [(5, 1#8)] 9 2#8) a :=
  ⟨by decide, fun _ => rfl⟩

theorem witness_SyscallNotifiesHostAndAdvances :
    ({ start with env := { start.env with syscallReplies := [⟨none, [], true⟩] } } : State).env.syscallReplies.head? =
      some ⟨none, [], true⟩ := by decide

theorem witness_CoprocessorWordsAreNoOps :
    (0x40000000#32 >>> 26).toNat = 0x10 ∧ (0x43FFFFFF#32 >>> 26).toNat = 0x10 ∧
    (0x47FFFFFF#32 >>> 26).toNat = 0x11 ∧ (0x48000000#32 >>> 26).toNat = 0x12 ∧
    (0x4FFFFFFF#32 >>> 26).toNat = 0x13 := by decide

theorem witness_OnlySyscallSuspends :
    (∃ t, exec .syscall (pause start) = .next t) ∧ (∃ t, exec (.add 10 8 9) (pause start) = .next t) ∧
    (pause start).suspended = true ∧ Instr.add 10 8 9 ≠ .syscall :=
  ⟨⟨_, rfl⟩, ⟨_, rfl⟩, by decide, nofun⟩

theorem witness_InterruptEntersWithoutGating : (pause start).suspended = true ∧ start.suspended = false := by decide

/-- A state in error mode that can fetch from the error-handler ROM, with a byte in RAM. -/
def inHandler : State := { withBytes start 0x10000 [1#8] with errmode := true, diverr := true, pc := 0x40020#32 }

theorem witness_NoStepClearsErrorFlags :
    (∃ t, step inHandler = .next t) ∧ inHandler.errmode = true ∧ inHandler.diverr = true :=
  ⟨exists_of_isNext (by decide), by decide⟩

/-- Each of the cases occurs: nothing, BREAK, OVERFLOW, INSTRUCTION_BUS, DATA_BUS. -/
theorem witness_ExceptionRegistersChangeOnlyByEntryOrBreak :
    (∃ t, step inHandler = .next t) ∧ (∃ t, step (placed 0x0000000D) = .next t) ∧
    (∃ t, step ((withRegs [(8, 0x7FFFFFFF)]).withFetchWord 32 0x21090001) = .next t) ∧
    (∃ t, step (placed 0xFC000000) = .next t) ∧ (∃ t, step (busErrorState.withFetchWord 32 0x8D090000) = .next t) :=
  ⟨exists_of_isNext (by decide), exists_of_isNext (by decide), exists_of_isNext (by decide),
    exists_of_isNext (by decide), exists_of_isNext (by decide)⟩

theorem witness_StatusAndErrmodeDoNotInfluenceExecution :
    (∃ t, exec (.lw 9 0 4) start = .next t) ∧
    refusal (exec (.lw 9 8 5) { withRegs [(8, 0x10000)] with cfg := smallRam }) = some .accessBeyondBuffer :=
  ⟨exists_of_isNext (by decide), by decide⟩

theorem witness_OnlyResetAndRestoreClearErrorFlags :
    ∃ t, perform (.reset none []) inHandler = .next t ∧ inHandler.errmode = true ∧ t.errmode = false :=
  ⟨_, rfl, by decide, rfl⟩

theorem inHandler_inv : inHandler.Inv := ⟨by decide, by decide, reference_wf, nofun⟩

/-- On a machine with other memory sizes and contents. -/
theorem witness_SnapshotRestoresLosslessly :
    inHandler.Inv ∧
    ({ smallRam with
      map := { smallRam.map with
        textSize := inHandler.cfg.map.textSize
        ramSize := inHandler.cfg.map.ramSize
        stackSize := inHandler.cfg.map.stackSize
        eromSize := inHandler.cfg.map.eromSize
        videoSize := inHandler.cfg.map.videoSize } } : Config) = inHandler.cfg ∧
    ({ inHandler.env with deliveryOpen := inHandler.env.deliveryOpen } : Env) = inHandler.env :=
  ⟨inHandler_inv, rfl, rfl⟩

theorem witness_StepKeepsStateInvariant : inHandler.Inv ∧ ∃ t, step inHandler = .next t :=
  ⟨inHandler_inv, exists_of_isNext (by decide)⟩

theorem start_inv : start.Inv := ⟨Memory.nil_wf, by decide, reference_wf, nofun⟩

theorem witness_HostOperationsKeepStateInvariant :
    inHandler.Inv ∧ (∃ t, perform .interrupt inHandler = .next t) ∧
    (∃ t, perform (.load sampleProgram) inHandler = .next t) ∧
    ∃ t, perform (.restore (snapshot start)) inHandler = .next t :=
  ⟨inHandler_inv, exists_of_isNext (by decide), exists_of_isNext (by decide), exists_of_isNext (by decide)⟩

/-- Text filled to its last byte, and RAM to its last byte. -/
theorem witness_LoadPlacesWordsAndData :
    start.Inv ∧
    (let p : Program := { sampleProgram with position := 0xFFF8, data := [⟨0, [1]⟩, ⟨0xFFFE, [2, 3]⟩] }
     start.cfg.map.textBase.toNat ≤ p.position.toNat ∧
     p.position.toNat + 4 * p.words.length ≤ start.cfg.map.textBase.toNat + start.cfg.map.textSize ∧
     (∀ d ∈ p.data, d.offset + d.content.length ≤ start.cfg.map.ramSize) ∧
     p.data.Pairwise (fun d e =>
       d.offset + d.content.length ≤ e.offset ∨ e.offset + e.content.length ≤ d.offset)) ∧
    start.mem.wf ∧ (∃ t, perform (.load sampleProgram) start = .next t) ∧
    inRegion start.cfg.map .text 0x20000 = false ∧ inRegion start.cfg.map .ram 0x20000 = false :=
  ⟨start_inv, by decide, by decide, exists_of_isNext (by decide), by decide⟩

theorem witness_DeliveryOnlyWhileSuspendedByCall :
    (match suspendedCall with
      | .next t => t.suspended && t.env.deliveryOpen
      | _ => false) = true ∧
    ¬((pause start).suspended = true ∧ (pause start).env.deliveryOpen = true) ∧
    (∃ t u, perform .resume (pause start) = .next t ∧ perform .pause t = .next u) ∧
    inHandler.Inv ∧ ∃ t, perform (.restore (snapshot inHandler)) start = .next t :=
  ⟨by decide, by decide, ⟨_, _, rfl, rfl⟩, inHandler_inv, exists_of_isNext (by decide)⟩

theorem witness_RunStopsAtTerminateOfThisRun :
    (runPc (runProgram 1 ((writeReg { start with env := { start.env with syscallReplies := [⟨none, [], false⟩] } } 2
      10).withFetchWord 32 0x0C))).isSome = true ∧
    (∃ t, step (placed 0x0000000C) = .next t) ∧ (∃ t, step (placed 0x01095020) = .next t) ∧
    decodeWord (wordAtPc ((writeReg start 2 10).withFetchWord 32 0x0C)) = .ok .syscall ∧
    readReg ((writeReg start 2 10).withFetchWord 32 0x0C) 2 = 10#32 ∧
    ((writeReg start 2 10).withFetchWord 32 0x0C).suspended = false ∧
    (∃ t, step ((writeReg start 2 10).withFetchWord 32 0x0C) = .next t) ∧
    step { start with pc := 1 } = .refused .misalignedPc :=
  ⟨by decide, exists_of_isNext (by decide), exists_of_isNext (by decide), by decide, by decide, by decide,
    exists_of_isNext (by decide), rfl⟩

theorem witness_ReachableStatesSatisfyInvariant :
    Reachable (State.construct Config.reference (some 0x100) (hostWrites AddressMap.reference [] [(0x10000, 1)])
      Env.fresh) :=
  .construct Config.reference (some 0x100) [(0x10000, 1)] Env.fresh reference_wf

end Sys2Proof.Tests
end

section
/-! SUPPORT. What each instruction does outside the general registers and memory, and which instructions do it. `Effect`
(Laws/Exec.lean) says what some instruction can do; the rules about a named instruction's reach need this sharper form. -/

namespace Sys2Proof.Machine

/-- `hi`, `lo`, the exception registers and the three flags are as before. -/
structure KeepsSpecialRegs (s t : State) : Prop where
  hilo : SameHiLo s t
  exc : SameExcRegs s t
  flags : SameFlags s t

/-- The instructions that can write `hi` and `lo` (spec/10_state.md R16). -/
def WritesHiLo (i : Instr) : Prop :=
  ∃ rs rt, i = .mult rs rt ∨ i = .multu rs rt ∨ i = .div rs rt ∨ i = .divu rs rt ∨ i = .mthi rs ∨ i = .mtlo rs

/-- The instructions that can overflow (spec/41_arith_logic.md R80). -/
def CanOverflow (i : Instr) : Prop :=
  ∃ rd rs rt imm, i = .add rd rs rt ∨ i = .sub rd rs rt ∨ i = .addi rt rs imm

/-- The access that `i` makes at `s` meets a `BusError` and has effective address `ea`. -/
def MeetsBusError (i : Instr) (s : State) (ea : Word) : Prop :=
  ∃ k n, memoryAccess i s = some (k, ea, n) ∧ ∃ a ∈ routedAddrs s.cfg ea n, byteTarget s.cfg k a = .busError

/-- The next states of one instruction, told apart by what they do to `hi`, `lo`, the exception registers and the
flags. -/
inductive InstrEffect (s : State) : Instr → State → Prop where
  | quiet {i : Instr} {t : State} (h : KeepsSpecialRegs s t) : InstrEffect s i t
  | wroteHiLo {i : Instr} (h : WritesHiLo i) (hi lo : Word) : InstrEffect s i (writeHiLo s hi lo)
  | dividedByZero {i : Instr} (h : WritesHiLo i) : InstrEffect s i (divideByZero s)
  | overflowed {i : Instr} (h : CanOverflow i) : InstrEffect s i (raise .overflow s)
  | raisedDataBus {i : Instr} {ea : Word} (h : MeetsBusError i s ea) : InstrEffect s i (raiseDataBus ea s)
  | notified : InstrEffect s .syscall (retire (syscallNotify s))
  | broke : InstrEffect s .brk { s with epc := s.pc, pc := s.cfg.breakVector }

/-! ### The shapes of a next state that keep the special registers -/

theorem RetiresWriting.keepsSpecialRegs {s t : State} {d : RegIdx} {v : Word} (h : RetiresWriting s t d v) :
    KeepsSpecialRegs s t := ⟨h.hilo, h.exc, h.flags⟩

theorem RetiresLoading.keepsSpecialRegs {s t : State} {ea : Word} {n : AccessWidth} {d : RegIdx} {v : Word}
    (h : RetiresLoading s t ea n d v) : KeepsSpecialRegs s t := ⟨h.hilo, h.exc, h.flags⟩

theorem GoesTo.keepsSpecialRegs {s t : State} {target : Word} (h : GoesTo s t target) :
    KeepsSpecialRegs s t := ⟨h.hilo, h.exc, h.flags⟩

theorem LinksAndGoesTo.keepsSpecialRegs {s t : State} {d : RegIdx} {target : Word} (h : LinksAndGoesTo s t d target) :
    KeepsSpecialRegs s t := ⟨h.hilo, h.exc, h.flags⟩

/-- A store, over any memory (`stored_retiresStoring` asks for a canonical one). -/
theorem stored_keepsSpecialRegs (s : State) (ea : Word) (n : AccessWidth) (v : Word) :
    KeepsSpecialRegs s (retire (afterWrite s ea n v)) where
  hilo := by simp [SameHiLo]
  exc := by simp [SameExcRegs]
  flags := by simp [SameFlags]

theorem divideByZero_sameExcRegs (s : State) : SameExcRegs s (divideByZero s) := ⟨rfl, rfl, rfl, rfl⟩

theorem notified_sameHiLo (s : State) : SameHiLo s (retire (syscallNotify s)) := by simp [SameHiLo]

theorem notified_sameExcRegs (s : State) : SameExcRegs s (retire (syscallNotify s)) := by simp [SameExcRegs]

/-! ### The effect of each instruction -/

theorem writeBackSigned_instrEffect {i : Instr} (h : CanOverflow i) (s : State) (d : RegIdx) (r : Int) :
    InstrEffect s i (writeBackSigned s d r) := by
  unfold writeBackSigned
  split
  · exact .overflowed h
  · exact .quiet (writeBack_retiresWriting s d _).keepsSpecialRegs

/-- A load that answers a next state has loaded, or its access meets the bus error. -/
theorem load_instrEffect {i : Instr} {s t : State} {rt : RegIdx} {ea : Word} {n : AccessWidth} {f : Word → Word}
    (hi : memoryAccess i s = some (.read, ea, n)) (h : load s rt ea n f = .next t) : InstrEffect s i t := by
  rcases load_next h with ⟨-, rfl⟩ | ⟨hb, rfl⟩
  · exact .quiet (loaded_retiresLoading s ea n rt _).keepsSpecialRegs
  · exact .raisedDataBus ⟨.read, n, hi, (accessStatus_busError_iff _ _ _).mp hb⟩

/-- A store that answers a next state has stored, or its access meets the bus error. -/
theorem store_instrEffect {i : Instr} {s t : State} {ea : Word} {n : AccessWidth} {v : Word}
    (hi : memoryAccess i s = some (.write, ea, n)) (h : store s ea n v = .next t) : InstrEffect s i t := by
  rcases store_next h with ⟨-, rfl⟩ | ⟨hb, rfl⟩
  · exact .quiet (stored_keepsSpecialRegs s ea n v)
  · exact .raisedDataBus ⟨.write, n, hi, (accessStatus_busError_iff _ _ _).mp hb⟩

/-- A divide, told apart by whether its divisor is zero. -/
theorem divide_instrEffect {i : Instr} (hi : WritesHiLo i) {zero : Prop} [Decidable zero] {s t : State} {q r : Word}
    (h : (if zero then .next (divideByZero s) else .next (writeHiLo s r q) : Result) = .next t) :
    InstrEffect s i t := by
  split at h <;> (injection h with h; subst h)
  · exact .dividedByZero hi
  · exact .wroteHiLo hi r q

/-- What an instruction does to `hi`, `lo`, the exception registers and the flags, by instruction. -/
theorem exec_instrEffect {i : Instr} {s t : State} (h : exec i s = .next t) : InstrEffect s i t := by
  cases i with
  | lb rt rs imm | lbu rt rs imm | lh rt rs imm | lhu rt rs imm | lw rt rs imm =>
    simp only [exec_lb, exec_lbu, exec_lh, exec_lhu, exec_lw] at h
    exact load_instrEffect rfl h
  | sb rt rs imm | sh rt rs imm | sw rt rs imm =>
    simp only [exec_sb, exec_sh, exec_sw] at h
    exact store_instrEffect rfl h
  | div rs rt | divu rs rt =>
    simp only [exec, execDiv, execDivu] at h
    exact divide_instrEffect ⟨rs, rt, by simp⟩ h
  | mult rs rt | multu rs rt =>
    cases h
    exact .wroteHiLo ⟨rs, rt, by simp⟩ _ _
  | mthi rs | mtlo rs =>
    cases h
    exact .wroteHiLo ⟨rs, 0#5, by simp⟩ _ _
  | add rd rs rt | sub rd rs rt =>
    cases h
    exact writeBackSigned_instrEffect ⟨rd, rs, rt, 0#16, by simp⟩ s rd _
  | addi rt rs imm =>
    cases h
    exact writeBackSigned_instrEffect ⟨0#5, rs, rt, imm, by simp⟩ s rt _
  | syscall =>
    cases h
    exact .notified
  | brk =>
    cases h
    exact .broke
  | jr | j =>
    cases h
    exact .quiet (jumpTo_goesTo s _).keepsSpecialRegs
  | jalr | jal =>
    cases h
    exact .quiet (linked_linksAndGoesTo s _ _).keepsSpecialRegs
  | beq | bne | blez | bgtz | bltz | bgez =>
    cases h
    exact .quiet (branch_goesTo s _ _).keepsSpecialRegs
  | bltzal | bgezal =>
    cases h
    exact .quiet (branch_link_linksAndGoesTo s _ _ _).keepsSpecialRegs
  | cop0 | cop1 | cop2 | cop3 =>
    cases h
    exact .quiet (retire_goesTo s).keepsSpecialRegs
  | addu | subu | and | or | xor | nor | slt | sltu | sll | srl | sra | sllv | srlv | srav | mfhi | mflo | addiu | slti
  | sltiu | andi | ori | xori | lui =>
    cases h
    exact .quiet (writeBack_retiresWriting s _ _).keepsSpecialRegs

/-! ### What the effects keep -/

/-- An exception entry changes neither `hi` nor `lo` (spec/60_exceptions.md R174). -/
theorem InstrEffect.sameHiLo {i : Instr} {s t : State} (h : InstrEffect s i t) (hw : ¬WritesHiLo i) :
    SameHiLo s t := by
  cases h with
  | quiet h => exact h.hilo
  | wroteHiLo h | dividedByZero h => exact absurd h hw
  | overflowed => exact (raise_entersException _ s).hilo
  | raisedDataBus => exact (raiseDataBus_entersException _ s).hilo
  | notified => exact notified_sameHiLo s
  | broke => exact ⟨rfl, rfl⟩

theorem InstrEffect.suspended_eq {i : Instr} {s t : State} (h : InstrEffect s i t) (hi : i ≠ .syscall) :
    t.suspended = s.suspended := by
  cases h with
  | quiet h =>
    obtain ⟨-, -, hs⟩ := h.flags
    exact hs
  | notified => exact absurd rfl hi
  | wroteHiLo | dividedByZero | overflowed | raisedDataBus | broke => rfl

theorem exec_syscall_suspended {s t : State} (h : exec .syscall s = .next t) :
    t.suspended = (s.suspended || (syscallReply s).suspend) := by
  cases h
  exact syscallNotify_suspended s

/-- The two flags a step can only set (spec/10_state.md R21, R22). -/
theorem Effect.keepsErrorFlags {s t : State} (h : Effect s t) :
    (s.errmode = true → t.errmode = true) ∧ (s.diverr = true → t.diverr = true) := by
  cases h with
  | dividedByZero => exact ⟨id, fun _ => rfl⟩
  | overflowed | undecoded | raisedDataBus => exact ⟨fun _ => rfl, id⟩
  | wrote | loaded | stored | jumped | wroteHiLo | notified | broke => simp
  | linked => simp [link]

/-! ### The statements -/

/-- Settles O26, by the effect of the instruction. -/
theorem hiLoWrittenOnlyByTheirInstructions : Obligations.HiLoWrittenOnlyByTheirInstructions := by
  intro i s t hi h
  refine (exec_instrEffect h).sameHiLo ?_
  rintro ⟨rs, rt, hw⟩
  have hne := hi rs rt
  tauto

/-- Settles O45: SYSCALL can only set the flag, and the other instructions leave it. -/
theorem onlySyscallSuspends : Obligations.OnlySyscallSuspends := by
  intro i s t h
  refine ⟨(exec_instrEffect h).suspended_eq, fun hs => ?_⟩
  by_cases hi : i = .syscall
  · subst hi
    simp [exec_syscall_suspended h, hs]
  · rw [(exec_instrEffect h).suspended_eq hi, hs]

/-- Settles O47, by the effect of the step. -/
theorem noStepClearsErrorFlags : Obligations.NoStepClearsErrorFlags := by
  intro s t h
  rcases step_effect h with ⟨-, rfl⟩ | ⟨-, he⟩
  · exact ⟨id, id⟩
  · exact he.keepsErrorFlags

/-- Settles O48, by what the step ran and, where it ran an instruction, by that instruction's effect. -/
theorem exceptionRegistersChangeOnlyByEntryOrBreak : Obligations.ExceptionRegistersChangeOnlyByEntryOrBreak := by
  intro s t h decoded
  rcases step_next h with ⟨-, rfl⟩ | ⟨-, -, ⟨i, hd, hx⟩ | ⟨he, rfl⟩⟩
  · exact .inl ⟨⟨rfl, rfl, rfl, rfl⟩, rfl⟩
  · cases exec_instrEffect hx with
    | quiet h =>
      obtain ⟨-, herrmode, -⟩ := h.flags
      exact .inl ⟨h.exc, herrmode⟩
    | wroteHiLo _ hi lo => exact .inl ⟨(writeHiLo_retiresHiLo s hi lo).exc, rfl⟩
    | dividedByZero => exact .inl ⟨divideByZero_sameExcRegs s, rfl⟩
    | notified => exact .inl ⟨notified_sameExcRegs s, syscallNotify_errmode s⟩
    | broke =>
      exact .inr (.inl ⟨hd, rfl, rfl, rfl, rfl, rfl, fun _ => rfl, ⟨rfl, rfl⟩, ⟨rfl, rfl, rfl⟩, fun _ => rfl, rfl,
        rfl⟩)
    | overflowed ho =>
      obtain ⟨rd, rs, rt, imm, ho⟩ := ho
      refine .inr (.inr (.inr (.inl ⟨⟨rd, rs, rt, imm, ?_⟩, raise_entersException .overflow s, rfl⟩)))
      rcases ho with rfl | rfl | rfl
      · exact .inl hd
      · exact .inr (.inl hd)
      · exact .inr (.inr hd)
    | raisedDataBus hb =>
      obtain ⟨k, n, ha, hb⟩ := hb
      exact .inr (.inr (.inr (.inr ⟨i, k, _, n, hd, ha, hb, raiseDataBus_entersException _ s, rfl⟩)))
  · exact .inr (.inr (.inl ⟨he, raise_entersException .instructionBus s, rfl⟩))

end Sys2Proof.Machine
end

section
/-! SUPPORT. A snapshot and its restoring (spec/10_state.md R28): a canonical memory is told by what it reads, and the
bytes recorded of it, region by region, write it again. Last, the general registers. -/

namespace Sys2Proof.Machine

/-! ### Canonical memories -/

/-- A canonical memory lists exactly the bytes that do not read blank. -/
theorem Memory.mem_iff_read {m : Memory} (hm : m.wf) {a : Nat} {b : Byte} :
    (a, b) ∈ m ↔ m.read a = b ∧ b ≠ Memory.blank := by
  refine ⟨fun h => ⟨Memory.read_of_mem hm h, hm.2 _ h⟩, fun ⟨hr, hb⟩ => ?_⟩
  by_cases hl : ∀ c ∈ m, a ≠ c.1
  · exact absurd (hr.symm.trans (Memory.read_of_not_mem hl)) hb
  · push Not at hl
    obtain ⟨⟨k, v⟩, hc, rfl⟩ := hl
    rwa [← hr, Memory.read_of_mem hm hc]

/-- Canonical memories that read alike are equal (note 9). -/
theorem Memory.eq_of_read_eq {m m' : Memory} (hm : m.wf) (hm' : m'.wf) (h : ∀ a, m.read a = m'.read a) : m = m' := by
  have mem_iff : ∀ c, c ∈ m ↔ c ∈ m' := fun (a, b) => by
    rw [Memory.mem_iff_read hm, Memory.mem_iff_read hm', h]
  have : Std.Irrefl fun c d : Host.Cell => c.1 < d.1 := ⟨fun _ => Nat.lt_irrefl _⟩
  have : Std.Antisymm fun c d : Host.Cell => c.1 < d.1 := ⟨fun _ _ h h' => absurd h' (Nat.lt_asymm h)⟩
  exact hm.1.eq_of_mem_iff hm'.1 mem_iff

theorem Memory.wf.fst_nodup {m : Memory} (hm : m.wf) : (m.map Prod.fst).Nodup :=
  List.pairwise_map.mpr (hm.1.imp Nat.ne_of_lt)

/-- The host, writing the bytes of a canonical memory in any order into empty buffers, makes that memory. -/
theorem hostWrites_nil_eq {map : AddressMap} {m : Memory} (hm : m.wf) {l : List Host.Cell}
    (hl : ∀ c, c ∈ l ↔ c ∈ m) (hb : ∀ c ∈ m, inBuffer map c.1 = true) (hd : (l.map Prod.fst).Nodup) :
    hostWrites map [] l = m := by
  refine Memory.eq_of_read_eq (hostWrites_wf map Memory.nil_wf l) hm fun a => ?_
  by_cases ha : ∀ c ∈ l, a ≠ c.1
  · rw [hostWrites_read_of_not_mem map Memory.nil_wf l ha, Memory.read_nil,
      Memory.read_of_not_mem fun c hc => ha c ((hl c).mpr hc)]
  · push Not at ha
    obtain ⟨⟨k, b⟩, hc, rfl⟩ := ha
    rw [hostWrites_read_of_mem map Memory.nil_wf l (fun c hc => hb c ((hl c).mp hc)) hd hc,
      Memory.read_of_mem hm ((hl _).mp hc)]

/-! ### The bytes of a snapshot -/

/-- The regions that have a buffer, in the order a snapshot lists them. -/
def bufferedRegions : List Region := [.text, .ram, .stack, .erom, .video]

/-- The listed bytes of a memory, region by region. -/
def cellsByRegion (map : AddressMap) (m : Memory) : List Host.Cell :=
  bufferedRegions.flatMap fun r => m.filter fun c => inRegion map r c.1

theorem bufferedRegions_nodup : bufferedRegions.Nodup := by decide

theorem regionBase_resize (p : MemoryImage) (map : AddressMap) (r : Region) :
    regionBase (p.resize map) r = regionBase map r := by
  cases r <;> rfl

/-- The recorded bytes of a memory, put under their addresses on any map with the same bases, are the listed bytes of the
memory, region by region. -/
theorem memoryImage_cells {map map' : AddressMap} (hb : ∀ r, regionBase map' r = regionBase map r) (m : Memory) :
    (memoryImage map m).cells map' = cellsByRegion map m := by
  simp only [MemoryImage.cells, memoryImage, regionImage_cells map map' m _ (hb _), cellsByRegion, bufferedRegions,
    List.flatMap_cons, List.flatMap_nil, List.append_nil, List.append_assoc]

/-- A byte lies in one region only. -/
theorem inRegion_unique {map : AddressMap} {r r' : Region} {a : Nat} (h : inRegion map r a = true)
    (h' : inRegion map r' a = true) : r = r' := by
  obtain ⟨-, hr, -⟩ := (inRegion_iff map r a).mp h
  obtain ⟨-, hr', -⟩ := (inRegion_iff map r' a).mp h'
  exact hr.symm.trans hr'

theorem mem_cellsByRegion {map : AddressMap} {m : Memory} (hb : ∀ c ∈ m, inBuffer map c.1 = true)
    (c : Host.Cell) : c ∈ cellsByRegion map m ↔ c ∈ m := by
  simp only [cellsByRegion, List.mem_flatMap, List.mem_filter]
  refine ⟨fun ⟨_, _, hc, _⟩ => hc, fun hc => ?_⟩
  obtain ⟨r, hr, hin⟩ := exists_inRegion (hb c hc)
  exact ⟨r, hr, hc, hin⟩

theorem cellsByRegion_fst_nodup (map : AddressMap) {m : Memory} (hm : m.wf) :
    ((cellsByRegion map m).map Prod.fst).Nodup := by
  rw [List.Nodup, List.pairwise_map, cellsByRegion, List.pairwise_flatMap]
  refine ⟨fun r _ => (List.pairwise_map.mp hm.fst_nodup).filter _, bufferedRegions_nodup.imp fun hne c hc d hd he => ?_⟩
  exact hne (inRegion_unique (List.mem_filter.mp hc).2 (he ▸ (List.mem_filter.mp hd).2))

theorem memoryImage_fits {map map' : AddressMap} {m : Memory} (h : ((memoryImage map m).resize map').wf) :
    (memoryImage map m).fits map' = true := by
  simp only [MemoryImage.fits, memoryImage, regionImage_fits, Bool.true_and]
  exact decide_eq_true h

/-- The recorded bytes, written on a map with the same bases, make the recorded memory (spec/10_state.md R28). -/
theorem hostWrites_memoryImage {map map' : AddressMap} {m : Memory} (hm : m.wf)
    (hb : ∀ c ∈ m, inBuffer map c.1 = true) (hmap : (memoryImage map m).resize map' = map) :
    hostWrites map [] ((memoryImage map m).cells map') = m := by
  have hbase : ∀ r, regionBase map' r = regionBase map r := fun r => by
    rw [← regionBase_resize (memoryImage map m) map', hmap]
  rw [memoryImage_cells hbase]
  exact hostWrites_nil_eq hm (mem_cellsByRegion hb) hb (cellsByRegion_fst_nodup map hm)

/-- Settles O51: the recorded sizes and bytes make the recorded map and memory, and every other field is recorded as
it is. -/
theorem snapshotRestoresLosslessly : Obligations.SnapshotRestoresLosslessly := by
  intro s u hs hcfg henv
  have hmap : (snapshot s).memory.resize u.cfg.map = s.cfg.map := congrArg Config.map hcfg
  have hfits : (snapshot s).memory.fits u.cfg.map = true := by
    obtain ⟨-, -, -, -, -, hwf⟩ := hs.cfgWf
    exact memoryImage_fits (hmap ▸ hwf)
  have hmem : hostWrites s.cfg.map [] ((snapshot s).memory.cells u.cfg.map) = s.mem :=
    hostWrites_memoryImage hs.memWf hs.memBacked hmap
  have hopen : (s.suspended && s.env.deliveryOpen) = s.env.deliveryOpen := by
    cases h : s.env.deliveryOpen with
    | false => rw [Bool.and_false]
    | true => rw [hs.delivery h, Bool.and_true]
  have hcfg' : { u.cfg with map := s.cfg.map } = s.cfg := by rw [← hmap]; exact hcfg
  have henv' : { u.env with deliveryOpen := (snapshot s).suspended && (snapshot s).deliveryOpen } = s.env :=
    (congrArg (fun b => { u.env with deliveryOpen := b }) hopen).trans henv
  simp only [perform, restore, if_pos hfits, hmap, hmem, hcfg', henv']
  rfl

/-! ### Registers -/

theorem writeReg_zero (s : State) (v : Word) : writeReg s 0#5 v = s := rfl

/-- Settles O16, by read after write (`readReg_writeReg`). -/
theorem registerReadsLastWriteAndZeroStaysZero : Obligations.RegisterReadsLastWriteAndZeroStaysZero := by
  intro s d i v
  refine ⟨?_, fun hd => hd ▸ writeReg_zero s v⟩
  by_cases hi : i = 0#5
  · rw [if_pos hi, hi, readReg_zero]
  · rw [if_neg hi, readReg_writeReg]
    by_cases hd : i = d
    · rw [if_pos hd, if_pos ⟨hd, hd ▸ hi⟩]
    · rw [if_neg hd, if_neg fun h => hd h.1]

end Sys2Proof.Machine
end

section
/-! SUPPORT. Memory (spec/20_memory.md): the invariant of a state under every effect, what loads and stores answer where
the access is refused or falls back, the four bytes of a word access, and the window each address routes to. -/

namespace Sys2Proof.Machine

/-! ### The invariant of a state -/

/-- The invariant reads memory, the parameters, the mark of an awaited result and SUSPENDED, and nothing else. -/
theorem State.Inv.congr {s t : State} (h : s.Inv) (hm : t.mem = s.mem) (hc : t.cfg = s.cfg)
    (hd : t.env.deliveryOpen = s.env.deliveryOpen) (hs : t.suspended = s.suspended) : t.Inv where
  memWf := hm ▸ h.memWf
  memBacked := by rw [hm, hc]; exact h.memBacked
  cfgWf := hc ▸ h.cfgWf
  delivery := by rw [hd, hs]; exact h.delivery

theorem afterRead_deliveryOpen (s : State) (a : Word) (n : AccessWidth) :
    (afterRead s a n).env.deliveryOpen = s.env.deliveryOpen := by
  unfold afterRead
  split <;> rfl

/-- A SYSCALL opens a delivery only where it suspends, and the host's writes stay in the buffers (R184). -/
theorem syscallNotify_inv {s : State} (h : s.Inv) : (syscallNotify s).Inv where
  memWf := by rw [syscallNotify_mem]; exact hostWrites_wf _ h.memWf _
  memBacked := by rw [syscallNotify_mem, syscallNotify_cfg]; exact hostWrites_backed _ h.memBacked _
  cfgWf := by rw [syscallNotify_cfg]; exact h.cfgWf
  delivery := by
    rw [syscallNotify_env, syscallNotify_suspended]
    intro (hr : (syscallReply s).suspend = true)
    rw [hr, Bool.or_true]

/-- Only a store and the host, in a SYSCALL, touch what the invariant reads. -/
theorem Effect.inv {s t : State} (h : Effect s t) (hs : s.Inv) : t.Inv := by
  cases h with
  | stored ea n v => exact (afterWrite_inv hs ea n v).congr rfl rfl rfl rfl
  | notified => exact (syscallNotify_inv hs).congr rfl rfl rfl rfl
  | loaded d v ea n => exact hs.congr (by simp) (by simp) (by simp [afterRead_deliveryOpen]) (by simp)
  | linked d target => exact hs.congr (by simp [link]) (by simp [link]) (by simp [link]) (by simp [link])
  | wrote d v => exact hs.congr (by simp) (by simp) (by simp) (by simp)
  | jumped | wroteHiLo | dividedByZero | overflowed | undecoded | raisedDataBus | broke =>
    exact hs.congr rfl rfl rfl rfl

/-- Settles O53, by the effect of the step. -/
theorem stepKeepsStateInvariant : Obligations.StepKeepsStateInvariant := by
  intro s t hs h
  rcases step_effect h with ⟨-, rfl⟩ | ⟨-, he⟩
  · exact hs
  · exact he.inv hs

/-! ### Accesses beyond a buffer -/

/-- The instruction that makes a read is a load there, and the one that makes a write is a store there (R140). -/
theorem exec_of_memoryAccess {i : Instr} {s : State} {k : AccessKind} {ea : Word} {n : AccessWidth}
    (h : memoryAccess i s = some (k, ea, n)) :
    (k = .read ∧ ∃ rt f, exec i s = load s rt ea n f) ∨ (k = .write ∧ ∃ v, exec i s = store s ea n v) := by
  cases i with
  | lb rt rs imm => cases h; exact .inl ⟨rfl, _, _, exec_lb rt rs imm s⟩
  | lbu rt rs imm => cases h; exact .inl ⟨rfl, _, _, exec_lbu rt rs imm s⟩
  | lh rt rs imm => cases h; exact .inl ⟨rfl, _, _, exec_lh rt rs imm s⟩
  | lhu rt rs imm => cases h; exact .inl ⟨rfl, _, _, exec_lhu rt rs imm s⟩
  | lw rt rs imm => cases h; exact .inl ⟨rfl, _, _, exec_lw rt rs imm s⟩
  | sb rt rs imm => cases h; exact .inr ⟨rfl, _, exec_sb rt rs imm s⟩
  | sh rt rs imm => cases h; exact .inr ⟨rfl, _, exec_sh rt rs imm s⟩
  | sw rt rs imm => cases h; exact .inr ⟨rfl, _, exec_sw rt rs imm s⟩
  | _ => cases h

theorem load_of_beyondBuffer {s : State} {ea : Word} {n : AccessWidth}
    (h : accessStatus s.cfg .read (routedAddrs s.cfg ea n) = .beyondBuffer) (rt : RegIdx) (f : Word → Word) :
    load s rt ea n f = .refused .accessBeyondBuffer := by
  simp only [load, h]

theorem store_of_beyondBuffer {s : State} {ea : Word} {n : AccessWidth}
    (h : accessStatus s.cfg .write (routedAddrs s.cfg ea n) = .beyondBuffer) (v : Word) :
    store s ea n v = .refused .accessBeyondBuffer := by
  simp only [store, h]

/-- Settles O36: such an access has the status `beyondBuffer`. -/
theorem accessBeyondBufferIsRefused : Obligations.AccessBeyondBufferIsRefused := by
  intro i s k ea n hi hbus hbeyond
  have hstatus := (accessStatus_beyondBuffer_iff s.cfg k _).mpr ⟨hbus, hbeyond⟩
  rcases exec_of_memoryAccess hi with ⟨rfl, rt, f, he⟩ | ⟨rfl, v, he⟩
  · rw [he, load_of_beyondBuffer hstatus]
  · rw [he, store_of_beyondBuffer hstatus]

/-! ### Accesses that can be made -/

theorem load_of_ok {s : State} {ea : Word} {n : AccessWidth}
    (h : accessStatus s.cfg .read (routedAddrs s.cfg ea n) = .ok) (rt : RegIdx) (f : Word → Word) :
    load s rt ea n f = .next (writeBack (afterRead s ea n) rt (f (readValue s ea n))) := by
  simp only [load, h]

theorem store_of_ok {s : State} {ea : Word} {n : AccessWidth}
    (h : accessStatus s.cfg .write (routedAddrs s.cfg ea n) = .ok) (v : Word) :
    store s ea n v = .next (retire (afterWrite s ea n v)) := by
  simp only [store, h]

/-- A store that can be made hands the stub the bytes that route to it (notes 6 and 11). -/
theorem afterWrite_env {s : State} {a : Word} {n : AccessWidth}
    (h : accessStatus s.cfg .write (routedAddrs s.cfg a n) = .ok) (v : Word) :
    (afterWrite s a n v).env = { s.env with
      ioWrites := stubWrites s.cfg ((routedAddrs s.cfg a n).zip (splitBytes v n)) ++ s.env.ioWrites } :=
  storeBytes_env _ fun p hp => ((accessStatus_ok_iff _ _ _).mp h p.1 (List.of_mem_zip hp).1).1

/-! ### Below the lowest base -/

/-- An access the fallback answers routes no byte, so nothing can fail (R34). -/
theorem accessStatus_of_fallsBack {c : Config} {a : Word} (h : fallsBack c a = true) (k : AccessKind)
    (n : AccessWidth) : accessStatus c k (routedAddrs c a n) = .ok := by
  rw [routedAddrs_of_fallsBack h]
  rfl

/-- A load the fallback answers writes its widened 0 and takes nothing from the stub (R34). -/
theorem load_of_fallsBack {s : State} {ea : Word} (h : fallsBack s.cfg ea = true) (rt : RegIdx) (n : AccessWidth)
    (f : Word → Word) : load s rt ea n f = .next (writeBack s rt (f 0#32)) := by
  rw [load_of_ok (accessStatus_of_fallsBack h .read n), afterRead_of_fallsBack h, readValue_of_fallsBack h]

/-- A store the fallback answers only retires (R34). -/
theorem store_of_fallsBack {s : State} {ea : Word} (h : fallsBack s.cfg ea = true) (n : AccessWidth) (v : Word) :
    store s ea n v = .next (retire s) := by
  rw [store_of_ok (accessStatus_of_fallsBack h .write n), afterWrite_of_fallsBack h]

/-- Settles O37: below the base the fallback answers, and each widening of 0 is 0. -/
theorem belowLowestBaseReadsZeroAndDropsStores : Obligations.BelowLowestBaseReadsZeroAndDropsStores := by
  intro s rt rs imm ⟨_, _, _, _, _, hmap⟩ hlt
  have hf : fallsBack s.cfg (readReg s rs + imm.signExtend 32) = true := (fallsBack_iff_lt hmap _).mpr hlt
  constructor
  · intro i hi
    refine ⟨writeBack s rt 0#32, ?_, writeBack_retiresWriting s rt 0#32⟩
    simp only [List.mem_cons, List.not_mem_nil, or_false] at hi
    rcases hi with rfl | rfl | rfl | rfl | rfl
    · rw [exec_lb, load_of_fallsBack hf]; rfl
    · rw [exec_lbu, load_of_fallsBack hf]; rfl
    · rw [exec_lh, load_of_fallsBack hf]; rfl
    · rw [exec_lhu, load_of_fallsBack hf]; rfl
    · rw [exec_lw, load_of_fallsBack hf]
  · intro i hi
    refine ⟨retire s, ?_, retire_goesTo s⟩
    simp only [List.mem_cons, List.not_mem_nil, or_false] at hi
    rcases hi with rfl | rfl | rfl
    · rw [exec_sb, store_of_fallsBack hf]
    · rw [exec_sh, store_of_fallsBack hf]
    · rw [exec_sw, store_of_fallsBack hf]

/-! ### The four bytes of a word access -/

theorem mem_accessAddrs_word {a x : Word} : x ∈ accessAddrs a .word ↔ ∃ k, k < 4 ∧ x = a + BitVec.ofNat 32 k := by
  simp only [accessAddrs, List.mem_cons, List.not_mem_nil, or_false]
  constructor
  · rintro (rfl | rfl | rfl | rfl)
    · exact ⟨0, by omega, by simp⟩
    · exact ⟨1, by omega, rfl⟩
    · exact ⟨2, by omega, rfl⟩
    · exact ⟨3, by omega, rfl⟩
  · rintro ⟨k, hk, rfl⟩
    interval_cases k <;> simp

/-- Byte `k` from the top, as the statements write it. -/
theorem laneByte_eq (w : Word) {k : Nat} (hk : k < 4) : laneByte w k = (w >>> (24 - 8 * k)).setWidth 8 := by
  rw [laneByte, show 8 * (3 - k) = 24 - 8 * k by omega]
  exact BitVec.eq_of_toNat_eq (by simp)

/-- The bytes of a word store, as the statements write them. -/
theorem splitBytes_word (v : Word) : splitBytes v .word =
    [(v >>> 24).setWidth 8, (v >>> 16).setWidth 8, (v >>> 8).setWidth 8, v.setWidth 8] :=
  calc splitBytes v .word
    _ = [laneByte v 0, laneByte v 1, laneByte v 2, laneByte v 3] := rfl
    _ = _ := by
      rw [laneByte_eq v (k := 0) (by omega), laneByte_eq v (k := 1) (by omega), laneByte_eq v (k := 2) (by omega),
        laneByte_eq v (k := 3) (by omega)]
      rfl

/-- A word store puts byte `k` from the top at `a + k` (R35, R37). -/
theorem mem_zip_splitBytes_word (a v : Word) {k : Nat} (hk : k < 4) :
    (a + BitVec.ofNat 32 k, laneByte v k) ∈ (accessAddrs a .word).zip (splitBytes v .word) := by
  interval_cases k <;> simp [accessAddrs, splitBytes, laneByte]

/-- A word read where the bytes of `w` are held is `w` (R35, R36). -/
theorem heldValue_word {s : State} {a w : Word} (h : ∀ k, k < 4 → heldByte s (a + BitVec.ofNat 32 k) = laneByte w k) :
    heldValue s a .word = w := by
  have h0 : heldByte s a = laneByte w 0 := by simpa using h 0 (by omega)
  rw [heldValue, h0, h 1 (by omega), h 2 (by omega), h 3 (by omega)]
  exact wordOfBytes_extract w

theorem accessStatus_word_ok {c : Config} {kind : AccessKind} {a : Word}
    (h : ∀ k, k < 4 → byteTarget c kind (a + BitVec.ofNat 32 k) ≠ .busError ∧
      byteTarget c kind (a + BitVec.ofNat 32 k) ≠ .beyondBuffer) :
    accessStatus c kind (accessAddrs a .word) = .ok := by
  rw [accessStatus_ok_iff]
  intro x hx
  obtain ⟨k, hk, rfl⟩ := mem_accessAddrs_word.mp hx
  exact h k hk

/-! ### A stored word reads back -/

/-- The four bytes from `a` are bytes of buffers, without a `BusError`. -/
def WordInBuffers (c : Config) (kind : AccessKind) (a : Word) : Prop :=
  ∀ k, k < 4 → ∃ r, byteTarget c kind (a + BitVec.ofNat 32 k) = .buffer r

theorem WordInBuffers.not_fallsBack {c : Config} {kind : AccessKind} {a : Word} (h : WordInBuffers c kind a) :
    fallsBack c a = false := by
  obtain ⟨r, hr⟩ := h 0 (by omega)
  rw [BitVec.add_zero] at hr
  exact fallsBack_of_byteTarget hr

theorem WordInBuffers.routedAddrs_eq {c : Config} {kind : AccessKind} {a : Word} (h : WordInBuffers c kind a) :
    routedAddrs c a .word = accessAddrs a .word :=
  routedAddrs_of_not_fallsBack h.not_fallsBack .word

theorem WordInBuffers.accessStatus_ok {c : Config} {kind : AccessKind} {a : Word} (h : WordInBuffers c kind a) :
    accessStatus c kind (routedAddrs c a .word) = .ok := by
  rw [h.routedAddrs_eq]
  refine accessStatus_word_ok fun k hk => ?_
  obtain ⟨r, hr⟩ := h k hk
  rw [hr]
  exact ⟨nofun, nofun⟩

/-- Such a read takes nothing from the stub (R36). -/
theorem WordInBuffers.afterRead_eq {s : State} {a : Word} (h : WordInBuffers s.cfg .read a) :
    afterRead s a .word = s := by
  have hio : ∀ x ∈ accessAddrs a .word, (route s.cfg.map x).1 ≠ .io := by
    intro x hx hroute
    obtain ⟨k, hk, rfl⟩ := mem_accessAddrs_word.mp hx
    obtain ⟨r, hr⟩ := h k hk
    obtain ⟨lane, hlane⟩ := (byteTarget_ioStub_iff (by rw [hr]; nofun)).mpr hroute
    exact nomatch hr.symm.trans hlane
  have htouch : touchesIo s.cfg (accessAddrs a .word) = false := by simpa [touchesIo] using hio
  rw [afterRead, h.routedAddrs_eq, htouch]
  rfl

/-- A word load from buffers gives the bytes held and nothing else changes. -/
theorem WordInBuffers.load_eq {s : State} {a : Word} (h : WordInBuffers s.cfg .read a) (rt : RegIdx)
    (f : Word → Word) : load s rt a .word f = .next (writeBack s rt (f (heldValue s a .word))) := by
  rw [load_of_ok h.accessStatus_ok, h.afterRead_eq, readValue_of_not_fallsBack h.not_fallsBack]

/-- Reads and writes meet the same buffer, unless the platform answers `BusError` to the read. -/
theorem byteTarget_read_of_write {c : Config} {a : Word} {r : Region} (h : byteTarget c .write a = .buffer r)
    (he : busErrorAt c .read a = false) : byteTarget c .read a = .buffer r := by
  revert h
  unfold byteTarget
  generalize route c.map a = p
  obtain ⟨q, o⟩ := p
  cases q with
  | zero => nofun
  | io => dsimp only; split <;> nofun
  | video | erom | stack | ram | text =>
    dsimp only
    rw [he]
    split
    · nofun
    · exact id

/-- After a word store, a byte that takes stores is held as stored (R35, R37). -/
theorem heldByte_retire_afterWrite {s : State} {a v : Word} (hm : s.mem.wf) (hw : WordInBuffers s.cfg .write a)
    (hr : WordInBuffers s.cfg .read a) {k : Nat} (hk : k < 4)
    (ht : takesStore s.cfg (a + BitVec.ofNat 32 k) = true) :
    heldByte (retire (afterWrite s a .word v)) (a + BitVec.ofNat 32 k) = laneByte v k := by
  have hstored := (stored_retiresStoring hm hw.accessStatus_ok v).stored (a + BitVec.ofNat 32 k) (laneByte v k)
    (by rw [hw.routedAddrs_eq]; exact mem_zip_splitBytes_word a v hk)
  obtain ⟨r, hr⟩ := hr k hk
  rw [heldByte_buffer (by rw [retire_cfg, afterWrite_cfg, hr]), hstored, if_pos ht]

/-- Settles O38: the store leaves its bytes in the buffers, and the load reads those. -/
theorem storedWordReadsBack : Obligations.StoredWordReadsBack := by
  intro s rt rs d imm hm ea hbytes
  have hw : WordInBuffers s.cfg .write ea := fun k hk =>
    ((takesStore_iff _ _).mp (hbytes k hk).1).imp fun _ h => h.1
  have hr : WordInBuffers s.cfg .read ea := fun k hk =>
    (hw k hk).imp fun _ h => byteTarget_read_of_write h (hbytes k hk).2
  let t := retire (afterWrite s ea .word (readReg s rt))
  have hheld : ∀ k, k < 4 → heldByte t (ea + BitVec.ofNat 32 k) = laneByte (readReg s rt) k := fun k hk =>
    heldByte_retire_afterWrite hm hw hr hk (hbytes k hk).1
  have hr' : WordInBuffers t.cfg .read ea := by
    rw [retire_cfg, afterWrite_cfg]
    exact hr
  have hbase : readReg t rs = readReg s rs := by rw [readReg_retire, readReg_afterWrite]
  refine ⟨t, writeBack t d (readReg s rt), ?_, fun k hk => (hheld k hk).trans (laneByte_eq _ hk), ?_,
    writeBack_retiresWriting t d _⟩
  · rw [exec_sw, store_of_ok hw.accessStatus_ok]
  · rw [exec_lw, hbase, hr'.load_eq, heldValue_word hheld]

/-! ### The I/O stub -/

/-- The four bytes of the stub word route to it, where the word does not wrap (note 11). -/
theorem route_ioAddr_add {m : AddressMap} (hwrap : m.ioAddr.toNat + 3 < 2 ^ 32) {k : Nat} (hk : k < 4) :
    (m.ioAddr + BitVec.ofNat 32 k).toNat = m.ioAddr.toNat + k ∧
      route m (m.ioAddr + BitVec.ofNat 32 k) = (.io, 0) := by
  have hnat : (m.ioAddr + BitVec.ofNat 32 k).toNat = m.ioAddr.toNat + k := by
    rw [BitVec.toNat_add, BitVec.toNat_ofNat]
    omega
  refine ⟨hnat, ?_⟩
  rw [route, hnat, if_pos (by omega)]

/-- What an access meets there on a platform that answers no `BusError`: byte `k` of the stub word. -/
theorem byteTarget_ioAddr_add {c : Config} (hbus : c.busErrors = []) (hwrap : c.map.ioAddr.toNat + 3 < 2 ^ 32)
    (kind : AccessKind) {k : Nat} (hk : k < 4) :
    byteTarget c kind (c.map.ioAddr + BitVec.ofNat 32 k) = .ioStub k := by
  obtain ⟨hnat, hroute⟩ := route_ioAddr_add hwrap hk
  simp [byteTarget, hroute, busErrorAt, hbus, hnat]

theorem not_fallsBack_ioAddr (c : Config) : fallsBack c c.map.ioAddr = false := by
  simp [fallsBack, route]

theorem routedAddrs_ioAddr (c : Config) (n : AccessWidth) :
    routedAddrs c c.map.ioAddr n = accessAddrs c.map.ioAddr n :=
  routedAddrs_of_not_fallsBack (not_fallsBack_ioAddr c) n

theorem accessStatus_ioAddr {c : Config} (hbus : c.busErrors = []) (hwrap : c.map.ioAddr.toNat + 3 < 2 ^ 32)
    (kind : AccessKind) : accessStatus c kind (routedAddrs c c.map.ioAddr .word) = .ok := by
  rw [routedAddrs_ioAddr]
  refine accessStatus_word_ok fun k hk => ?_
  rw [byteTarget_ioAddr_add hbus hwrap kind hk]
  exact ⟨nofun, nofun⟩

/-- A word read of the stub is the word the stub presents (R36, note 6). -/
theorem readValue_ioAddr {s : State} (hbus : s.cfg.busErrors = []) (hwrap : s.cfg.map.ioAddr.toNat + 3 < 2 ^ 32) :
    readValue s s.cfg.map.ioAddr .word = ioWord s.env := by
  rw [readValue_of_not_fallsBack (not_fallsBack_ioAddr s.cfg)]
  refine heldValue_word fun k hk => ?_
  rw [heldByte, byteTarget_ioAddr_add hbus hwrap .read hk]

/-- A load of the stub takes its word (R36). -/
theorem touchesIo_ioAddr (c : Config) (n : AccessWidth) : touchesIo c (routedAddrs c c.map.ioAddr n) = true := by
  rw [routedAddrs_ioAddr]
  cases n <;> simp [touchesIo, accessAddrs, route]

theorem storeByte_mem_of_not_takesStore {s : State} {a : Word} (h : takesStore s.cfg a = false) (b : Byte) :
    (storeByte s a b).mem = s.mem := by
  cases ht : byteTarget s.cfg .write a with
  | buffer r =>
    have hr : storesTo s.cfg r = false := by simpa [takesStore, ht] using h
    simp [storeByte, ht, hr]
  | _ => simp [storeByte, ht]

/-- Stores to bytes that take none leave memory as it is. -/
theorem storeBytes_mem_of_not_takesStore {s : State} (l : List (Word × Byte))
    (h : ∀ p ∈ l, takesStore s.cfg p.1 = false) : (storeBytes s l).mem = s.mem := by
  induction l generalizing s with
  | nil => rfl
  | cons p l ih =>
    obtain ⟨a, b⟩ := p
    have hrest : ∀ p ∈ l, takesStore (storeByte s a b).cfg p.1 = false := fun p hp => by
      rw [storeByte_cfg]; exact h p (List.mem_cons_of_mem _ hp)
    rw [storeBytes, ih hrest, storeByte_mem_of_not_takesStore (h (a, b) List.mem_cons_self)]

/-- A word store to the stub changes no memory (C8). -/
theorem afterWrite_ioAddr_mem {s : State} (hbus : s.cfg.busErrors = [])
    (hwrap : s.cfg.map.ioAddr.toNat + 3 < 2 ^ 32) (v : Word) :
    (afterWrite s s.cfg.map.ioAddr .word v).mem = s.mem := by
  refine storeBytes_mem_of_not_takesStore _ fun p hp => ?_
  rw [routedAddrs_ioAddr] at hp
  obtain ⟨k, hk, he⟩ := mem_accessAddrs_word.mp (List.of_mem_zip hp).1
  rw [he, takesStore, byteTarget_ioAddr_add hbus hwrap .write hk]

/-- A word store to the stub hands it the four bytes in address order, the newest in front (note 6). -/
theorem stubWrites_ioAddr {c : Config} (hwrap : c.map.ioAddr.toNat + 3 < 2 ^ 32) (v : Word) :
    stubWrites c ((accessAddrs c.map.ioAddr .word).zip (splitBytes v .word)) =
      [(c.map.ioAddr.toNat + 3, v.setWidth 8), (c.map.ioAddr.toNat + 2, (v >>> 8).setWidth 8),
        (c.map.ioAddr.toNat + 1, (v >>> 16).setWidth 8), (c.map.ioAddr.toNat, (v >>> 24).setWidth 8)] := by
  obtain ⟨-, r0⟩ := route_ioAddr_add hwrap (k := 0) (by omega)
  obtain ⟨h1, r1⟩ := route_ioAddr_add hwrap (k := 1) (by omega)
  obtain ⟨h2, r2⟩ := route_ioAddr_add hwrap (k := 2) (by omega)
  obtain ⟨h3, r3⟩ := route_ioAddr_add hwrap (k := 3) (by omega)
  rw [BitVec.add_zero] at r0
  simp [accessAddrs, splitBytes_word, stubWrites, r0, r1, r2, r3, h1, h2, h3]

/-- Settles O39: the four bytes are the stub's, which presents its word to the load and keeps what is stored. -/
theorem ioStubWordAccess : Obligations.IoStubWordAccess := by
  intro s rt rs imm hbus a v hwrap hea
  have hread := accessStatus_ioAddr hbus hwrap .read
  have hwrite := accessStatus_ioAddr hbus hwrap .write
  constructor
  · have hload := loaded_retiresLoading s a .word rt (ioWord s.env)
    refine ⟨_, ?_, hload, ?_⟩
    · rw [exec_lw, hea, load_of_ok hread, readValue_ioAddr hbus hwrap]
    · rw [hload.env, touchesIo_ioAddr]
      rfl
  · refine ⟨retire (afterWrite s a .word v), ?_, by simp, fun x => ?_, fun i => by simp, by simp [SameHiLo],
      by simp [SameExcRegs], by simp [SameFlags], by simp, ?_⟩
    · rw [exec_sw, hea, store_of_ok hwrite]
    · rw [retire_mem, afterWrite_ioAddr_mem hbus hwrap]
    · rw [retire_env, afterWrite_env hwrite, routedAddrs_ioAddr, stubWrites_ioAddr hwrap]
      rfl

/-! ### What changes memory -/

theorem load_mem {s t : State} {rt : RegIdx} {ea : Word} {n : AccessWidth} {f : Word → Word}
    (h : load s rt ea n f = .next t) : t.mem = s.mem := by
  rcases load_next h with ⟨-, rfl⟩ | ⟨-, rfl⟩
  · simp
  · rfl

theorem writeBackSigned_mem (s : State) (d : RegIdx) (r : Int) : (writeBackSigned s d r).mem = s.mem := by
  unfold writeBackSigned
  split
  · rfl
  · exact writeBack_mem s d _

theorem branch_mem (s : State) (taken : Bool) (imm : Imm16) : (branch s taken imm).mem = s.mem := by
  unfold branch
  split <;> rfl

theorem link_mem (s : State) (d : RegIdx) : (link s d).mem = s.mem := writeReg_mem s d _

theorem divide_mem {zero : Prop} [Decidable zero] {s t : State} {q r : Word}
    (h : (if zero then .next (divideByZero s) else .next (writeHiLo s r q) : Result) = .next t) : t.mem = s.mem := by
  split at h <;> (cases h; rfl)

/-- Settles O40, by instruction. -/
theorem memoryChangedOnlyByStoresAndSyscall : Obligations.MemoryChangedOnlyByStoresAndSyscall := by
  intro i s t hstore hsyscall h
  cases i with
  | sb rt rs imm | sh rt rs imm | sw rt rs imm =>
    obtain ⟨hsb, hsh, hsw⟩ := hstore rt rs imm
    contradiction
  | syscall => exact absurd rfl hsyscall
  | lb | lbu | lh | lhu | lw =>
    simp only [exec_lb, exec_lbu, exec_lh, exec_lhu, exec_lw] at h
    exact load_mem h
  | div | divu =>
    simp only [exec, execDiv, execDivu] at h
    exact divide_mem h
  | add | sub | addi =>
    cases h
    exact writeBackSigned_mem s _ _
  | beq | bne | blez | bgtz | bltz | bgez =>
    cases h
    exact branch_mem s _ _
  | bltzal | bgezal =>
    cases h
    exact (branch_mem _ _ _).trans (link_mem s _)
  | jalr | jal =>
    cases h
    exact link_mem s _
  | mult | multu | mthi | mtlo | jr | j | brk | cop0 | cop1 | cop2 | cop3 =>
    cases h
    rfl
  | addu | subu | and | or | xor | nor | slt | sltu | sll | srl | sra | sllv | srlv | srav | mfhi | mflo | addiu | slti
  | sltiu | andi | ori | xori | lui =>
    cases h
    exact writeBack_mem s _ _

/-! ### Canonical memories -/

/-- Settles O41: a canonical memory is told by what it reads. -/
theorem canonicalMemoriesReadAlikeAreEqual : Obligations.CanonicalMemoriesReadAlikeAreEqual :=
  fun _ _ hm hn h => Memory.eq_of_read_eq hm hn h

/-! ### The windows -/

/-- Settles O32: the router's tests from the highest base down, of which the order of the bases decides each. -/
theorem routerPicksWindowByBase : Obligations.RouterPicksWindowByBase := by
  intro m a ⟨htr, hrs, hse, hev, hvi, _⟩
  unfold route
  refine ⟨fun h => ?_, fun hl hu => ?_, fun hl hu => ?_, fun hl hu => ?_, fun hl hu => ?_, fun hl hu => ?_,
    fun hl hu => ?_⟩
  · rw [if_neg (by omega), if_neg (by omega), if_neg (by omega), if_neg (by omega), if_neg (by omega),
      if_neg (by omega)]
  · rw [if_neg (by omega), if_neg (by omega), if_neg (by omega), if_neg (by omega), if_neg (by omega), if_pos hl]
  · rw [if_neg (by omega), if_neg (by omega), if_neg (by omega), if_neg (by omega), if_pos hl]
  · rw [if_neg (by omega), if_neg (by omega), if_neg (by omega), if_pos hl]
  · rw [if_neg (by omega), if_neg (by omega), if_pos hl]
  · rw [if_neg (by omega), if_pos hl]
  · rw [if_pos ⟨hl, hu⟩]

end Sys2Proof.Machine
end

section
/-! SUPPORT. The encoding (spec/30_encoding.md): decoding against the canonical encoding, against the opcode table's
rows and operand fields, and the words that are no instruction. -/

namespace Sys2Proof

/-! ### Packing and unpacking -/

/-- Which format an opcode field selects (R54), on the field itself. -/
theorem formatOfOpcode_toNat : ∀ opcode : Op6, formatOfOpcode ((opcode.toNat : Int) % 2 ^ 6) =
    if opcode = 0x00#6 then .R else if opcode = 0x02#6 ∨ opcode = 0x03#6 then .J else .I := by decide

/-- A typed record is well formed exactly where its opcode selects its format. -/
theorem Record.wellFormed_iff_format {r : Record} {opcode : Op6}
    (h : r.toRaw.fields.head? = some (some (opcode.toNat : Int), 6)) :
    r.wellFormed = true ↔ r.toRaw.format =
      if opcode = 0x00#6 then .R else if opcode = 0x02#6 ∨ opcode = 0x03#6 then .J else .I := by
  rw [Record.wellFormed_eq, ← formatOfOpcode_toNat]
  simp only [RawRecord.shapeAgrees, h, decide_eq_true_eq]

/-- `UNPACK(PACK(r)) = r` where the opcode selects the record's format (R74). -/
theorem unpack_pack {r : Record} (h : r.wellFormed = true) : unpack (pack r) = r := by
  cases r with
  | r opcode rs rt rd shamt funct =>
    have hformat : Format.R = _ := (Record.wellFormed_iff_format rfl).mp h
    have h0 : opcode = 0x00#6 := by
      split_ifs at hformat
      assumption
    obtain ⟨hop, hrs, hrt, hrd, hsa, hf⟩ := pack_r_fields opcode rs rt rd shamt funct
    simp only [unpack, hop, hrs, hrt, hrd, hsa, hf, if_pos h0]
  | i opcode rs rt imm =>
    have hformat : Format.I = _ := (Record.wellFormed_iff_format rfl).mp h
    split_ifs at hformat with h0 h23
    obtain ⟨hop, hrs, hrt, himm⟩ := pack_i_fields opcode rs rt imm
    simp only [unpack, hop, hrs, hrt, himm, if_neg h0, if_neg h23]
  | j opcode addr =>
    have hformat : Format.J = _ := (Record.wellFormed_iff_format rfl).mp h
    split_ifs at hformat with h0 h23
    obtain ⟨hop, haddr⟩ := pack_j_fields opcode addr
    simp only [unpack, hop, haddr, if_neg h0, if_pos h23]

/-- A word is its four I fields side by side. -/
theorem pack_i_of_word (w : Word) :
    pack (.i (w.extractLsb' 26 6) (w.extractLsb' 21 5) (w.extractLsb' 16 5) (w.extractLsb' 0 16)) = w := by
  unfold pack
  apply BitVec.eq_of_getLsbD_eq
  intro k hk
  simp only [BitVec.getLsbD_append, BitVec.getLsbD_extractLsb']
  interval_cases k <;> simp

/-- A word is its two J fields side by side. -/
theorem pack_j_of_word (w : Word) : pack (.j (w.extractLsb' 26 6) (w.extractLsb' 0 26)) = w :=
  (BitVec.extractLsb'_append_extractLsb'_eq_extractLsb' rfl).trans BitVec.extractLsb'_eq_self

/-- `PACK(UNPACK(w)) = w` (R74). -/
theorem pack_unpack (w : Word) : pack (unpack w) = w := by
  unfold unpack
  dsimp only
  split_ifs
  · exact pack_r_of_word w
  · exact pack_j_of_word w
  · exact pack_i_of_word w

/-! ### Decoding the canonical encoding -/

theorem Instr.record_wellFormed (i : Instr) : i.record.wellFormed = true := by
  rw [Record.wellFormed_eq]
  cases i <;> rfl

theorem unpack_encode (i : Instr) : unpack (encode i) = i.record := unpack_pack i.record_wellFormed

/-- Settles O3: unpacking the encoder's word gives the canonical record, which dispatches to the instruction. -/
theorem decodeInvertsEncode : Obligations.DecodeInvertsEncode := by
  intro i
  rw [decodeWord, unpack_encode, select_record]

/-! ### The ALU half of SPECIAL

Its `funct` aliases (R59) are why a row's mask leaves `funct` bits open; the 64 values of `funct` are gone through here
and nowhere else. -/

/-- The rows of the ten instructions that `selectAlu` can answer. -/
def aluRows : List TableRow :=
  [⟨0x20#32, 0xFC00002F#32⟩, ⟨0x21#32, 0xFC00002F#32⟩, ⟨0x22#32, 0xFC00002F#32⟩, ⟨0x23#32, 0xFC00002F#32⟩,
   ⟨0x24#32, 0xFC00002F#32⟩, ⟨0x25#32, 0xFC00002F#32⟩, ⟨0x26#32, 0xFC00002F#32⟩, ⟨0x27#32, 0xFC00002F#32⟩,
   ⟨0x28#32, 0xFC000029#32⟩, ⟨0x29#32, 0xFC000029#32⟩]

/-- Every ALU instruction's operands are the three register fields, and its row does not depend on them. -/
theorem selectAlu_shape (rs rt rd : RegIdx) (f : Op6) :
    (selectAlu rs rt rd f).row = (selectAlu 0 0 0 f).row ∧ (selectAlu rs rt rd f).operandMask = 0x03FFF800#32 ∧
      ∃ f', (selectAlu rs rt rd f).record = .r 0x00#6 rs rt rd 0#5 f' := by
  unfold selectAlu
  split_ifs
  · exact ⟨rfl, rfl, _, rfl⟩
  · exact ⟨rfl, rfl, _, rfl⟩
  all_goals split <;> exact ⟨rfl, rfl, _, rfl⟩

theorem selectAlu_row_mem (rs rt rd : RegIdx) (f : Op6) : (selectAlu rs rt rd f).row ∈ aluRows := by
  have table : ∀ f : Op6, (selectAlu 0 0 0 f).row ∈ aluRows := by decide
  rw [(selectAlu_shape rs rt rd f).1]
  exact table f

theorem funct_matches_aluRow_iff {row : TableRow} (hrow : row ∈ aluRows) (rs rt rd : RegIdx) (f : Op6) :
    f &&& row.mask.extractLsb' 0 6 = row.pattern.extractLsb' 0 6 ↔
      f.getLsbD 5 = true ∧ (selectAlu rs rt rd f).row = row := by
  have table : ∀ row ∈ aluRows, ∀ f : Op6, f &&& row.mask.extractLsb' 0 6 = row.pattern.extractLsb' 0 6 ↔
      f.getLsbD 5 = true ∧ (selectAlu 0 0 0 f).row = row := by decide
  rw [(selectAlu_shape rs rt rd f).1]
  exact table row hrow f

theorem and_63_eq (x : Op6) : x &&& 63#6 = x := BitVec.and_allOnes

theorem and_31_eq (x : RegIdx) : x &&& 31#5 = x := BitVec.and_allOnes

/-- A word belongs to an ALU row exactly where it is SPECIAL and its `funct` selects that row. -/
theorem word_matches_aluRow_iff {row : TableRow} (hrow : row ∈ aluRows) (rs rt rd : RegIdx) (w : Word) :
    w &&& row.mask = row.pattern ↔ w.extractLsb' 26 6 = 0x00#6 ∧ (w.extractLsb' 0 6).getLsbD 5 = true ∧
      (selectAlu rs rt rd (w.extractLsb' 0 6)).row = row := by
  have fields : ∀ row ∈ aluRows,
      (row.mask.extractLsb' 26 6 = 63#6 ∧ row.mask.extractLsb' 21 5 = 0#5 ∧ row.mask.extractLsb' 16 5 = 0#5 ∧
        row.mask.extractLsb' 11 5 = 0#5 ∧ row.mask.extractLsb' 6 5 = 0#5) ∧
      row.pattern.extractLsb' 26 6 = 0#6 ∧ row.pattern.extractLsb' 21 5 = 0#5 ∧ row.pattern.extractLsb' 16 5 = 0#5 ∧
        row.pattern.extractLsb' 11 5 = 0#5 ∧ row.pattern.extractLsb' 6 5 = 0#5 := by decide
  rw [and_eq_iff_fields, funct_matches_aluRow_iff hrow rs rt rd]
  simp [fields row hrow, and_63_eq]

/-! ### What a decoded word has in common with its instruction -/

/-- The word belongs to the instruction's row, and carries the instruction's operands in their fields. -/
def IsWordOf (i : Instr) (w : Word) : Prop :=
  w &&& i.row.mask = i.row.pattern ∧ encode i &&& i.operandMask = w &&& i.operandMask

/-- The low R fields of a packed I record lie in its immediate. -/
theorem pack_i_low_fields (opcode : Op6) (rs rt : RegIdx) (imm : Imm16) :
    (pack (.i opcode rs rt imm)).extractLsb' 11 5 = imm.extractLsb' 11 5 ∧
    (pack (.i opcode rs rt imm)).extractLsb' 6 5 = imm.extractLsb' 6 5 ∧
    (pack (.i opcode rs rt imm)).extractLsb' 0 6 = imm.extractLsb' 0 6 :=
  have low (s l : Nat) (h : s + l ≤ 16) : (pack (.i opcode rs rt imm)).extractLsb' s l = imm.extractLsb' s l :=
    extract_append_low (opcode ++ rs ++ rt) imm s l h
  ⟨low 11 5 (by decide), low 6 5 (by decide), low 0 6 (by decide)⟩

/-- The R fields of a packed J record below the opcode lie in its word index. -/
theorem pack_j_low_fields (opcode : Op6) (addr : Addr26) :
    (pack (.j opcode addr)).extractLsb' 21 5 = addr.extractLsb' 21 5 ∧
    (pack (.j opcode addr)).extractLsb' 16 5 = addr.extractLsb' 16 5 ∧
    (pack (.j opcode addr)).extractLsb' 11 5 = addr.extractLsb' 11 5 ∧
    (pack (.j opcode addr)).extractLsb' 6 5 = addr.extractLsb' 6 5 ∧
    (pack (.j opcode addr)).extractLsb' 0 6 = addr.extractLsb' 0 6 :=
  have low (s l : Nat) (h : s + l ≤ 26) : (pack (.j opcode addr)).extractLsb' s l = addr.extractLsb' s l :=
    extract_append_low opcode addr s l h
  ⟨low 21 5 (by decide), low 16 5 (by decide), low 11 5 (by decide), low 6 5 (by decide), low 0 6 (by decide)⟩

theorem selectAlu_isWordOf {f : Op6} (h5 : f.getLsbD 5 = true) (rs rt rd : RegIdx) (sa : Shamt) :
    IsWordOf (selectAlu rs rt rd f) (pack (.r 0x00#6 rs rt rd sa f)) := by
  obtain ⟨-, hmask, f', hrecord⟩ := selectAlu_shape rs rt rd f
  refine ⟨?_, ?_⟩
  · rw [word_matches_aluRow_iff (selectAlu_row_mem rs rt rd f) rs rt rd]
    simp [pack_r_fields, h5]
  · rw [hmask, encode, hrecord]
    simp [and_eq_iff_fields, BitVec.extractLsb'_and, pack_r_fields]

theorem selectSpecial_isWordOf {rs rt rd : RegIdx} {sa : Shamt} {f : Op6} {i : Instr}
    (h : selectSpecial rs rt rd sa f = .ok i) : IsWordOf i (pack (.r 0x00#6 rs rt rd sa f)) := by
  unfold selectSpecial at h
  by_cases h5 : f.getLsbD 5 = true
  · rw [if_pos h5] at h
    cases h
    exact selectAlu_isWordOf h5 rs rt rd sa
  rw [if_neg h5] at h
  split at h
  case h_4 | h_5 | h_6 | h_11 | h_13 =>
    split_ifs at h with hside
    cases h
    simp [IsWordOf, Instr.row, Instr.operandMask, encode, Instr.record, and_eq_iff_fields, BitVec.extractLsb'_and,
      pack_r_fields, hside]
  case h_19 => cases h
  all_goals
    cases h
    simp [IsWordOf, Instr.row, Instr.operandMask, encode, Instr.record, and_eq_iff_fields, BitVec.extractLsb'_and,
      pack_r_fields]

theorem selectRegimm_isWordOf {rs rt : RegIdx} {imm : Imm16} {i : Instr} (h : selectRegimm rs rt imm = .ok i) :
    IsWordOf i (pack (.i 0x01#6 rs rt imm)) := by
  unfold selectRegimm at h
  split at h
  case h_5 => cases h
  all_goals
    cases h
    simp [IsWordOf, Instr.row, Instr.operandMask, encode, Instr.record, and_eq_iff_fields, pack_i_fields,
      pack_i_low_fields]

/-- The dispatch reads the opcode and sub-opcode of the row it answers, and takes each operand from its field. -/
theorem select_isWordOf {r : Record} {i : Instr} (h : select r = .ok i) : IsWordOf i (pack r) := by
  unfold select at h
  cases r with
  | r opcode rs rt rd shamt funct =>
    dsimp only at h
    split_ifs at h with h0
    subst h0
    exact selectSpecial_isWordOf h
  | j opcode addr =>
    dsimp only at h
    split at h
    case h_3 => cases h
    all_goals
      cases h
      simp [IsWordOf, Instr.row, Instr.operandMask, encode, Instr.record, and_eq_iff_fields, pack_j_fields,
        pack_j_low_fields]
  | i opcode rs rt imm =>
    dsimp only at h
    split at h
    case h_1 => exact selectRegimm_isWordOf h
    case h_26 => cases h
    all_goals
      cases h
      simp [IsWordOf, Instr.row, Instr.operandMask, encode, Instr.record, and_eq_iff_fields, BitVec.extractLsb'_and,
        pack_i_fields, pack_i_low_fields]

theorem decodeWord_isWordOf {w : Word} {i : Instr} (h : decodeWord w = .ok i) : IsWordOf i w := by
  have hpack : IsWordOf i (pack (unpack w)) := select_isWordOf h
  rwa [pack_unpack] at hpack

/-- Settles O5: the operand half of what a decoded word has in common with its instruction. -/
theorem operandsAreTheWordsFields : Obligations.OperandsAreTheWordsFields := fun _ _ h =>
  (decodeWord_isWordOf h).2

/-! ### The rows decode -/

theorem opcode_of_mask {w p : Word} (h : w &&& 0xFC000000#32 = p) : w.extractLsb' 26 6 = p.extractLsb' 26 6 := by
  obtain ⟨hop, -⟩ := (and_eq_iff_fields ..).mp h
  exact (and_63_eq _).symm.trans hop

theorem opcode_rt_of_mask {w p : Word} (h : w &&& 0xFC1F0000#32 = p) :
    w.extractLsb' 26 6 = p.extractLsb' 26 6 ∧ w.extractLsb' 16 5 = p.extractLsb' 16 5 := by
  obtain ⟨hop, -, hrt, -⟩ := (and_eq_iff_fields ..).mp h
  exact ⟨(and_63_eq _).symm.trans hop, (and_31_eq _).symm.trans hrt⟩

theorem opcode_funct_of_mask {w p : Word} (h : w &&& 0xFC00003F#32 = p) :
    w.extractLsb' 26 6 = p.extractLsb' 26 6 ∧ w.extractLsb' 0 6 = p.extractLsb' 0 6 := by
  obtain ⟨hop, -, -, -, -, hf⟩ := (and_eq_iff_fields ..).mp h
  exact ⟨(and_63_eq _).symm.trans hop, (and_63_eq _).symm.trans hf⟩

theorem opcode_shamt_funct_of_mask {w p : Word} (h : w &&& 0xFC0007FF#32 = p) :
    w.extractLsb' 26 6 = p.extractLsb' 26 6 ∧ w.extractLsb' 6 5 = p.extractLsb' 6 5 ∧
      w.extractLsb' 0 6 = p.extractLsb' 0 6 := by
  obtain ⟨hop, -, -, -, hsa, hf⟩ := (and_eq_iff_fields ..).mp h
  exact ⟨(and_63_eq _).symm.trans hop, (and_31_eq _).symm.trans hsa, (and_63_eq _).symm.trans hf⟩

theorem opcode_rs_rt_funct_of_mask {w p : Word} (h : w &&& 0xFFFF003F#32 = p) :
    w.extractLsb' 26 6 = p.extractLsb' 26 6 ∧ w.extractLsb' 21 5 = p.extractLsb' 21 5 ∧
      w.extractLsb' 16 5 = p.extractLsb' 16 5 ∧ w.extractLsb' 0 6 = p.extractLsb' 0 6 := by
  obtain ⟨hop, hrs, hrt, -, -, hf⟩ := (and_eq_iff_fields ..).mp h
  exact ⟨(and_63_eq _).symm.trans hop, (and_31_eq _).symm.trans hrs, (and_31_eq _).symm.trans hrt,
    (and_63_eq _).symm.trans hf⟩

theorem decodes_of_aluRow {w : Word} {row : TableRow} (hrow : row ∈ aluRows) (h : w &&& row.mask = row.pattern) :
    ∃ i, decodeWord w = .ok i ∧ i.row = row := by
  obtain ⟨hop, h5, hi⟩ := (word_matches_aluRow_iff hrow _ _ _ w).mp h
  rw [decodeWord_eq_decodeFields, hop]
  exact ⟨_, if_pos h5, hi⟩

/-- A word of a row decodes to an instruction of that row: the row's mask fixes each field the dispatch reads. -/
theorem decodes_of_row {w : Word} {j : Instr} (h : w &&& j.row.mask = j.row.pattern) :
    ∃ i, decodeWord w = .ok i ∧ i.row = j.row := by
  cases j with
  | add | addu | sub | subu | and | or | xor | nor | slt | sltu =>
    exact decodes_of_aluRow (by simp [aluRows, Instr.row]) h
  | sll | srl | sra | jr | jalr | syscall | brk | mthi | mtlo | mult | multu | div | divu =>
    dsimp only [Instr.row] at h
    obtain ⟨hop, hf⟩ := opcode_funct_of_mask h
    rw [decodeWord_eq_decodeFields, hop, hf]
    exact ⟨_, rfl, rfl⟩
  | sllv | srlv | srav =>
    dsimp only [Instr.row] at h
    obtain ⟨hop, hsa, hf⟩ := opcode_shamt_funct_of_mask h
    rw [decodeWord_eq_decodeFields, hop, hsa, hf]
    exact ⟨_, rfl, rfl⟩
  | mfhi | mflo =>
    dsimp only [Instr.row] at h
    obtain ⟨hop, hrs, hrt, hf⟩ := opcode_rs_rt_funct_of_mask h
    rw [decodeWord_eq_decodeFields, hop, hrs, hrt, hf]
    exact ⟨_, rfl, rfl⟩
  | bltz | bgez | bltzal | bgezal =>
    dsimp only [Instr.row] at h
    obtain ⟨hop, hrt⟩ := opcode_rt_of_mask h
    rw [decodeWord_eq_decodeFields, hop, hrt]
    exact ⟨_, rfl, rfl⟩
  | j | jal | beq | bne | blez | bgtz | addi | addiu | slti | sltiu | andi | ori | xori | lui | cop0 | cop1 | cop2
  | cop3 | lb | lh | lw | lbu | lhu | sb | sh | sw =>
    dsimp only [Instr.row] at h
    rw [decodeWord_eq_decodeFields, opcode_of_mask h]
    exact ⟨_, rfl, rfl⟩

/-- Settles O4: a decoded word belongs to its instruction's row, and a row's words decode to the row. -/
theorem wordDecodesToItsTableRow : Obligations.WordDecodesToItsTableRow := by
  intro w j
  refine ⟨fun ⟨i, hi, hrow⟩ => ?_, decodes_of_row⟩
  rw [← hrow]
  exact (decodeWord_isWordOf hi).1

/-! ### The words that are no instruction -/

theorem selectSpecial_error_iff (rs rt rd : RegIdx) (sa : Shamt) (f : Op6) :
    (∃ e, selectSpecial rs rt rd sa f = .error e) ↔
      f.toNat < 32 ∧
        (f.toNat ∈ [0x01, 0x05, 0x0A, 0x0B, 0x0E, 0x0F, 0x14, 0x15, 0x16, 0x17, 0x1C, 0x1D, 0x1E, 0x1F] ∨
          (f.toNat ∈ [0x04, 0x06, 0x07] ∧ sa.toNat ≠ 0) ∨
          (f.toNat ∈ [0x10, 0x12] ∧ (rs.toNat ≠ 0 ∨ rt.toNat ≠ 0))) := by
  have alu_iff : f.getLsbD 5 = true ↔ ¬ f.toNat < 32 := by revert f; decide
  unfold selectSpecial
  by_cases h5 : f.getLsbD 5 = true
  · simp [h5, alu_iff.mp h5]
  have h32 : f.toNat < 32 := not_not.mp (mt alu_iff.mpr h5)
  rw [if_neg h5]
  split
  case h_19 =>
    have hf : f.toNat ∈ [0x01, 0x05, 0x0A, 0x0B, 0x0E, 0x0F, 0x14, 0x15, 0x16, 0x17, 0x1C, 0x1D, 0x1E, 0x1F] := by
      simp only [List.mem_cons, List.not_mem_nil, or_false, imp_false] at *
      bv_omega
    exact ⟨fun _ => ⟨h32, .inl hf⟩, fun _ => ⟨_, rfl⟩⟩
  case h_4 | h_5 | h_6 => split_ifs with hsa <;> simpa [← BitVec.toNat_inj] using hsa
  case h_11 | h_13 => split_ifs with hz <;> simpa [← BitVec.toNat_inj, imp_iff_not_or] using hz
  all_goals simp

theorem selectRegimm_error_iff (rs rt : RegIdx) (imm : Imm16) :
    (∃ e, selectRegimm rs rt imm = .error e) ↔ rt.toNat ∉ [0x00, 0x01, 0x10, 0x11] := by
  unfold selectRegimm
  split
  case h_5 =>
    have hrt : rt.toNat ∉ [0x00, 0x01, 0x10, 0x11] := by
      simp only [List.mem_cons, List.not_mem_nil, or_false, imp_false] at *
      bv_omega
    exact iff_of_true ⟨_, rfl⟩ hrt
  all_goals simp

theorem select_i_error_iff {opcode : Op6} (h : 3 < opcode.toNat) (rs rt : RegIdx) (imm : Imm16) :
    (∃ e, select (.i opcode rs rt imm) = .error e) ↔
      opcode.toNat ∈ [0x14, 0x15, 0x16, 0x17, 0x18, 0x19, 0x1A, 0x1B, 0x1C, 0x1D, 0x1E, 0x1F, 0x22, 0x26, 0x27, 0x2A] ∨
        0x2C ≤ opcode.toNat := by
  unfold select
  dsimp only
  split
  case h_1 => contradiction
  case h_26 =>
    refine iff_of_true ⟨_, rfl⟩ ?_
    simp only [List.mem_cons, List.not_mem_nil, or_false, imp_false] at *
    bv_omega
  all_goals simp

theorem opcode_toNat (w : Word) : (w >>> 26).toNat = (w.extractLsb' 26 6).toNat := by
  rw [BitVec.extractLsb'_toNat, BitVec.toNat_ushiftRight, Nat.shiftRight_eq_div_pow]
  omega

theorem regField_toNat (w : Word) (s : Nat) : (w >>> s).toNat % 32 = (w.extractLsb' s 5).toNat := by
  rw [BitVec.extractLsb'_toNat, BitVec.toNat_ushiftRight]

theorem funct_toNat (w : Word) : w.toNat % 64 = (w.extractLsb' 0 6).toNat := by
  rw [BitVec.extractLsb'_toNat, Nat.shiftRight_zero]

/-- Settles O6, by opcode: SPECIAL, the jumps, REGIMM and the other opcodes of the I format. -/
theorem reservedWordsAreExactlyTheListed : Obligations.ReservedWordsAreExactlyTheListed := by
  intro w
  dsimp only
  rw [decodeWord_eq_decodeFields, opcode_toNat, regField_toNat, regField_toNat, regField_toNat, funct_toNat]
  generalize w.extractLsb' 26 6 = opcode
  unfold decodeFields
  by_cases h0 : opcode = 0x00#6
  · simp [h0, selectSpecial_error_iff]
  by_cases h2 : opcode = 0x02#6
  · simp [h2]
  by_cases h3 : opcode = 0x03#6
  · simp [h3]
  by_cases h1 : opcode = 0x01#6
  · subst h1
    simp [select, selectRegimm_error_iff]
  rw [if_neg h0, if_neg h2, if_neg h3, select_i_error_iff (by bv_omega)]
  have h0' : opcode.toNat ≠ 0 := by bv_omega
  have h1' : opcode.toNat ≠ 1 := by bv_omega
  simp [h0', h1']

/-! ### Sample words -/

/-- Settles O11: nine closed words. Seven are the encoder's own; the last two set bits that no operand holds. -/
theorem sampleWordsDecode : Obligations.SampleWordsDecode :=
  ⟨decodeInvertsEncode (.add 10 8 9), decodeInvertsEncode (.sra 10 9 4), decodeInvertsEncode (.div 8 9),
    decodeInvertsEncode (.jalr 31 8), decodeInvertsEncode (.bgezal 8 2), decodeInvertsEncode (.jal 0x10),
    decodeInvertsEncode (.sw 9 8 0xFFFC), rfl, rfl⟩

end Sys2Proof
end

section
/-! SUPPORT. The codec (spec/40_codec.md): the round trip of `PACK` and `UNPACK`, the reduction of each field to its
width, the records `PACK` has a result for, and the byte order. -/

namespace Sys2Proof

/-! ### The round trip -/

/-- Settles O7, from the round trip in each direction. -/
theorem unpackAndPackAreInverse : Obligations.UnpackAndPackAreInverse :=
  ⟨fun _ => unpack_pack, pack_unpack⟩

/-! ### Reducing fields to their widths -/

/-- A field of a word that holds an integer reduced to the field's width, as a number (R73). -/
theorem field_emod {w : Word} {s l : Nat} {x : Int} (h : w.extractLsb' s l = BitVec.ofInt l x) :
    ((w.toNat / 2 ^ s % 2 ^ l : Nat) : Int) = x % 2 ^ l := by
  rw [← Nat.shiftRight_eq_div_pow, ← BitVec.extractLsb'_toNat, h, BitVec.toNat_ofInt,
    Int.toNat_of_nonneg (Int.emod_nonneg x (by positivity))]
  norm_cast

/-- The opcode is the highest field: what lies above bit 26 is the opcode alone. -/
theorem opcode_emod {w : Word} {x : Int} (h : w.extractLsb' 26 6 = BitVec.ofInt 6 x) :
    ((w.toNat / 2 ^ 26 : Nat) : Int) = x % 64 := by
  have hfield : ((w.toNat / 2 ^ 26 % 2 ^ 6 : Nat) : Int) = x % 2 ^ 6 := field_emod h
  omega

/-- The lowest field of a word that holds an integer reduced to the field's width, as a number. -/
theorem lowField_emod {w : Word} {l : Nat} {x : Int} (h : w.extractLsb' 0 l = BitVec.ofInt l x) :
    ((w.toNat % 2 ^ l : Nat) : Int) = x % 2 ^ l := by
  simpa using field_emod h

/-- Settles O8, by format: each field of the packed word is the field of the truncated record. -/
theorem packTruncatesEachFieldAlone : Obligations.PackTruncatesEachFieldAlone := by
  refine ⟨fun opcode rs rt rd shamt funct => ?_, fun opcode rs rt imm => ?_, fun opcode addr => ?_⟩
  · obtain ⟨hop, hrs, hrt, hrd, hsa, hf⟩ := pack_r_fields (BitVec.ofInt 6 opcode) (BitVec.ofInt 5 rs)
      (BitVec.ofInt 5 rt) (BitVec.ofInt 5 rd) (BitVec.ofInt 5 shamt) (BitVec.ofInt 6 funct)
    exact ⟨_, rfl, opcode_emod hop, field_emod hrs, field_emod hrt, field_emod hrd, field_emod hsa, lowField_emod hf⟩
  · obtain ⟨hop, hrs, hrt, himm⟩ := pack_i_fields (BitVec.ofInt 6 opcode) (BitVec.ofInt 5 rs) (BitVec.ofInt 5 rt)
      (BitVec.ofInt 16 imm)
    exact ⟨_, rfl, opcode_emod hop, field_emod hrs, field_emod hrt, lowField_emod himm⟩
  · obtain ⟨hop, haddr⟩ := pack_j_fields (BitVec.ofInt 6 opcode) (BitVec.ofInt 26 addr)
    exact ⟨_, rfl, opcode_emod hop, lowField_emod haddr⟩

/-! ### The records that pack -/

theorem RawRecord.isValid_of_truncate {r : RawRecord} {q : Record} (h : r.truncate = some q) : r.isValid = true := by
  unfold RawRecord.truncate at h
  split at h
  case h_4 => cases h
  all_goals rfl

theorem RawRecord.exists_truncate {r : RawRecord} (h : r.isValid = true) : ∃ q, r.truncate = some q := by
  cases r
  all_goals simp only [RawRecord.isValid, RawRecord.fields, List.all_cons, List.all_nil, Bool.and_true,
    Bool.and_eq_true, Option.isSome_iff_exists] at h
  case r =>
    obtain ⟨⟨_, rfl⟩, ⟨_, rfl⟩, ⟨_, rfl⟩, ⟨_, rfl⟩, ⟨_, rfl⟩, ⟨_, rfl⟩⟩ := h
    exact ⟨_, rfl⟩
  case i =>
    obtain ⟨⟨_, rfl⟩, ⟨_, rfl⟩, ⟨_, rfl⟩, ⟨_, rfl⟩⟩ := h
    exact ⟨_, rfl⟩
  case j =>
    obtain ⟨⟨_, rfl⟩, ⟨_, rfl⟩⟩ := h
    exact ⟨_, rfl⟩

/-- `PACK` has no result exactly for a record with an absent field (R75). -/
theorem packRaw_eq_none_iff (r : RawRecord) : packRaw r = none ↔ r.isValid = false := by
  rw [packRaw, Option.map_eq_none_iff, ← Bool.not_eq_true]
  refine ⟨fun hnone hvalid => ?_, fun hinvalid => ?_⟩
  · obtain ⟨q, hq⟩ := RawRecord.exists_truncate hvalid
    simp [hq] at hnone
  · exact Option.eq_none_iff_forall_ne_some.mpr fun q hq => hinvalid (RawRecord.isValid_of_truncate hq)

/-- The checked call refuses an invalid record and one whose shape does not match its opcode (U2). -/
theorem packChecked_eq_none_iff (r : RawRecord) :
    packChecked r = none ↔ r.isValid = false ∨ r.shapeAgrees = false := by
  unfold packChecked
  split_ifs with h
  · obtain ⟨hvalid, hshape⟩ := Bool.and_eq_true_iff.mp h
    simp [packRaw_eq_none_iff, hvalid, hshape]
  · simpa [imp_iff_not_or] using h

/-- What the checked call packs is read back as the record reduced to its widths. -/
theorem unpack_of_packChecked {r : RawRecord} {w : Word} (h : packChecked r = some w) :
    r.truncate = some (unpack w) := by
  unfold packChecked at h
  split_ifs at h with hok
  obtain ⟨-, hshape⟩ := Bool.and_eq_true_iff.mp hok
  obtain ⟨q, hq, rfl⟩ := Option.map_eq_some_iff.mp h
  have hwf : q.wellFormed = true := by
    rw [Record.wellFormed_eq, (RawRecord.truncate_shape hq).2, hshape]
  rw [unpack_pack hwf, hq]

/-- Settles O9: the refusals of `PACK` and of the checked call, and the record read back from what the latter packs. -/
theorem packIsDefinedExactlyOnValidRecords : Obligations.PackIsDefinedExactlyOnValidRecords := by
  refine ⟨packRaw_eq_none_iff, fun w => Record.toRaw_isValid (unpack w), packChecked_eq_none_iff, fun r w h => ?_⟩
  have hq : r.truncate = some (unpack w) := unpack_of_packChecked h
  exact ⟨(RawRecord.truncate_shape hq).1, RawRecord.truncate_fits hq⟩

/-! ### The byte order -/

/-- A word's bytes, whatever follows them, are read back as the word (R76, R77). -/
theorem unpackBytes_bytesOfWord (w : Word) (rest : List Byte) :
    unpackBytes (bytesOfWord w ++ rest) = .ok (unpack w) := by
  simp only [bytesOfWord, List.cons_append, List.nil_append, unpackBytes, wordOfBytes_extract]

/-- A buffer of fewer than four bytes is a short buffer (R76). -/
theorem unpackBytes_short {l : List Byte} (h : l.length < 4) : unpackBytes l = .error .shortBuffer := by
  unfold unpackBytes
  split
  · simp only [List.length_cons] at h
    omega
  · rfl

/-- Settles O10: four bytes are the word `wordOfBytes` makes of them, fewer are refused, and a word's own read back. -/
theorem codecReadsFourBigEndianBytes : Obligations.CodecReadsFourBigEndianBytes :=
  ⟨fun b0 b1 b2 b3 _ => ⟨wordOfBytes b0 b1 b2 b3, rfl, wordOfBytes_toNat b0 b1 b2 b3⟩, fun _ => unpackBytes_short,
    unpackBytes_bytesOfWord⟩

end Sys2Proof
end

section
/-! SUPPORT. Arithmetic and logic (spec/41_arith_logic.md): the signed write that may raise, the readings of a word
reduced modulo 2^32 and of an extended immediate, the bits of each logical operand, and the set instructions' result. -/

namespace Sys2Proof.Machine

/-! ### Signed results -/

/-- What the signed write does on each side of the overflow test (R80). -/
theorem writeBackSigned_writes_or_raises (s : State) (d : RegIdx) {r : Int} {v : Word} (hv : u32 r = v) :
    (-2147483648 ≤ r ∧ r ≤ 2147483647 → RetiresWriting s (writeBackSigned s d r) d v) ∧
    (¬(-2147483648 ≤ r ∧ r ≤ 2147483647) →
      EntersException s (writeBackSigned s d r) s.cfg.codeOvf ∧ (writeBackSigned s d r).bvr = s.bvr) := by
  rw [← overflows_eq_false_iff, Bool.not_eq_false, ← hv]
  unfold writeBackSigned
  refine ⟨fun hfits => ?_, fun hover => ?_⟩
  · rw [hfits]
    exact writeBack_retiresWriting s d (u32 r)
  · rw [hover]
    exact ⟨raise_entersException .overflow s, raise_bvr s .overflow⟩

theorem s32_sext16 (imm : Imm16) : s32 (sext16 imm) = imm.toInt := BitVec.toInt_signExtend_of_le (by decide)

/-- Settles O17, by the signed write of each of the three exact results. -/
theorem signedAddSubWriteOrRaise : Obligations.SignedAddSubWriteOrRaise := by
  intro s rd rs rt imm
  have haddi : u32 ((readReg s rs).toInt + imm.toInt) = readReg s rs + imm.signExtend 32 := by
    rw [← s32_sext16]
    exact u32_s32_add (readReg s rs) (sext16 imm)
  refine ⟨⟨_, rfl, writeBackSigned_writes_or_raises s rd (u32_s32_add _ _)⟩,
    ⟨_, rfl, writeBackSigned_writes_or_raises s rd (u32_s32_sub _ _)⟩,
    ⟨_, ?_, writeBackSigned_writes_or_raises s rt haddi⟩⟩
  rw [← s32_sext16]
  rfl

/-! ### Results modulo 2^32 -/

/-- An instruction that writes back a word retires writing it; `P` is what its rule says of the word. -/
theorem next_writeBack_of {P : Word → Prop} (s : State) (d : RegIdx) {v : Word} (h : P v) :
    ∃ t w, (.next (writeBack s d v) : Result) = .next t ∧ RetiresWriting s t d w ∧ P w :=
  ⟨_, v, rfl, writeBack_retiresWriting s d v, h⟩

theorem toNat_u32 (n : Int) : ((u32 n).toNat : Int) = n % 2 ^ 32 := by
  rw [u32, BitVec.toNat_ofInt, Int.toNat_of_nonneg (Int.emod_nonneg n (by decide))]
  rfl

theorem sub_eq_u32 (a b : Word) : a - b = u32 (a.toNat - b.toNat) := by
  rw [u32, sub_eq_add_neg (a.toNat : Int), BitVec.ofInt_add, BitVec.ofInt_neg]
  simp [BitVec.sub_eq_add_neg]

theorem add_sext16_eq_u32 (a : Word) (imm : Imm16) : a + sext16 imm = u32 (a.toNat + imm.toInt) := by
  rw [u32, BitVec.ofInt_add, BitVec.ofInt_natCast, BitVec.ofNat_toNat, BitVec.setWidth_eq]
  rfl

/-- Settles O18: each result is an exact integer reduced modulo 2^32. -/
theorem unsignedAddSubWrap : Obligations.UnsignedAddSubWrap := by
  intro s rd rs rt imm
  refine ⟨next_writeBack_of s rd (BitVec.toNat_add _ _), next_writeBack_of s rd ?_, next_writeBack_of s rt ?_⟩
  · rw [sub_eq_u32, toNat_u32]
  · rw [add_sext16_eq_u32, toNat_u32]

/-! ### Bits -/

/-- Zero extension keeps the sixteen bits and clears the rest (R55). -/
theorem getLsbD_zext16 (imm : Imm16) {k : Nat} (hk : k < 32) :
    (zext16 imm).getLsbD k = (decide (k < 16) && imm.getLsbD k) := by
  unfold zext16
  by_cases h : k < 16
  · simp [h, hk]
  · simp [h, BitVec.getLsbD_of_ge imm k (by omega)]

/-- LUI's operand holds the immediate above sixteen zeros (R98). -/
theorem getLsbD_upperImm (imm : Imm16) (k : Nat) :
    (upperImm imm).getLsbD k = (decide (16 ≤ k) && imm.getLsbD (k - 16)) := by
  rw [upperImm, BitVec.getLsbD_append]
  by_cases h : k < 16
  · simp [h]
  · simp [h, Nat.le_of_not_lt h]

/-- Settles O19: the bits of the result from the bits of its two operands. -/
theorem logicalResultsBitByBit : Obligations.LogicalResultsBitByBit := by
  intro s rd rs rt imm
  refine ⟨next_writeBack_of s rd fun k _ => BitVec.getLsbD_and, next_writeBack_of s rd fun k _ => BitVec.getLsbD_or,
    next_writeBack_of s rd fun k _ => BitVec.getLsbD_xor, next_writeBack_of s rd fun k hk => ?nor,
    next_writeBack_of s rt fun k hk => ?andi, next_writeBack_of s rt fun k hk => ?ori,
    next_writeBack_of s rt fun k hk => ?xori, next_writeBack_of s rt fun k _ => getLsbD_upperImm imm k⟩
  case nor => simp [hk]
  case andi => rw [BitVec.getLsbD_and, getLsbD_zext16 imm hk, Bool.and_left_comm, Bool.and_assoc]
  case ori => rw [BitVec.getLsbD_or, getLsbD_zext16 imm hk]
  case xori => rw [BitVec.getLsbD_xor, getLsbD_zext16 imm hk]

/-! ### Comparisons -/

/-- A set instruction writes 1 where its comparison holds and 0 otherwise (R89). -/
theorem writeBack_boolWord_retiresWriting (s : State) (d : RegIdx) (p : Prop) [Decidable p] :
    RetiresWriting s (writeBack s d (boolWord (decide p))) d (if p then 1#32 else 0#32) := by
  have h : boolWord (decide p) = if p then 1#32 else 0#32 := by simp [boolWord]
  rw [h]
  exact writeBack_retiresWriting s d _

/-- A sign-extended immediate read as unsigned (R94). -/
theorem toNat_sext16 (imm : Imm16) :
    (sext16 imm).toNat = if imm.msb then imm.toNat + 0xFFFF0000 else imm.toNat := by
  have himm : imm.toNat % 2 ^ 32 = imm.toNat := Nat.mod_eq_of_lt (by omega)
  rw [sext16, BitVec.toNat_signExtend, BitVec.toNat_setWidth, himm]
  split <;> rfl

/-- Settles O20: each comparison, read on the integers its operands stand for. -/
theorem setInstructionsWriteComparison : Obligations.SetInstructionsWriteComparison := by
  intro s rd rs rt imm
  rw [← toNat_sext16, ← s32_sext16]
  exact ⟨⟨_, rfl, writeBack_boolWord_retiresWriting s rd _⟩,
    ⟨_, rfl, writeBack_boolWord_retiresWriting s rd _⟩,
    ⟨_, rfl, writeBack_boolWord_retiresWriting s rt _⟩,
    ⟨_, rfl, writeBack_boolWord_retiresWriting s rt _⟩⟩

end Sys2Proof.Machine
end

section
/-! SUPPORT. Multiply, divide and the HI/LO moves (spec/42_muldiv_hilo.md): the 64-bit pattern written in two halves, the
two divides told apart by whether the divisor is zero, and the quotient and remainder that the rules determine. -/

namespace Sys2Proof.Machine

/-- An instruction that writes the HI/LO pair retires writing it; `P` is what its rule says of the pair. -/
theorem next_writeHiLo_of {P : Word → Word → Prop} (s : State) {h l : Word} (hp : P h l) :
    ∃ t hi lo, (.next (writeHiLo s h l) : Result) = .next t ∧ RetiresHiLo s t hi lo ∧ P hi lo :=
  ⟨_, h, l, rfl, writeHiLo_retiresHiLo s h l, hp⟩

/-- Settles O25: two write backs and two writes of the pair with one half as it was. -/
theorem hiLoMoves : Obligations.HiLoMoves := fun s r =>
  ⟨⟨_, rfl, writeBack_retiresWriting s r s.hi⟩, ⟨_, rfl, writeBack_retiresWriting s r s.lo⟩,
    ⟨_, rfl, writeHiLo_retiresHiLo s (readReg s r) s.lo⟩, ⟨_, rfl, writeHiLo_retiresHiLo s s.hi (readReg s r)⟩⟩

/-! ### Multiply -/

theorem append_halves (p : BitVec 64) : (p.extractLsb' 32 32 ++ p.extractLsb' 0 32 : BitVec 64) = p := by
  rw [BitVec.extractLsb'_append_extractLsb'_eq_extractLsb' (start₁ := 0) (len₁ := 32) rfl, BitVec.extractLsb'_eq_self]

/-- An instruction that writes a product retires with the pair holding the product's 64-bit pattern, of which `P` says
what its rule says. -/
theorem next_writeProduct_of {P : BitVec 64 → Prop} (s : State) {p : Int} (hp : P (BitVec.ofInt 64 p)) :
    ∃ t hi lo, (.next (writeProduct s p) : Result) = .next t ∧ RetiresHiLo s t hi lo ∧ P (hi ++ lo) :=
  next_writeHiLo_of (P := fun hi lo => P (hi ++ lo)) s ((append_halves _).symm ▸ hp)

/-- A signed product of two words fits 64 bits (R101). -/
theorem toInt_ofInt_signed_product (x y : Word) : (BitVec.ofInt 64 (x.toInt * y.toInt)).toInt = x.toInt * y.toInt := by
  have hlow : -2 ^ (32 * 2 - 2) ≤ x.toInt * y.toInt := BitVec.le_toInt_mul_toInt
  have hhigh : x.toInt * y.toInt ≤ 2 ^ (32 * 2 - 2) := BitVec.toInt_mul_toInt_le
  exact BitVec.toInt_ofInt_eq_self (by decide) (by omega) (by omega)

/-- An unsigned product of two words fits 64 bits (R102). -/
theorem toNat_ofInt_unsigned_product (x y : Word) :
    (BitVec.ofInt 64 (x.toNat * y.toNat)).toNat = x.toNat * y.toNat := by
  rw [← Int.natCast_mul, BitVec.ofInt_natCast, BitVec.toNat_ofNat]
  exact Nat.mod_eq_of_lt BitVec.toNat_mul_toNat_lt

/-- Settles O23: the exact product fits the 64 bits of the pair. -/
theorem multiplyWritesExactProduct : Obligations.MultiplyWritesExactProduct := fun s _ _ =>
  ⟨next_writeProduct_of (P := fun p => p.toInt = _) s (toInt_ofInt_signed_product _ _),
    next_writeProduct_of (P := fun p => p.toNat = _) s (toNat_ofInt_unsigned_product _ _)⟩

/-! ### Divide by zero -/

theorem exec_div_of_zero {s : State} {rt : RegIdx} (rs : RegIdx) (h : readReg s rt = 0#32) :
    exec (.div rs rt) s = .next (divideByZero s) :=
  if_pos (by simp [s32, h])

theorem exec_divu_of_zero {s : State} {rt : RegIdx} (rs : RegIdx) (h : readReg s rt = 0#32) :
    exec (.divu rs rt) s = .next (divideByZero s) :=
  if_pos (by simp [h])

/-- A zero divisor sets `DIVERR` and otherwise only moves `pc` on (R103). -/
theorem divideByZero_goesTo (s : State) : GoesTo { s with diverr := true } (divideByZero s) (s.pc + 4#32) :=
  retire_goesTo _

/-! ### Divide by a non-zero number -/

theorem exec_div_of_ne_zero {s : State} {rt : RegIdx} (rs : RegIdx) (h : readReg s rt ≠ 0#32) :
    exec (.div rs rt) s = .next (writeHiLo s (u32 ((readReg s rs).toInt.tmod (readReg s rt).toInt))
      (u32 ((readReg s rs).toInt.tdiv (readReg s rt).toInt))) := by
  have hy : s32 (readReg s rt) ≠ 0 := BitVec.toInt_ne.mpr h
  rw [Int.tmod_def, Int.mul_comm]
  exact if_neg hy

theorem exec_divu_of_ne_zero {s : State} {rt : RegIdx} (rs : RegIdx) (h : readReg s rt ≠ 0#32) :
    exec (.divu rs rt) s = .next (writeHiLo s (u32 ((readReg s rs).toNat % (readReg s rt).toNat : Nat))
      (u32 ((readReg s rs).toNat / (readReg s rt).toNat : Nat))) :=
  if_neg (BitVec.toNat_ne.mp h)

/-- Rounding toward zero is what R103 asks of the quotient and remainder: the one is exact up to the other, which is
smaller than the divisor and has the dividend's sign or is zero. -/
theorem tdiv_tmod_eq {a b q r : Int} (hb : b ≠ 0) (heq : a = q * b + r) (hlt : r.natAbs < b.natAbs)
    (hpos : 0 ≤ a → 0 ≤ r) (hneg : a ≤ 0 → r ≤ 0) : a.tdiv b = q ∧ a.tmod b = r := by
  have hsum : r + b * q = a := by rw [heq, Int.mul_comm, Int.add_comm]
  rcases Int.le_total 0 a with ha | ha
  · exact (Int.tdiv_tmod_unique ha hb).mpr ⟨hsum, hpos ha, by omega⟩
  · exact (Int.tdiv_tmod_unique' ha hb).mpr ⟨hsum, by omega, hneg ha⟩

theorem toNat_u32_natCast {n : Nat} (h : n < 2 ^ 32) : (u32 n).toNat = n := by
  rw [u32, BitVec.ofInt_natCast, BitVec.toNat_ofNat, Nat.mod_eq_of_lt h]

/-- Settles O24: the conditions on quotient and remainder determine them, and a zero divisor sets the flag alone. -/
theorem divideWritesQuotientAndRemainder : Obligations.DivideWritesQuotientAndRemainder := by
  intro s rs rt x y
  refine ⟨fun hy => ⟨?div, ?divu⟩, fun hy i hi => ?zero⟩
  case div =>
    rw [exec_div_of_ne_zero rs hy]
    refine next_writeHiLo_of s fun q r heq hlt hpos hneg => ?_
    obtain ⟨hq, hr⟩ := tdiv_tmod_eq (BitVec.toInt_ne.mpr hy) heq hlt hpos hneg
    exact ⟨congrArg u32 hq, congrArg u32 hr⟩
  case divu =>
    rw [exec_divu_of_ne_zero rs hy]
    refine next_writeHiLo_of s fun q r heq hlt => ?_
    have hsum : r + y.toNat * q = x.toNat := by rw [heq, Nat.mul_comm, Nat.add_comm]
    obtain ⟨rfl, rfl⟩ := (Nat.div_mod_unique (Nat.zero_lt_of_lt hlt)).mpr ⟨hsum, hlt⟩
    exact ⟨toNat_u32_natCast (Nat.lt_of_le_of_lt (Nat.div_le_self _ _) x.isLt),
      toNat_u32_natCast (Nat.lt_of_le_of_lt (Nat.mod_le _ _) x.isLt)⟩
  case zero =>
    have hexec : exec i s = .next (divideByZero s) := by
      rcases List.mem_pair.mp hi with rfl | rfl
      · exact exec_div_of_zero rs hy
      · exact exec_divu_of_zero rs hy
    obtain ⟨hpc, hregs, hhilo, hexc, ⟨hdiverr, herrmode, hsuspended⟩, hmem, hplatform⟩ := divideByZero_goesTo s
    exact ⟨_, hexec, hdiverr, hpc, hregs, hhilo, hexc, herrmode, hsuspended, hmem, hplatform⟩

end Sys2Proof.Machine
end

section
/-! SUPPORT. Shifts (spec/43_shift.md): the bits of each of the three shifts, the amount a register gives, and the step
that fetches the all-zero word. -/

namespace Sys2Proof.Machine

/-! ### Bits of a shifted word -/

/-- A left shift moves bits up by `n` and lets zeros enter at the bottom (R110). -/
theorem getLsbD_shl (v : Word) (n : Shamt) {k : Nat} (hk : k < 32) :
    (shl v n).getLsbD k = (decide (n.toNat ≤ k) && v.getLsbD (k - n.toNat)) := by
  rw [shl_eq, BitVec.getLsbD_shiftLeft]
  simp only [hk, decide_true, Bool.true_and, ← decide_not, Nat.not_lt]

/-- A logical right shift moves bits down by `n`; above bit 31 a word reads zeros (R110). -/
theorem getLsbD_shrl (v : Word) (n : Shamt) (k : Nat) : (shrl v n).getLsbD k = v.getLsbD (k + n.toNat) := by
  rw [shrl_eq, BitVec.getLsbD_ushiftRight, Nat.add_comm]

/-- An arithmetic right shift moves bits down by `n` and lets copies of bit 31 enter at the top (R110). -/
theorem getLsbD_shra (v : Word) (n : Shamt) {k : Nat} (hk : k < 32) :
    (shra v n).getLsbD k = v.getLsbD (min (k + n.toNat) 31) := by
  rw [shra_eq, BitVec.getLsbD_sshiftRight, Nat.add_comm n.toNat]
  by_cases h : k + n.toNat < 32
  · rw [Nat.min_eq_left (by omega)]
    simp [hk, h]
  · rw [Nat.min_eq_right (by omega)]
    simp [hk, h, BitVec.msb_eq_getLsbD_last]

/-- Settles O21, by the bits of each shift. -/
theorem immediateShiftsMoveBits : Obligations.ImmediateShiftsMoveBits := fun s rd rt n =>
  ⟨next_writeBack_of s rd fun _ hk => getLsbD_shl (readReg s rt) n hk,
    next_writeBack_of s rd fun k _ => getLsbD_shrl (readReg s rt) n k,
    next_writeBack_of s rd fun _ hk => getLsbD_shra (readReg s rt) n hk⟩

/-! ### The amount in a register -/

/-- The low five bits of a word, as a number (R114). -/
theorem toNat_shiftAmount (v : Word) : (shiftAmount v).toNat = v.toNat % 32 := by
  rw [shiftAmount, BitVec.extractLsb'_toNat, Nat.shiftRight_zero]

/-- Settles O22: the bits of each shift by the amount in the low five bits of `x[rs]`. -/
theorem variableShiftsUseLowFiveBits : Obligations.VariableShiftsUseLowFiveBits := by
  intro s rd rt rs
  rw [← toNat_shiftAmount]
  exact ⟨next_writeBack_of s rd fun _ hk => getLsbD_shl (readReg s rt) (shiftAmount (readReg s rs)) hk,
    next_writeBack_of s rd fun k _ => getLsbD_shrl (readReg s rt) (shiftAmount (readReg s rs)) k,
    next_writeBack_of s rd fun _ hk => getLsbD_shra (readReg s rt) (shiftAmount (readReg s rs)) hk⟩

/-! ### The all-zero word -/

theorem decodeWord_zero : decodeWord 0#32 = .ok (.sll 0#5 0#5 0#5) := by decide

/-- A step that fetches a word of an instruction executes that instruction (spec/70_reset_and_hazards.md R194). -/
theorem step_eq_exec {s : State} {i : Instr} (hs : s.suspended = false) (hf : Fetchable s)
    (hi : decodeWord (wordAtPc s) = .ok i) : step s = exec i s := by
  simp [step, clock, execWord, hs, fetch_of_fetchable hf, hi]

/-- Writing back to register 0, which ignores the write, only retires (spec/10_state.md R12). -/
theorem writeBack_zero (s : State) (v : Word) : writeBack s 0#5 v = retire s :=
  congrArg retire (writeReg_zero s v)

theorem exec_sll_zero (rt : RegIdx) (n : Shamt) (s : State) : exec (.sll 0#5 rt n) s = .next (retire s) :=
  congrArg Host.Outcome.next (writeBack_zero s (shl (readReg s rt) n))

/-- Settles O12: the all-zero word is a shift into register 0. -/
theorem zeroWordOnlyAdvancesPc : Obligations.ZeroWordOnlyAdvancesPc := by
  refine ⟨by decide, decodeWord_zero, fun s hs hf hw => ⟨retire s, ?_, retire_goesTo s⟩⟩
  rw [step_eq_exec hs hf (hw ▸ decodeWord_zero), exec_sll_zero]

end Sys2Proof.Machine
end

section
/-! SUPPORT. Jumps and branches (spec/44_control.md): the branch conditions as tests of the sign bit and of zero, the
target of an absolute jump as a number, where each instruction leaves `pc`, and what a misaligned `pc` leads to. -/

namespace Sys2Proof.Machine

/-! ### The conditions of the branches -/

theorem ltZero_iff (v : Word) : ltZero v = true ↔ v.msb = true := by
  rw [ltZero, s32, BitVec.msb_eq_toInt]

theorem geZero_iff (v : Word) : geZero v = true ↔ ¬v.msb = true := by
  rw [← ltZero_iff, geZero, ltZero, decide_eq_true_iff, decide_eq_true_iff, ge_iff_le, Int.not_lt]

theorem leZero_iff (v : Word) : leZero v = true ↔ v.msb = true ∨ v = 0#32 := by
  rw [← ltZero_iff, leZero, ltZero, decide_eq_true_iff, decide_eq_true_iff, Int.le_iff_lt_or_eq, ← BitVec.toInt_inj]
  rfl

theorem gtZero_iff (v : Word) : gtZero v = true ↔ ¬(v.msb = true ∨ v = 0#32) := by
  rw [← leZero_iff, gtZero, leZero, decide_eq_true_iff, decide_eq_true_iff, gt_iff_lt, Int.not_le]

/-! ### Branches -/

/-- Where a branch goes, by any statement `p` of its condition (R120). -/
theorem next_branch_of {s : State} {taken : Bool} {p : Prop} [Decidable p] (imm : Imm16) (h : taken = true ↔ p) :
    ∃ t, (.next (branch s taken imm) : Result) = .next t ∧
      GoesTo s t (if p then s.pc + 4#32 + 4#32 * imm.signExtend 32 else s.pc + 4#32) := by
  have hb := branch_goesTo s taken imm
  simp only [h] at hb
  exact ⟨_, rfl, hb⟩

/-- A branch whose condition is that `p` fails. -/
theorem next_branch_of_not {s : State} {taken : Bool} {p : Prop} [Decidable p] (imm : Imm16)
    (h : taken = true ↔ ¬p) :
    ∃ t, (.next (branch s taken imm) : Result) = .next t ∧
      GoesTo s t (if p then s.pc + 4#32 else s.pc + 4#32 + 4#32 * imm.signExtend 32) := by
  rw [← ite_not]
  exact next_branch_of imm h

/-- Settles O28, by the condition of each branch. -/
theorem branchesGoToTargetOrNext : Obligations.BranchesGoToTargetOrNext := fun s rs _ imm =>
  ⟨next_branch_of imm decide_eq_true_iff, next_branch_of_not imm decide_eq_true_iff,
    next_branch_of imm (leZero_iff (readReg s rs)), next_branch_of_not imm (gtZero_iff (readReg s rs)),
    next_branch_of imm (ltZero_iff (readReg s rs)), next_branch_of_not imm (geZero_iff (readReg s rs))⟩

/-- Settles O29, by a branch from the state in which the link is written. -/
theorem linkingBranchesAlwaysLink : Obligations.LinkingBranchesAlwaysLink := by
  intro s rs imm
  have hlt := branch_link_linksAndGoesTo s ra (ltZero (readReg s rs)) imm
  have hge := branch_link_linksAndGoesTo s ra (geZero (readReg s rs)) imm
  simp only [ltZero_iff] at hlt
  simp only [geZero_iff, ite_not] at hge
  exact ⟨⟨_, rfl, hlt⟩, ⟨_, rfl, hge⟩⟩

/-! ### Jumps -/

/-- Settles O27: two jumps to the old `x[rs]`, the second after a link. -/
theorem registerJumps : Obligations.RegisterJumps := fun s rd rs =>
  ⟨⟨_, rfl, jumpTo_goesTo s (readReg s rs)⟩, ⟨_, rfl, linked_linksAndGoesTo s rd (readReg s rs)⟩⟩

/-- `{A[31:28], addr, 0b00}` as a number (R131). -/
theorem toNat_jumpTarget (a : Word) (addr : Addr26) :
    (jumpTarget a addr).toNat = a.toNat / 2 ^ 28 * 2 ^ 28 + addr.toNat * 4 := by
  have hregion : a.toNat / 2 ^ 28 % 2 ^ 4 = a.toNat / 2 ^ 28 := Nat.mod_eq_of_lt (by omega)
  rw [jumpTarget, append_toNat, append_toNat, BitVec.extractLsb'_toNat, Nat.shiftRight_eq_div_pow, hregion,
    BitVec.toNat_ofNat]
  omega

/-- Settles O30: two jumps to the same target, the second after a link in register 31. -/
theorem absoluteJumpsStayInRegion : Obligations.AbsoluteJumpsStayInRegion := fun s addr =>
  ⟨jumpTarget s.pc addr, toNat_jumpTarget s.pc addr, ⟨_, rfl, jumpTo_goesTo s _⟩,
    ⟨_, rfl, linked_linksAndGoesTo s ra _⟩⟩

/-! ### Where `pc` goes -/

/-- Where an instruction executed at `s` leaves `pc`. -/
inductive NextPc (s : State) : Instr → Word → Prop where
  | retired {i : Instr} : NextPc s i (s.pc + 4#32)
  | branched {i : Instr} (imm : Imm16) : NextPc s i (s.pc + 4#32 + 4#32 * imm.signExtend 32)
  | jumped {i : Instr} (addr : Addr26) : NextPc s i (jumpTarget s.pc addr)
  | jr (rs : RegIdx) : NextPc s (.jr rs) (readReg s rs)
  | jalr (rd rs : RegIdx) : NextPc s (.jalr rd rs) (readReg s rs)
  | entered {i : Instr} : NextPc s i s.cfg.excVector
  | broke : NextPc s .brk s.cfg.breakVector

theorem nextPc_of_retired {i : Instr} {s t : State} (h : t.pc = s.pc + 4#32) : NextPc s i t.pc :=
  h ▸ .retired

/-- A branch leaves `pc` at one of two places, with or without a link (R120). -/
theorem nextPc_of_branched {i : Instr} {s t : State} {taken : Bool} {imm : Imm16}
    (h : t.pc = if taken then s.pc + 4#32 + 4#32 * imm.signExtend 32 else s.pc + 4#32) : NextPc s i t.pc := by
  rw [h]
  split
  · exact .branched imm
  · exact .retired

theorem writeBackSigned_nextPc (i : Instr) (s : State) (d : RegIdx) (r : Int) :
    NextPc s i (writeBackSigned s d r).pc := by
  unfold writeBackSigned
  split
  · exact .entered
  · exact nextPc_of_retired (writeBack_pc s d _)

theorem load_nextPc (i : Instr) {s t : State} {rt : RegIdx} {ea : Word} {n : AccessWidth} {f : Word → Word}
    (h : load s rt ea n f = .next t) : NextPc s i t.pc := by
  rcases load_next h with ⟨-, rfl⟩ | ⟨-, rfl⟩
  · exact nextPc_of_retired (loaded_retiresLoading s ea n rt _).pc
  · exact .entered

theorem store_nextPc (i : Instr) {s t : State} {ea : Word} {n : AccessWidth} {v : Word}
    (h : store s ea n v = .next t) : NextPc s i t.pc := by
  rcases store_next h with ⟨-, rfl⟩ | ⟨-, rfl⟩
  · exact nextPc_of_retired (by simp)
  · exact .entered

theorem divide_nextPc (i : Instr) {zero : Prop} [Decidable zero] {s t : State} {q r : Word}
    (h : (if zero then .next (divideByZero s) else .next (writeHiLo s r q) : Result) = .next t) :
    NextPc s i t.pc := by
  split at h <;> (injection h with h; subst h)
  · exact nextPc_of_retired (divideByZero_goesTo s).pc
  · exact nextPc_of_retired (writeHiLo_pc s r q)

/-- Where an instruction leaves `pc`, by instruction. -/
theorem exec_nextPc {i : Instr} {s t : State} (h : exec i s = .next t) : NextPc s i t.pc := by
  cases i with
  | lb rt rs imm | lbu rt rs imm | lh rt rs imm | lhu rt rs imm | lw rt rs imm =>
    simp only [exec_lb, exec_lbu, exec_lh, exec_lhu, exec_lw] at h
    exact load_nextPc _ h
  | sb rt rs imm | sh rt rs imm | sw rt rs imm =>
    simp only [exec_sb, exec_sh, exec_sw] at h
    exact store_nextPc _ h
  | div rs rt | divu rs rt =>
    simp only [exec, execDiv, execDivu] at h
    exact divide_nextPc _ h
  | add | sub | addi =>
    cases h
    exact writeBackSigned_nextPc _ s _ _
  | mult | multu | mthi | mtlo =>
    cases h
    exact nextPc_of_retired (writeHiLo_pc s _ _)
  | beq | bne | blez | bgtz | bltz | bgez =>
    cases h
    exact nextPc_of_branched (branch_goesTo s _ _).pc
  | bltzal | bgezal =>
    cases h
    exact nextPc_of_branched (branch_link_linksAndGoesTo s _ _ _).pc
  | j addr | jal addr =>
    cases h
    exact .jumped addr
  | jr rs =>
    cases h
    exact .jr rs
  | jalr rd rs =>
    cases h
    exact .jalr rd rs
  | syscall =>
    cases h
    exact nextPc_of_retired (by simp)
  | brk =>
    cases h
    exact .broke
  | cop0 | cop1 | cop2 | cop3 =>
    cases h
    exact .retired
  | addu | subu | and | or | xor | nor | slt | sltu | sll | srl | sra | sllv | srlv | srav | mfhi | mflo | addiu | slti
  | sltiu | andi | ori | xori | lui =>
    cases h
    exact nextPc_of_retired (writeBack_pc s _ _)

/-! ### Alignment of `pc` -/

theorem aligned_nextAddr {a : Word} (h : a.toNat % 4 = 0) : (a + 4#32).toNat % 4 = 0 := by
  bv_omega

theorem aligned_branchTarget {a : Word} (h : a.toNat % 4 = 0) (d : Word) :
    (a + 4#32 + 4#32 * d).toNat % 4 = 0 := by
  bv_omega

theorem aligned_jumpTarget (a : Word) (addr : Addr26) : (jumpTarget a addr).toNat % 4 = 0 := by
  rw [toNat_jumpTarget]
  omega

/-- Only JR and JALR can leave a `pc` that is no multiple of 4; the two vectors are multiples of 4 by R6. -/
theorem NextPc.aligned {i : Instr} {s : State} {p : Word} (h : NextPc s i p) (hwf : s.cfg.wf)
    (hpc : s.pc.toNat % 4 = 0) (hi : ∀ rd rs, i ≠ .jr rs ∧ i ≠ .jalr rd rs) : p.toNat % 4 = 0 := by
  obtain ⟨-, hexc, hbreak, -⟩ := hwf
  cases h with
  | retired => exact aligned_nextAddr hpc
  | branched imm => exact aligned_branchTarget hpc _
  | jumped addr => exact aligned_jumpTarget s.pc addr
  | jr rs =>
    obtain ⟨hjr, -⟩ := hi 0#5 rs
    exact absurd rfl hjr
  | jalr rd rs =>
    obtain ⟨-, hjalr⟩ := hi rd rs
    exact absurd rfl hjalr
  | entered => exact hexc
  | broke => exact hbreak

/-- Settles O31, by where the instruction leaves `pc`. -/
theorem onlyRegisterJumpsMisalignPc : Obligations.OnlyRegisterJumpsMisalignPc := fun _ _ _ hwf hpc hi h =>
  (exec_nextPc h).aligned hwf hpc hi

/-! ### A step at a misaligned `pc` -/

/-- A fetch looks at the alignment of `pc` before anything else (R133). -/
theorem fetch_of_misaligned {s : State} (h : s.pc.toNat % 4 ≠ 0) : fetch s = .error .misalignedPc :=
  if_pos (mt (extractLsb'_two_eq_zero_iff s.pc).mp h)

/-- Settles O14: the step is its fetch, which is refused. -/
theorem misalignedPcIsRefused : Obligations.MisalignedPcIsRefused := by
  intro s hs hpc
  simp [step, clock, hs, fetch_of_misaligned hpc]

end Sys2Proof.Machine
end

section
/-! SUPPORT. Loads and stores (spec/45_load_store.md): the byte an access reads at each of its addresses, the widened
value of a load, the bytes of a store as its rule writes them, and the data bus error. -/

namespace Sys2Proof.Machine

/-! ### Loads -/

/-- Byte `k` that a read at `a` gives: the one held at `a + k` (R36), or 0 where the fallback answers the whole access
(R34). -/
def readByte (s : State) (a : Word) (k : Nat) : Byte :=
  if (route s.cfg.map a).1 = .zero then 0#8 else heldByte s (a + BitVec.ofNat 32 k)

theorem readByte_of_fallsBack {s : State} {a : Word} (h : fallsBack s.cfg a = true) (k : Nat) :
    readByte s a k = 0#8 :=
  if_pos ((fallsBack_iff s.cfg a).mp h)

theorem readByte_of_not_fallsBack {s : State} {a : Word} (h : fallsBack s.cfg a = false) (k : Nat) :
    readByte s a k = heldByte s (a + BitVec.ofNat 32 k) :=
  if_neg (of_decide_eq_false h)

/-- The number that bytes `b 0, b 1, ...` make, the first the most significant (R35, R36). -/
def bytesValue (b : Nat → Byte) : AccessWidth → Word
  | .byte => (b 0).zeroExtend 32
  | .half => (b 0 ++ b 1).zeroExtend 32
  | .word => b 0 ++ b 1 ++ b 2 ++ b 3

theorem readValue_eq (s : State) (a : Word) (n : AccessWidth) : readValue s a n = bytesValue (readByte s a) n := by
  cases h : fallsBack s.cfg a with
  | true => cases n <;> simp [readValue_of_fallsBack h, readByte_of_fallsBack h, bytesValue]
  | false => cases n <;> simp [readValue_of_not_fallsBack h, readByte_of_not_fallsBack h, heldValue, bytesValue]

theorem extractLsb'_zeroExtend {w : Nat} (x : BitVec w) (h : w ≤ 32) : (x.zeroExtend 32).extractLsb' 0 w = x := by
  rw [← BitVec.setWidth_eq_extractLsb' h, BitVec.setWidth_setWidth_of_le x h, BitVec.setWidth_eq]

/-- The low byte of a byte read and the low half of a half read, which the narrow loads extend (R141 to R144). -/
theorem extractLsb'_readValue_byte (s : State) (a : Word) :
    (readValue s a .byte).extractLsb' 0 8 = readByte s a 0 := by
  rw [readValue_eq, bytesValue, extractLsb'_zeroExtend _ (by decide)]

theorem extractLsb'_readValue_half (s : State) (a : Word) :
    (readValue s a .half).extractLsb' 0 16 = readByte s a 0 ++ readByte s a 1 := by
  rw [readValue_eq, bytesValue, extractLsb'_zeroExtend _ (by decide)]

theorem heldByte_ioStub {s : State} {a : Word} {k : Nat} (h : byteTarget s.cfg .read a = .ioStub k) :
    heldByte s a = laneByte (ioWord s.env) k := by
  rw [heldByte, h]

/-- A load that can be made retires with `v`, the widening of what it reads. -/
theorem load_retiresLoading {s : State} {ea : Word} {n : AccessWidth} (h : Accessible s.cfg .read ea n) (rt : RegIdx)
    {f : Word → Word} {v : Word} (hv : f (readValue s ea n) = v) :
    ∃ t, load s rt ea n f = .next t ∧ RetiresLoading s t ea n rt v :=
  ⟨_, load_of_ok (accessStatus_of_accessible h) rt f, hv ▸ loaded_retiresLoading s ea n rt _⟩

/-- Settles O33: each load widens the number of the bytes read, which are the held ones. -/
theorem loadsWidenHeldBytes : Obligations.LoadsWidenHeldBytes := by
  intro s rt rs imm ea b
  have hbyte : (readValue s ea .byte).extractLsb' 0 8 = b 0 := extractLsb'_readValue_byte s ea
  have hhalf : (readValue s ea .half).extractLsb' 0 16 = b 0 ++ b 1 := extractLsb'_readValue_half s ea
  have hword : readValue s ea .word = b 0 ++ b 1 ++ b 2 ++ b 3 := readValue_eq s ea .word
  refine ⟨fun _ _ h => heldByte_buffer h, fun _ _ hk h => (heldByte_ioStub h).trans (laneByte_eq _ hk),
    fun _ h => heldByte_fallback h, fun h => ⟨?_, ?_⟩, fun h => ⟨?_, ?_⟩, fun h => ?_⟩
  · rw [exec_lb]
    exact load_retiresLoading h rt (congrArg _ hbyte)
  · rw [exec_lbu]
    exact load_retiresLoading h rt (congrArg _ hbyte)
  · rw [exec_lh]
    exact load_retiresLoading h rt (congrArg _ hhalf)
  · rw [exec_lhu]
    exact load_retiresLoading h rt (congrArg _ hhalf)
  · rw [exec_lw]
    exact load_retiresLoading h rt hword

/-! ### Stores -/

theorem splitBytes_byte (v : Word) : splitBytes v .byte = [v.setWidth 8] := by
  rw [splitBytes, ← BitVec.setWidth_eq_extractLsb' (by decide)]

theorem splitBytes_half (v : Word) : splitBytes v .half = [(v >>> 8).setWidth 8, v.setWidth 8] :=
  calc splitBytes v .half
    _ = [laneByte v 2, laneByte v 3] := rfl
    _ = _ := by
      rw [laneByte_eq v (k := 2) (by omega), laneByte_eq v (k := 3) (by omega)]
      rfl

/-- A store that can be made retires with its bytes `l` at its addresses, or with none where the fallback answers
(R34, R37). -/
theorem store_retiresStoring {s : State} {ea v : Word} {n : AccessWidth} {l : List Byte} (hm : s.mem.wf)
    (h : Accessible s.cfg .write ea n) (hl : splitBytes v n = l) :
    ∃ t, store s ea n v = .next t ∧
      RetiresStoring s t (if (route s.cfg.map ea).1 = .zero then [] else (accessAddrs ea n).zip l) := by
  have hok := accessStatus_of_accessible h
  have hstored := stored_retiresStoring hm hok v
  rw [hl] at hstored
  refine ⟨_, store_of_ok hok v, ?_⟩
  split
  case isTrue hz => rwa [routedAddrs_of_fallsBack ((fallsBack_iff _ _).mpr hz)] at hstored
  case isFalse hz => rwa [routedAddrs_of_not_fallsBack (decide_eq_false hz)] at hstored

/-- Settles O34, by the bytes each width splits the register into. -/
theorem storesWriteBigEndianBytes : Obligations.StoresWriteBigEndianBytes := by
  intro s rt rs imm hm ea v cells
  refine ⟨fun h => ?_, fun h => ?_, fun h => ?_⟩
  · rw [exec_sb]
    exact store_retiresStoring hm h (splitBytes_byte v)
  · rw [exec_sh]
    exact store_retiresStoring hm h (splitBytes_half v)
  · rw [exec_sw]
    exact store_retiresStoring hm h (splitBytes_word v)

/-! ### The data bus error -/

theorem load_of_busError {s : State} {ea : Word} {n : AccessWidth}
    (h : accessStatus s.cfg .read (routedAddrs s.cfg ea n) = .busError) (rt : RegIdx) (f : Word → Word) :
    load s rt ea n f = .next (raiseDataBus ea s) := by
  simp only [load, h]

theorem store_of_busError {s : State} {ea : Word} {n : AccessWidth}
    (h : accessStatus s.cfg .write (routedAddrs s.cfg ea n) = .busError) (v : Word) :
    store s ea n v = .next (raiseDataBus ea s) := by
  simp only [store, h]

/-- A load or store that meets a `BusError` raises the data bus error with its effective address (R149). -/
theorem exec_of_busError {i : Instr} {s : State} {k : AccessKind} {ea : Word} {n : AccessWidth}
    (hi : memoryAccess i s = some (k, ea, n)) (h : accessStatus s.cfg k (routedAddrs s.cfg ea n) = .busError) :
    exec i s = .next (raiseDataBus ea s) := by
  rcases exec_of_memoryAccess hi with ⟨rfl, rt, f, he⟩ | ⟨rfl, v, he⟩
  · rw [he, load_of_busError h]
  · rw [he, store_of_busError h]

/-- Only the platform's answer makes a byte a bus error (R46). -/
theorem busErrorAt_of_byteTarget {c : Config} {k : AccessKind} {a : Word} (h : byteTarget c k a = .busError) :
    busErrorAt c k a = true := by
  revert h
  unfold byteTarget
  generalize route c.map a = p
  obtain ⟨q, o⟩ := p
  cases q with
  | zero => nofun
  | io =>
    dsimp only
    split
    case isTrue hb => exact fun _ => hb
    case isFalse => nofun
  | video | erom | stack | ram | text =>
    dsimp only
    split
    case isTrue hb => exact fun _ => hb
    case isFalse => split <;> nofun

/-- Settles O35: such an access has the status `busError`, which only a platform that answers so gives. -/
theorem busErrorCapturesAddressAndRaises : Obligations.BusErrorCapturesAddressAndRaises := by
  refine ⟨fun i s k ea n hi hbus => ⟨raiseDataBus ea s, ?_, raiseDataBus_entersException ea s, raiseDataBus_bvr s ea⟩,
    fun c k a hnone h => ?_⟩
  · exact exec_of_busError hi ((accessStatus_busError_iff s.cfg k _).mpr hbus)
  · have hb := busErrorAt_of_byteTarget h
    rw [busErrorAt, hnone] at hb
    exact absurd hb Bool.false_ne_true

end Sys2Proof.Machine
end

section
/-! SUPPORT. The system instructions and the step's INSTRUCTION_BUS (spec/46_system.md): decoding by numbers of the
fields, the call-out of SYSCALL, and that an execution reads neither `status` nor `ERRMODE`. -/

namespace Sys2Proof

/-! ### Decoding by the numbers of opcode and `funct` -/

theorem opcode_of_toNat {w : Word} {opcode : Op6} (h : (w >>> 26).toNat = opcode.toNat) :
    w.extractLsb' 26 6 = opcode :=
  BitVec.eq_of_toNat_eq ((opcode_toNat w).symm.trans h)

theorem funct_of_toNat {w : Word} {funct : Op6} (h : w.toNat % 64 = funct.toNat) : w.extractLsb' 0 6 = funct :=
  BitVec.eq_of_toNat_eq ((funct_toNat w).symm.trans h)

theorem decodeWord_of_opcode {w : Word} {opcode : Op6} (h : (w >>> 26).toNat = opcode.toNat) :
    decodeWord w = decodeFields opcode (w.extractLsb' 21 5) (w.extractLsb' 16 5) (w.extractLsb' 11 5)
      (w.extractLsb' 6 5) (w.extractLsb' 0 6) (w.extractLsb' 0 16) (w.extractLsb' 0 26) := by
  rw [decodeWord_eq_decodeFields, opcode_of_toNat h]

theorem decodeWord_of_funct {w : Word} {funct : Op6} (hop : (w >>> 26).toNat = 0) (hf : w.toNat % 64 = funct.toNat) :
    decodeWord w =
      selectSpecial (w.extractLsb' 21 5) (w.extractLsb' 16 5) (w.extractLsb' 11 5) (w.extractLsb' 6 5) funct := by
  rw [decodeWord_of_opcode (opcode := 0x00#6) hop, funct_of_toNat hf]
  exact if_pos rfl

end Sys2Proof

namespace Sys2Proof.Machine

/-! ### A word that is no instruction -/

/-- A step that fetches a word of no instruction takes INSTRUCTION_BUS (spec/46_system.md R158, R159). -/
theorem step_eq_raise {s : State} {e : DecodeError} (hs : s.suspended = false) (hf : Fetchable s)
    (he : decodeWord (wordAtPc s) = .error e) : step s = .next (raise .instructionBus s) := by
  simp [step, clock, execWord, hs, fetch_of_fetchable hf, he]

/-- Settles O2: the step is an exception entry, which leaves `bvr` alone. -/
theorem undecodedWordTakesInstructionBus : Obligations.UndecodedWordTakesInstructionBus := fun s _ hs hf he =>
  ⟨raise .instructionBus s, step_eq_raise hs hf he, raise_entersException .instructionBus s,
    raise_bvr s .instructionBus⟩

/-! ### SYSCALL, BREAK and the coprocessor no-ops -/

/-- Where a reply is scripted, it is the host's (note 7). -/
theorem syscallReply_of_scripted {s : State} {r : SyscallReply} (h : s.env.syscallReplies.head? = some r) :
    syscallReply s = r := by
  rw [syscallReply, h, Option.getD_some]

/-- Only `x[2]` among the general registers can change in the call-out (R184). -/
theorem notified_sameRegsBut (s : State) : SameRegsBut s (retire (syscallNotify s)) 2#5 := fun i hi => by
  rw [readReg_retire, readReg_syscallNotify, if_neg hi]

/-- Settles O42: SYSCALL retires from the state the call-out leaves. -/
theorem syscallNotifiesHostAndAdvances : Obligations.SyscallNotifiesHostAndAdvances := by
  refine ⟨fun w hop hf => decodeWord_of_funct (funct := 0x0C#6) hop hf, fun s => ⟨retire (syscallNotify s), ?_⟩⟩
  have hresult : readReg (retire (syscallNotify s)) 2#5 = (syscallReply s).result.getD (readReg s 2#5) :=
    readReg_syscallNotify s 2#5
  have hpc : (retire (syscallNotify s)).pc = s.pc + 4#32 := by simp
  exact ⟨rfl, fun _ => syscallReply_of_scripted, syscallNotify_env s, hresult, notified_sameRegsBut s,
    syscallNotify_mem s, syscallNotify_suspended s, hpc, notified_sameHiLo s, notified_sameExcRegs s,
    syscallNotify_diverr s, syscallNotify_errmode s, syscallNotify_cfg s⟩

/-- Settles O43: BREAK writes two fields of the state. -/
theorem breakWritesOnlyEpcAndPc : Obligations.BreakWritesOnlyEpcAndPc :=
  ⟨fun _ hop hf => decodeWord_of_funct (funct := 0x0D#6) hop hf,
    fun s => ⟨{ s with epc := s.pc, pc := s.cfg.breakVector }, rfl, rfl, rfl, rfl, rfl, rfl, fun _ => rfl,
      ⟨rfl, rfl⟩, ⟨rfl, rfl, rfl⟩, fun _ => rfl, rfl, rfl⟩⟩

/-- Settles O44: the dispatch of these opcodes reads no other field, and each of the four instructions only retires. -/
theorem coprocessorWordsAreNoOps : Obligations.CoprocessorWordsAreNoOps :=
  ⟨fun _ => ⟨decodeWord_of_opcode (opcode := 0x10#6), decodeWord_of_opcode (opcode := 0x11#6),
      decodeWord_of_opcode (opcode := 0x12#6), decodeWord_of_opcode (opcode := 0x13#6)⟩,
    fun s => ⟨⟨_, rfl, retire_goesTo s⟩, ⟨_, rfl, retire_goesTo s⟩, ⟨_, rfl, retire_goesTo s⟩,
      ⟨_, rfl, retire_goesTo s⟩⟩⟩

/-! ### `status` and `ERRMODE` influence no execution (R160) -/

/-- `s` with other contents of `status` and `ERRMODE`. -/
def withMode (s : State) (status : Word) (errmode : Bool) : State := { s with status := status, errmode := errmode }

/-- The next state with other contents of `status` and `ERRMODE`; any other outcome as it is. -/
def resultWithMode (r : Result) (status : Word) (errmode : Bool) : Result :=
  match r with
  | .next t => .next (withMode t status errmode)
  | .fault f => .fault f
  | .refused e => .refused e

/-- Two outcomes that differ at most in what `status` and `ERRMODE` hold. -/
def SameButMode (r r' : Result) : Prop := ∃ status errmode, r' = resultWithMode r status errmode

theorem next_sameButMode {t t' : State} {status : Word} {errmode : Bool} (h : t' = withMode t status errmode) :
    SameButMode (.next t) (.next t') :=
  ⟨status, errmode, congrArg Host.Outcome.next h⟩

theorem refused_sameButMode (e : Refusal) : SameButMode (.refused e) (.refused e) := ⟨0#32, false, rfl⟩

section
variable (s : State) (status : Word) (errmode : Bool)

@[simp] theorem withMode_cfg : (withMode s status errmode).cfg = s.cfg := rfl

theorem writeReg_withMode (d : RegIdx) (v : Word) :
    writeReg (withMode s status errmode) d v = withMode (writeReg s d v) status errmode := by
  unfold writeReg
  split <;> rfl

theorem writeBack_withMode (d : RegIdx) (v : Word) :
    writeBack (withMode s status errmode) d v = withMode (writeBack s d v) status errmode :=
  congrArg retire (writeReg_withMode s status errmode d v)

theorem branch_withMode (taken : Bool) (imm : Imm16) :
    branch (withMode s status errmode) taken imm = withMode (branch s taken imm) status errmode := by
  unfold branch
  split <;> rfl

theorem link_withMode (d : RegIdx) :
    link (withMode s status errmode) d = withMode (link s d) status errmode :=
  writeReg_withMode s status errmode d (nextAddr s.pc)

theorem jumpTo_link_withMode (d : RegIdx) (target : Word) :
    jumpTo (link (withMode s status errmode) d) target = withMode (jumpTo (link s d) target) status errmode :=
  congrArg (jumpTo · target) (link_withMode s status errmode d)

theorem branch_link_withMode (d : RegIdx) (taken : Bool) (imm : Imm16) :
    branch (link (withMode s status errmode) d) taken imm = withMode (branch (link s d) taken imm) status errmode := by
  rw [link_withMode, branch_withMode]

theorem afterRead_withMode (a : Word) (n : AccessWidth) :
    afterRead (withMode s status errmode) a n = withMode (afterRead s a n) status errmode := by
  unfold afterRead
  rw [apply_ite (withMode · status errmode)]
  rfl

theorem storeByte_withMode (a : Word) (b : Byte) :
    storeByte (withMode s status errmode) a b = withMode (storeByte s a b) status errmode := by
  unfold storeByte
  dsimp only [withMode_cfg]
  split
  case h_1 =>
    rw [apply_ite (withMode · status errmode)]
    rfl
  all_goals rfl

theorem storeBytes_withMode (l : List (Word × Byte)) :
    storeBytes (withMode s status errmode) l = withMode (storeBytes s l) status errmode := by
  induction l generalizing s with
  | nil => rfl
  | cons c l ih => rw [storeBytes, storeBytes, storeByte_withMode, ih]

theorem afterWrite_withMode (a : Word) (n : AccessWidth) (v : Word) :
    afterWrite (withMode s status errmode) a n v = withMode (afterWrite s a n v) status errmode :=
  storeBytes_withMode s status errmode _

theorem applyReply_withMode (r : SyscallReply) :
    applyReply (withMode s status errmode) r = withMode (applyReply s r) status errmode := by
  unfold applyReply
  cases r.result with
  | none => rfl
  | some v =>
    exact writeReg_withMode
      { s with mem := hostWrites s.cfg.map s.mem r.writes, suspended := s.suspended || r.suspend } status errmode 2#5 v

theorem syscallNotify_withMode :
    syscallNotify (withMode s status errmode) = withMode (syscallNotify s) status errmode :=
  applyReply_withMode { s with env := s.env.takeSyscall (syscallRequest s) (syscallReply s) } status errmode
    (syscallReply s)

/-- Exception entry shifts `status` and sets `ERRMODE` (R174), and neither has a part in what else it writes. -/
theorem raise_withMode (e : Exc) :
    raise e (withMode s status errmode) = withMode (raise e s) (status <<< 4) true := rfl

theorem raiseDataBus_withMode (ea : Word) :
    raiseDataBus ea (withMode s status errmode) = withMode (raiseDataBus ea s) (status <<< 4) true := rfl

theorem writeBackSigned_sameButMode (d : RegIdx) (r : Int) :
    SameButMode (.next (writeBackSigned s d r)) (.next (writeBackSigned (withMode s status errmode) d r)) := by
  unfold writeBackSigned
  split
  · exact next_sameButMode (raise_withMode s status errmode .overflow)
  · exact next_sameButMode (writeBack_withMode s status errmode d _)

theorem load_sameButMode (rt : RegIdx) (ea : Word) (n : AccessWidth) (f : Word → Word) :
    SameButMode (load s rt ea n f) (load (withMode s status errmode) rt ea n f) := by
  unfold load
  rw [afterRead_withMode]
  dsimp only [withMode_cfg]
  split
  · exact next_sameButMode (writeBack_withMode _ status errmode rt _)
  · exact next_sameButMode (raiseDataBus_withMode s status errmode ea)
  · exact refused_sameButMode _

theorem store_sameButMode (ea : Word) (n : AccessWidth) (v : Word) :
    SameButMode (store s ea n v) (store (withMode s status errmode) ea n v) := by
  unfold store
  rw [afterWrite_withMode]
  dsimp only [withMode_cfg]
  split
  · exact next_sameButMode (status := status) (errmode := errmode) rfl
  · exact next_sameButMode (raiseDataBus_withMode s status errmode ea)
  · exact refused_sameButMode _

theorem divide_sameButMode (zero : Prop) [Decidable zero] (q r : Word) :
    SameButMode (if zero then .next (divideByZero s) else .next (writeHiLo s r q))
      (if zero then .next (divideByZero (withMode s status errmode))
        else .next (writeHiLo (withMode s status errmode) r q)) := by
  split <;> exact next_sameButMode (status := status) (errmode := errmode) rfl

/-- What an execution answers from other contents of `status` and `ERRMODE`, by instruction. -/
theorem exec_sameButMode (i : Instr) : SameButMode (exec i s) (exec i (withMode s status errmode)) := by
  cases i with
  | lb rt rs imm | lbu rt rs imm | lh rt rs imm | lhu rt rs imm | lw rt rs imm =>
    simp only [exec_lb, exec_lbu, exec_lh, exec_lhu, exec_lw]
    exact load_sameButMode s status errmode ..
  | sb rt rs imm | sh rt rs imm | sw rt rs imm =>
    simp only [exec_sb, exec_sh, exec_sw]
    exact store_sameButMode s status errmode ..
  | div | divu => exact divide_sameButMode s status errmode ..
  | add | sub | addi => exact writeBackSigned_sameButMode s status errmode ..
  | beq | bne | blez | bgtz | bltz | bgez => exact next_sameButMode (branch_withMode s status errmode ..)
  | bltzal | bgezal => exact next_sameButMode (branch_link_withMode s status errmode ..)
  | jalr | jal => exact next_sameButMode (jumpTo_link_withMode s status errmode ..)
  | syscall => exact next_sameButMode (congrArg retire (syscallNotify_withMode s status errmode))
  | mult | multu | mthi | mtlo | jr | j | brk | cop0 | cop1 | cop2 | cop3 =>
    exact next_sameButMode (status := status) (errmode := errmode) rfl
  | addu | subu | and | or | xor | nor | slt | sltu | sll | srl | sra | sllv | srlv | srav | mfhi | mflo | addiu | slti
  | sltiu | andi | ori | xori | lui => exact next_sameButMode (writeBack_withMode s status errmode ..)

end

/-- Settles O49: the two outcomes differ at most in what `status` and `ERRMODE` hold. -/
theorem statusAndErrmodeDoNotInfluenceExecution : Obligations.StatusAndErrmodeDoNotInfluenceExecution := by
  intro i s status errmode
  obtain ⟨status', errmode', h⟩ := exec_sameButMode s status errmode i
  refine ⟨fun t ht => ⟨withMode t status' errmode', ?_, rfl, rfl, rfl, rfl, rfl, rfl, rfl, rfl, rfl, rfl, rfl, rfl⟩,
    fun r hr => ?_⟩
  · exact h.trans (by rw [ht]; rfl)
  · exact h.trans (by rw [hr]; rfl)

end Sys2Proof.Machine
end

section
/-! SUPPORT. The host's operations (spec/60_exceptions.md R189): the invariant and the error flags under each of them,
when a step has a next state, and which state a delivery or an interrupt finds. -/

namespace Sys2Proof.Machine

/-! ### The invariant -/

/-- A constructed machine meets the invariant, whatever contents its platform gives memory (R190). -/
theorem construct_inv {cfg : Config} (h : cfg.wf) (pc0 : Option Word) (contents : List Host.Cell) (env : Env) :
    (State.construct cfg pc0 (hostWrites cfg.map [] contents) env).Inv where
  memWf := hostWrites_wf _ Memory.nil_wf _
  memBacked := hostWrites_backed _ (List.forall_mem_nil _) _
  cfgWf := h
  delivery := nofun

/-- Bytes that the host writes into the buffers keep the invariant. -/
theorem State.Inv.of_hostWrites {s t : State} (h : s.Inv) {l : List Host.Cell}
    (hm : t.mem = hostWrites s.cfg.map s.mem l) (hc : t.cfg = s.cfg)
    (hd : t.env.deliveryOpen = s.env.deliveryOpen) (hs : t.suspended = s.suspended) : t.Inv where
  memWf := hm ▸ hostWrites_wf _ h.memWf l
  memBacked := by rw [hm, hc]; exact hostWrites_backed _ h.memBacked l
  cfgWf := hc ▸ h.cfgWf
  delivery := by rw [hd, hs]; exact h.delivery

theorem pause_inv {s : State} (h : s.Inv) : (pause s).Inv := ⟨h.memWf, h.memBacked, h.cfgWf, fun _ => rfl⟩

theorem resume_inv {s : State} (h : s.Inv) : (resume s).Inv := ⟨h.memWf, h.memBacked, h.cfgWf, nofun⟩

/-- The bases and every parameter but the sizes stay the machine's own, and the recorded sizes fit the bases (R28). -/
theorem restore_inv {p : Snapshot} {s t : State} (hs : s.Inv) (h : restore p s = .next t) : t.Inv := by
  obtain ⟨hfits, rfl⟩ := restore_next h
  obtain ⟨hpc, hexc, hbreak, hcodes, hcodesFit, -⟩ := hs.cfgWf
  exact ⟨hostWrites_wf _ Memory.nil_wf _, hostWrites_backed _ (List.forall_mem_nil _) _,
    ⟨hpc, hexc, hbreak, hcodes, hcodesFit, MemoryImage.resize_wf hfits⟩, fun ho => (Bool.and_eq_true_iff.mp ho).1⟩

/-- Settles O56, by operation. -/
theorem hostOperationsKeepStateInvariant : Obligations.HostOperationsKeepStateInvariant := by
  intro o s t hs h
  cases o with
  | reset pc0 contents =>
    cases h
    exact construct_inv hs.cfgWf pc0 contents s.env
  | load program =>
    obtain ⟨-, rfl⟩ := loadProgram_next h
    exact hs.of_hostWrites rfl rfl rfl rfl
  | step => exact stepKeepsStateInvariant s t hs h
  | pause =>
    cases h
    exact pause_inv hs
  | resume =>
    cases h
    exact resume_inv hs
  | interrupt =>
    obtain ⟨-, rfl⟩ := interrupt_next h
    exact hs.congr rfl rfl rfl rfl
  | deliver result writes =>
    obtain ⟨-, -, rfl⟩ := deliver_next h
    exact hs.of_hostWrites (applyReply_mem s _) (applyReply_cfg s _) (by simp) (by simp)
  | restore p => exact restore_inv hs h

/-- Settles O55: a constructed machine meets the invariant and every operation keeps it. -/
theorem reachableStatesSatisfyInvariant : Obligations.ReachableStatesSatisfyInvariant := by
  intro s h
  induction h with
  | construct cfg pc0 contents env hcfg => exact construct_inv hcfg pc0 contents env
  | perform o s t _ h ih => exact hostOperationsKeepStateInvariant o s t ih h

/-! ### When a step has a next state -/

theorem step_of_suspended {s : State} (h : s.suspended = true) : step s = .next s := if_pos h

/-- Settles O13: the clock does nothing while suspended. -/
theorem suspendedStepChangesNothing : Obligations.SuspendedStepChangesNothing := fun _ => step_of_suspended

/-- A load or store none of whose bytes lies beyond its buffer completes or raises the data bus error (R32, R149). -/
theorem exec_completes_of_memoryAccess {i : Instr} {s : State} {k : AccessKind} {ea : Word} {n : AccessWidth}
    (hi : memoryAccess i s = some (k, ea, n))
    (hb : ∀ a ∈ routedAddrs s.cfg ea n, byteTarget s.cfg k a ≠ .beyondBuffer) : ∃ t, exec i s = .next t := by
  cases hstatus : accessStatus s.cfg k (routedAddrs s.cfg ea n) with
  | ok =>
    rcases exec_of_memoryAccess hi with ⟨rfl, rt, f, he⟩ | ⟨rfl, v, he⟩
    · exact ⟨_, he.trans (load_of_ok hstatus rt f)⟩
    · exact ⟨_, he.trans (store_of_ok hstatus v)⟩
  | busError => exact ⟨_, exec_of_busError hi hstatus⟩
  | beyondBuffer =>
    obtain ⟨-, a, ha, hbeyond⟩ := (accessStatus_beyondBuffer_iff s.cfg k _).mp hstatus
    exact absurd hbeyond (hb a ha)

/-- An instruction that makes no access completes (R170). -/
theorem exec_completes_of_no_access {i : Instr} {s : State} (hi : memoryAccess i s = none) :
    ∃ t, exec i s = .next t := by
  cases i with
  | lb | lbu | lh | lhu | lw | sb | sh | sw => cases hi
  | div rs rt =>
    by_cases hzero : readReg s rt = 0#32
    · exact ⟨_, exec_div_of_zero rs hzero⟩
    · exact ⟨_, exec_div_of_ne_zero rs hzero⟩
  | divu rs rt =>
    by_cases hzero : readReg s rt = 0#32
    · exact ⟨_, exec_divu_of_zero rs hzero⟩
    · exact ⟨_, exec_divu_of_ne_zero rs hzero⟩
  | _ => exact ⟨_, rfl⟩

/-- Settles O15: a suspended step, an undecoded word and every instruction that is no access beyond its buffer have a
next state. -/
theorem stepCompletesUnlessAccessBeyondBuffer : Obligations.StepCompletesUnlessAccessBeyondBuffer := by
  intro s hf hb
  cases hs : s.suspended with
  | true => exact ⟨s, step_of_suspended hs⟩
  | false =>
    cases hi : decodeWord (wordAtPc s) with
    | error e => exact ⟨_, step_eq_raise hs hf hi⟩
    | ok i =>
      rw [step_eq_exec hs hf hi]
      cases ha : memoryAccess i s with
      | none => exact exec_completes_of_no_access ha
      | some access =>
        obtain ⟨k, ea, n⟩ := access
        exact exec_completes_of_memoryAccess ha (hb i k ea n hi ha)

/-! ### The error flags -/

/-- Every operation but Reset and Restore leaves a set ERRMODE and a set DIVERR set (R189). -/
theorem perform_keepsErrorFlags {o : HostOp} {s t : State} (h : perform o s = .next t)
    (hreset : ∀ pc0 contents, o ≠ .reset pc0 contents) (hrestore : ∀ p, o ≠ .restore p) :
    (s.errmode = true → t.errmode = true) ∧ (s.diverr = true → t.diverr = true) := by
  cases o with
  | reset pc0 contents => exact absurd rfl (hreset pc0 contents)
  | restore p => exact absurd rfl (hrestore p)
  | step => exact noStepClearsErrorFlags s t h
  | load program =>
    obtain ⟨-, rfl⟩ := loadProgram_next h
    exact ⟨id, id⟩
  | pause | resume =>
    cases h
    exact ⟨id, id⟩
  | interrupt =>
    obtain ⟨-, rfl⟩ := interrupt_next h
    exact ⟨fun _ => rfl, id⟩
  | deliver result writes =>
    obtain ⟨-, -, rfl⟩ := deliver_next h
    exact ⟨(applyReply_errmode s _).trans, (applyReply_diverr s _).trans⟩

/-- Settles O50: any other operation keeps both flags. -/
theorem onlyResetAndRestoreClearErrorFlags : Obligations.OnlyResetAndRestoreClearErrorFlags := by
  intro o s t h hcleared
  by_contra hother
  simp only [not_or, not_exists] at hother
  obtain ⟨hreset, hrestore⟩ := hother
  obtain ⟨herrmode, hdiverr⟩ := perform_keepsErrorFlags h hreset hrestore
  rcases hcleared with ⟨hs, ht⟩ | ⟨hs, ht⟩
  · exact Bool.false_ne_true (ht.symm.trans (herrmode hs))
  · exact Bool.false_ne_true (ht.symm.trans (hdiverr hs))

/-! ### Interrupt, pause and resume -/

/-- Settles O46: where it is legal, the operation is an exception entry, which leaves `bvr` alone. -/
theorem interruptEntersWithoutGating : Obligations.InterruptEntersWithoutGating := fun s =>
  ⟨fun hs => if_pos hs, fun hs => ⟨raise .interrupt s, if_neg (Bool.eq_false_iff.mp hs),
    raise_entersException .interrupt s, raise_bvr s .interrupt⟩⟩

/-- Settles O60: the two operations write SUSPENDED, and Resume the mark of an awaited result. -/
theorem pauseAndResumeChangeOnlySuspended : Obligations.PauseAndResumeChangeOnlySuspended := by
  intro s kept
  have hkept : ∀ suspended env, kept { s with suspended := suspended, env := env } := fun _ _ =>
    ⟨fun _ => rfl, rfl, ⟨rfl, rfl⟩, ⟨rfl, rfl, rfl, rfl⟩, rfl, rfl, fun _ => rfl, rfl⟩
  exact ⟨⟨pause s, rfl, rfl, hkept true s.env, rfl⟩,
    ⟨resume s, rfl, rfl, hkept false { s.env with deliveryOpen := false }, rfl⟩⟩

/-! ### Delivery -/

theorem deliver_of_awaited {s : State} (h : s.suspended = true ∧ s.env.deliveryOpen = true) (result : Option Word)
    (writes : List Host.Cell) :
    deliver result writes s = .next (applyReply s { result := result, writes := writes, suspend := false }) :=
  if_pos (Bool.and_eq_true_iff.mpr h)

theorem deliver_of_not_awaited {s : State} (h : ¬(s.suspended = true ∧ s.env.deliveryOpen = true))
    (result : Option Word) (writes : List Host.Cell) :
    deliver result writes s = .refused .hostOperationNotLegal :=
  if_neg (mt Bool.and_eq_true_iff.mp h)

/-- After a Resume or a Reset no result is awaited (R184). -/
theorem not_deliveryOpen_of_resume_or_reset {o : HostOp} {s t : State}
    (ho : o = .resume ∨ ∃ pc0 contents, o = .reset pc0 contents) (h : perform o s = .next t) :
    t.env.deliveryOpen = false := by
  rcases ho with rfl | ⟨pc0, contents, rfl⟩ <;> (cases h; rfl)

/-- A result is awaited only while suspended, so the mark a snapshot restores is the recorded one. -/
theorem State.Inv.suspended_and_deliveryOpen {s : State} (h : s.Inv) :
    (s.suspended && s.env.deliveryOpen) = s.env.deliveryOpen :=
  Bool.and_eq_right_iff_imp.mpr h.delivery

/-- Settles O58: a delivery is a reply that does not suspend, and its legality reads two marks, which Resume and Reset
clear and a snapshot records. -/
theorem deliveryOnlyWhileSuspendedByCall : Obligations.DeliveryOnlyWhileSuspendedByCall := by
  intro result writes
  refine ⟨fun s h => ⟨_, deliver_of_awaited h result writes, ?_⟩, fun s h => deliver_of_not_awaited h result writes,
    fun o s t u ho ht hu => ?_, fun s t u hs h => ?_⟩
  · have hregs := readReg_applyReply s { result := result, writes := writes, suspend := false }
    exact ⟨hregs 2#5, fun i hi => (hregs i).trans (if_neg hi), by simp, by simp, by simp [SameHiLo],
      by simp [SameExcRegs], by simp [SameFlags], by simp [SamePlatform]⟩
  · have hclosed : ¬t.env.deliveryOpen = true := Bool.eq_false_iff.mp (not_deliveryOpen_of_resume_or_reset ho ht)
    cases hu
    exact deliver_of_not_awaited (s := pause t) (fun ⟨_, hopen⟩ => hclosed hopen) result writes
  · obtain ⟨-, rfl⟩ := restore_next h
    exact ⟨rfl, hs.suspended_and_deliveryOpen⟩

end Sys2Proof.Machine
end

section
/-! SUPPORT. Reset, program load and the end of a run (spec/70_reset_and_hazards.md): where the bytes of a program lie,
and which steps put a request in front of what the host has received. -/

namespace Sys2Proof.Machine

/-! ### Where the bytes of a program lie -/

theorem bounds_of_mem_cellsFrom {a : Nat} {l : List Byte} {c : Host.Cell} (h : c ∈ cellsFrom a l) :
    a ≤ c.1 ∧ c.1 < a + l.length := by
  obtain ⟨j, hj, hc⟩ := mem_cellsFrom.mp h
  obtain ⟨hlt, -⟩ := List.getElem?_eq_some_iff.mp hj
  omega

theorem inBuffer_of_inRegion {m : AddressMap} {r : Region} {a : Nat} (h : inRegion m r a = true) :
    inBuffer m a = true :=
  (Bool.and_eq_true_iff.mp h).1

/-- Bytes laid within a region's buffer are bytes of that region (spec/20_memory.md R32). -/
theorem inRegion_of_mem_cellsFrom {m : AddressMap} (hm : m.wf) {r : Region} {a : Nat} {l : List Byte}
    (hlow : (regionBase m r).toNat ≤ a) (hhigh : a + l.length ≤ (regionBase m r).toNat + bufferSize m r)
    {c : Host.Cell} (hc : c ∈ cellsFrom a l) : inRegion m r c.1 = true := by
  obtain ⟨hle, hlt⟩ := bounds_of_mem_cellsFrom hc
  have haddr : regionAddr m r (c.1 - (regionBase m r).toNat) = c.1 := by
    rw [regionAddr]
    omega
  rw [← haddr]
  exact inRegion_regionAddr hm (by omega)

theorem Program.mem_dataCells {p : Program} {map : AddressMap} {c : Host.Cell} :
    c ∈ p.dataCells map ↔ ∃ d ∈ p.data, c ∈ cellsFrom (regionAddr map .ram d.offset) d.content :=
  List.mem_flatMap

theorem Program.fits_iff (p : Program) (map : AddressMap) :
    p.fits map = true ↔
      (∀ c ∈ p.textCells, inRegion map .text c.1 = true) ∧ ∀ c ∈ p.dataCells map, inRegion map .ram c.1 = true := by
  rw [Program.fits, Bool.and_eq_true, List.all_eq_true, List.all_eq_true]

/-- A program whose words end within the text buffer and whose blocks end within the RAM buffer fits (note 21). -/
theorem Program.fits_of_bounds {p : Program} {map : AddressMap} (hm : map.wf)
    (hlow : map.textBase.toNat ≤ p.position.toNat)
    (hhigh : p.position.toNat + 4 * p.words.length ≤ map.textBase.toNat + map.textSize)
    (hdata : ∀ d ∈ p.data, d.offset + d.content.length ≤ map.ramSize) : p.fits map = true := by
  refine (p.fits_iff map).mpr ⟨fun c hc => ?_, fun c hc => ?_⟩
  · exact inRegion_of_mem_cellsFrom (r := .text) hm hlow (by rwa [length_flatMap_bytesOfWord]) hc
  · obtain ⟨d, hd, hc⟩ := Program.mem_dataCells.mp hc
    have hend := hdata d hd
    exact inRegion_of_mem_cellsFrom (r := .ram) hm (Nat.le_add_right _ _)
      (by simp only [bufferSize]; omega) hc

/-- No two bytes of a fitting program whose blocks do not overlap have one address. -/
theorem Program.cells_fst_nodup {p : Program} {map : AddressMap} (hfits : p.fits map = true)
    (hdisjoint : p.data.Pairwise fun d e =>
      d.offset + d.content.length ≤ e.offset ∨ e.offset + e.content.length ≤ d.offset) :
    ((p.textCells ++ p.dataCells map).map Prod.fst).Nodup := by
  obtain ⟨htext, hram⟩ := (p.fits_iff map).mp hfits
  rw [List.Nodup, List.pairwise_map, List.pairwise_append]
  refine ⟨List.pairwise_map.mp (cellsFrom_nodup _ _), ?_, fun c hc d hd he => ?_⟩
  · refine List.pairwise_flatMap.mpr ⟨fun d _ => List.pairwise_map.mp (cellsFrom_nodup _ _),
      hdisjoint.imp fun hde x hx y hy he => ?_⟩
    obtain ⟨hxlow, hxhigh⟩ := bounds_of_mem_cellsFrom hx
    obtain ⟨hylow, hyhigh⟩ := bounds_of_mem_cellsFrom hy
    rw [regionAddr] at hxlow hxhigh hylow hyhigh
    omega
  · have hregion := inRegion_unique (htext c hc) (he ▸ hram d hd : inRegion map .ram c.1 = true)
    cases hregion

/-- An address outside the words and outside every block is none of a program's. -/
theorem Program.ne_fst_of_outside {p : Program} {map : AddressMap} {x : Nat}
    (hwords : x < p.position.toNat ∨ p.position.toNat + 4 * p.words.length ≤ x)
    (hblocks : ∀ d ∈ p.data, x < map.ramBase.toNat + d.offset ∨
      map.ramBase.toNat + d.offset + d.content.length ≤ x) :
    ∀ c ∈ p.textCells ++ p.dataCells map, x ≠ c.1 := by
  intro c hc
  rcases List.mem_append.mp hc with hc | hc
  · obtain ⟨hlow, hhigh⟩ := bounds_of_mem_cellsFrom hc
    rw [length_flatMap_bytesOfWord] at hhigh
    omega
  · obtain ⟨d, hd, hc⟩ := Program.mem_dataCells.mp hc
    obtain ⟨hlow, hhigh⟩ := bounds_of_mem_cellsFrom hc
    have hout := hblocks d hd
    rw [regionAddr, regionBase] at hlow hhigh
    omega

/-! ### What Load leaves in memory -/

theorem loadProgram_of_fits {p : Program} {s : State} (h : p.fits s.cfg.map = true) :
    loadProgram p s = .next { s with
      mem := hostWrites s.cfg.map s.mem (p.textCells ++ p.dataCells s.cfg.map)
      pc := if p.setPc then p.position else s.pc } :=
  if_pos h

theorem Program.inBuffer_of_fits {p : Program} {map : AddressMap} (h : p.fits map = true) :
    ∀ c ∈ p.textCells ++ p.dataCells map, inBuffer map c.1 = true := by
  obtain ⟨htext, hram⟩ := (p.fits_iff map).mp h
  intro c hc
  rcases List.mem_append.mp hc with hc | hc
  · exact inBuffer_of_inRegion (htext c hc)
  · exact inBuffer_of_inRegion (hram c hc)

/-- Whatever the program, Load writes bytes of text and RAM only (spec/60_exceptions.md R189). -/
theorem loadProgram_read_of_not_inRegion {p : Program} {s t : State} (hm : s.mem.wf) (h : loadProgram p s = .next t)
    {x : Nat} (htext : inRegion s.cfg.map .text x = false) (hram : inRegion s.cfg.map .ram x = false) :
    t.mem.read x = s.mem.read x := by
  obtain ⟨hfits, rfl⟩ := loadProgram_next h
  obtain ⟨hcells, hdata⟩ := (p.fits_iff s.cfg.map).mp hfits
  refine hostWrites_read_of_not_mem _ hm _ fun c hc he => ?_
  rcases List.mem_append.mp hc with hc | hc
  · exact Bool.false_ne_true (htext.symm.trans (he ▸ hcells c hc))
  · exact Bool.false_ne_true (hram.symm.trans (he ▸ hdata c hc))

/-- Settles O57: the cells of a fitting program have distinct addresses in the buffers, so each reads back, and every
other address is none of theirs. -/
theorem loadPlacesWordsAndData : Obligations.LoadPlacesWordsAndData := by
  refine ⟨?_, fun s t p hm h x => loadProgram_read_of_not_inRegion hm h⟩
  intro s p hs text ram hlow hhigh hdata hdisjoint
  obtain ⟨-, -, -, -, -, hmap⟩ := hs.cfgWf
  have hfits : p.fits s.cfg.map = true := Program.fits_of_bounds hmap hlow hhigh hdata
  have hread : ∀ a b, (a, b) ∈ p.textCells ++ p.dataCells s.cfg.map →
      (hostWrites s.cfg.map s.mem (p.textCells ++ p.dataCells s.cfg.map)).read a = b := fun a b hc =>
    hostWrites_read_of_mem _ hs.memWf _ (Program.inBuffer_of_fits hfits) (Program.cells_fst_nodup hfits hdisjoint) hc
  refine ⟨_, loadProgram_of_fits hfits, fun i k w hw hk => hread _ _ ?_, fun d hd j b hb => hread _ _ ?_,
    fun x htext hblocks => hostWrites_read_of_not_mem _ hs.memWf _ (Program.ne_fst_of_outside htext hblocks), rfl,
    fun _ => rfl, ⟨rfl, rfl⟩, ⟨rfl, rfl, rfl, rfl⟩, ⟨rfl, rfl, rfl⟩, ⟨rfl, rfl⟩⟩
  · exact List.mem_append_left _ (mem_cellsFrom.mpr
      ⟨4 * i + k, getElem?_flatMap_bytesOfWord hw hk, Nat.add_assoc ..⟩)
  · exact List.mem_append_right _ (Program.mem_dataCells.mpr ⟨d, hd, mem_cellsFrom.mpr ⟨j, hb, rfl⟩⟩)

/-! ### Which steps tell the host -/

theorem SamePlatform.syscallCalls_eq {s t : State} (h : SamePlatform s t) : t.env.syscallCalls = s.env.syscallCalls :=
  congrArg Env.syscallCalls h.2

theorem writeBackSigned_syscallCalls (s : State) (d : RegIdx) (r : Int) :
    (writeBackSigned s d r).env.syscallCalls = s.env.syscallCalls := by
  unfold writeBackSigned
  split
  · rfl
  · exact (writeBack_retiresWriting s d _).platform.syscallCalls_eq

theorem load_syscallCalls {s t : State} {rt : RegIdx} {ea : Word} {n : AccessWidth} {f : Word → Word}
    (h : load s rt ea n f = .next t) : t.env.syscallCalls = s.env.syscallCalls := by
  rcases load_next h with ⟨-, rfl⟩ | ⟨-, rfl⟩
  · rw [writeBack_env, afterRead]
    split <;> rfl
  · rfl

theorem store_syscallCalls {s t : State} {ea : Word} {n : AccessWidth} {v : Word} (h : store s ea n v = .next t) :
    t.env.syscallCalls = s.env.syscallCalls := by
  rcases store_next h with ⟨hok, rfl⟩ | ⟨-, rfl⟩
  · rw [retire_env, afterWrite_env hok]
  · rfl

theorem divide_syscallCalls {zero : Prop} [Decidable zero] {s t : State} {q r : Word}
    (h : (if zero then .next (divideByZero s) else .next (writeHiLo s r q) : Result) = .next t) :
    t.env.syscallCalls = s.env.syscallCalls := by
  split at h <;> (cases h; rfl)

/-- Only SYSCALL tells the host anything (spec/60_exceptions.md R184). -/
theorem exec_syscallCalls {i : Instr} {s t : State} (hi : i ≠ .syscall) (h : exec i s = .next t) :
    t.env.syscallCalls = s.env.syscallCalls := by
  cases i with
  | syscall => exact absurd rfl hi
  | lb | lbu | lh | lhu | lw =>
    simp only [exec_lb, exec_lbu, exec_lh, exec_lhu, exec_lw] at h
    exact load_syscallCalls h
  | sb | sh | sw =>
    simp only [exec_sb, exec_sh, exec_sw] at h
    exact store_syscallCalls h
  | div | divu =>
    simp only [exec, execDiv, execDivu] at h
    exact divide_syscallCalls h
  | add | sub | addi =>
    cases h
    exact writeBackSigned_syscallCalls s _ _
  | beq | bne | blez | bgtz | bltz | bgez =>
    cases h
    exact (branch_goesTo s _ _).platform.syscallCalls_eq
  | bltzal | bgezal =>
    cases h
    exact (branch_link_linksAndGoesTo s _ _ _).platform.syscallCalls_eq
  | jalr | jal =>
    cases h
    exact (linked_linksAndGoesTo s _ _).platform.syscallCalls_eq
  | mult | multu | mthi | mtlo | jr | j | brk | cop0 | cop1 | cop2 | cop3 =>
    cases h
    rfl
  | addu | subu | and | or | xor | nor | slt | sltu | sll | srl | sra | sllv | srlv | srav | mfhi | mflo | addiu | slti
  | sltiu | andi | ori | xori | lui =>
    cases h
    exact (writeBack_retiresWriting s _ _).platform.syscallCalls_eq

/-! ### The step that asks for the terminate service -/

/-- The next step at `s` is a SYSCALL with the code of the terminate service (R197). -/
def AsksTerminate (s : State) : Prop :=
  s.suspended = false ∧ decodeWord (wordAtPc s) = .ok .syscall ∧ readReg s 2#5 = 10#32

theorem reportsTerminate_of_syscallCalls_eq {s t : State} (h : t.env.syscallCalls = s.env.syscallCalls) :
    reportsTerminate s t = false := by
  unfold reportsTerminate
  rw [h]
  split
  next q earlier hcalls => simp [hcalls]
  next => rfl

theorem reportsTerminate_syscallNotify (s : State) :
    reportsTerminate s (retire (syscallNotify s)) = decide (readReg s 2#5 = 10#32) := by
  simp [reportsTerminate, Env.takeSyscall, syscallRequest]

/-- The host's loop ends a run exactly at such a step (note 20). -/
theorem reportsTerminate_iff {s t : State} (h : step s = .next t) :
    reportsTerminate s t = true ↔ AsksTerminate s := by
  unfold AsksTerminate
  rcases step_next h with ⟨hs, rfl⟩ | ⟨hs, -, ⟨i, hi, hx⟩ | ⟨⟨e, he⟩, rfl⟩⟩
  · simp [reportsTerminate_of_syscallCalls_eq, hs]
  · by_cases hsys : i = .syscall
    · subst hsys
      cases hx
      simp [reportsTerminate_syscallNotify, hs, hi]
    · simp [reportsTerminate_of_syscallCalls_eq (exec_syscallCalls hsys hx), hi, hsys]
  · have hcalls : (raise .instructionBus s).env.syscallCalls = s.env.syscallCalls := rfl
    simp [reportsTerminate_of_syscallCalls_eq hcalls, he]

theorem AsksTerminate.pc_eq {s t : State} (hs : AsksTerminate s) (h : step s = .next t) : t.pc = s.pc + 4#32 := by
  obtain ⟨hrun, hi, -⟩ := hs
  rcases step_next h with ⟨hsusp, -⟩ | ⟨-, hf, -⟩
  · exact absurd (hrun.symm.trans hsusp) Bool.false_ne_true
  · cases (step_eq_exec hrun hf hi).symm.trans h
    simp

/-! ### The host's loop -/

theorem core_run_succ {s t : State} (h : step s = .next t) (k : Nat) : core.run (k + 1) s = core.run k t := by
  simp only [Host.Core.run, core, h]

theorem runProgram_of_refused {s : State} {r : Refusal} (h : step s = .refused r) (n : Nat) :
    runProgram (n + 1) s = .refused r := by
  simp only [runProgram, h]

theorem runProgram_of_asksTerminate {s t : State} (h : step s = .next t) (hs : AsksTerminate s) (n : Nat) :
    runProgram (n + 1) s = .stopped t := by
  simp only [runProgram, h, if_pos ((reportsTerminate_iff h).mpr hs)]

theorem runProgram_of_not_asksTerminate {s t : State} (h : step s = .next t) (hs : ¬AsksTerminate s) (n : Nat) :
    runProgram (n + 1) s = runProgram n t := by
  simp only [runProgram, h, if_neg (mt (reportsTerminate_iff h).mp hs)]

/-- A run that reports stopped came to a step that asks for the terminate service, and that step was its last. -/
theorem runProgram_stopped {n : Nat} {s t : State} (h : runProgram n s = .stopped t) :
    ∃ k u, k < n ∧ core.run k s = .next u ∧ step u = .next t ∧ AsksTerminate u := by
  induction n generalizing s with
  | zero => cases h
  | succ n ih =>
    cases hstep : step s with
    | fault f => cases f
    | refused r =>
      rw [runProgram_of_refused hstep] at h
      cases h
    | next s' =>
      by_cases hs : AsksTerminate s
      · rw [runProgram_of_asksTerminate hstep hs] at h
        cases h
        exact ⟨0, s, n.succ_pos, rfl, hstep, hs⟩
      · rw [runProgram_of_not_asksTerminate hstep hs] at h
        obtain ⟨k, u, hk, hrun, hlast, hu⟩ := ih h
        exact ⟨k + 1, u, Nat.succ_lt_succ hk, (core_run_succ hstep k).trans hrun, hlast, hu⟩

/-- Settles O59: the loop's test after a step holds exactly where that step asks for the terminate service. -/
theorem runStopsAtTerminateOfThisRun : Obligations.RunStopsAtTerminateOfThisRun := by
  refine ⟨fun n s t h => ?_, fun s => rfl, fun n s r h => runProgram_of_refused h n,
    fun n s t h => ⟨fun hs => runProgram_of_asksTerminate h hs n, fun hs => runProgram_of_not_asksTerminate h hs n⟩⟩
  obtain ⟨k, u, hk, hrun, hlast, hu⟩ := runProgram_stopped h
  have hpc := hu.pc_eq hlast
  obtain ⟨hsusp, hdecode, hcode⟩ := hu
  exact ⟨k, u, hk, hrun, hsusp, hlast, hdecode, hcode, hpc⟩

/-! ### The step and reset -/

/-- Settles O1: fetching gives the word at `pc`. -/
theorem stepRunsDecodedInstruction : Obligations.StepRunsDecodedInstruction := fun _ _ => step_eq_exec

/-- Settles O52: every field of a constructed state is a parameter, a cleared flag or given contents. -/
theorem resetSetsPcAndClearsFlags : Obligations.ResetSetsPcAndClearsFlags := by
  refine ⟨fun s pc0 contents => ⟨resetMachine pc0 contents s, rfl, ?_, rfl, rfl, rfl, readReg_zero _, rfl, rfl, rfl,
    rfl, rfl, rfl, rfl, rfl, rfl⟩, rfl, rfl, rfl, rfl, readReg_zero _⟩
  cases pc0 with
  | none => rfl
  | some a => rfl

/-- The parameters of the model's own platform meet rule R6 (note 3). -/
theorem configReference_wf : Config.reference.wf := by
  have hcodes : Config.reference.codes.Nodup := by decide
  have hmap : AddressMap.reference.wf := by decide
  exact ⟨rfl, rfl, rfl, hcodes, rfl, hmap⟩

/-- Settles O54: the reset state is constructed on that platform, with no contents. -/
theorem resetSatisfiesStateInvariant : Obligations.ResetSatisfiesStateInvariant :=
  construct_inv configReference_wf none [] Env.fresh

end Sys2Proof.Machine
end
